-- ==== Sys2Proof/Word.lean ====
section
/-!
DEFINITION. The bit vectors of the block: lanes, words and register indices (00_scope.md R9, R10, R66).
-/

namespace Sys2Proof

/-- `B32` (R9): a binary32 pattern, an instruction word or the FPSCR. -/
abbrev B32 := BitVec 32

/-- `B64` (R9): a binary64 pattern. -/
abbrev B64 := BitVec 64

/-- A byte of an instruction word in memory, as a dispatcher fetches it (20_memory.md R51). -/
abbrev Byte := BitVec 8

/-- A register index, 0 to 31 (30_encoding.md R60, R63). -/
abbrev RegIdx := BitVec 5

theorem RegIdx.toNat_lt (r : RegIdx) : r.toNat < 32 := r.isLt

end Sys2Proof
end

