-- ==== Sys2Proof/Config.lean ====
section
/-!
DEFINITION. The values that the spec gives the parameters of the block (00_scope.md R8; 92_eei_decisions.md, parameter
table), and its one free value. Machine/Params.lean gathers all parameters in one structure, which the machine takes as
an argument; here are its values that are plain words. The layout, the tables and the estimates stand in
Machine/Flags.lean and Machine/Ieee.lean.
-/

namespace Sys2Proof

/-- When underflow is judged (40_fp_value_model.md R93): on the value rounded with unbounded exponent, or on
the exact value. -/
inductive Tininess where
  | before
  | after
  deriving DecidableEq, Repr

/-- `QNAN32` (R88), the spec's default. PRESUMED, log 5. -/
def Config.qnan32 : B32 := 0x7FC00000

/-- `TININESS` (R93), the spec's default. DESIGN CHOICE of the spec, log 6. -/
def Config.tininess : Tininess := .after

/-- `FPSCR_RESET` (10_state.md R36), the spec's default. DESIGN CHOICE of the spec, log 15. -/
def Config.fpscrReset : B32 := 0x00000000

/-- CR1 after reset: unspecified by the spec (10_state.md R39). DESIGN CHOICE, unsafe, log 14. -/
def Config.cr1Reset : BitVec 4 := 0

/-- `TRUNC_OVERFLOW` (R90, 93_implementation_defined.md U1): what `trunc_bits` gives for a finite binary64 whose
exponent field is 1151 to 2046. A FREE VALUE: no body, so nothing can be proved of it. Log 7. -/
opaque Config.truncOverflow : B64 → B32

end Sys2Proof
end

