-- ==== Sys2Proof/Machine/Float.lean ====
section
/-!
DEFINITION. The two formats, the predicates of the fp_classifier, the bit-level conversions between the lane
formats and the result classes: 40_fp_value_model.md R80 to R91, R101, R102.
-/

namespace Sys2Proof.Machine

/-! ### Fields of a pattern (00_scope.md R10) -/

def sign32 (v : B32) : Bool := v.getLsbD 31
def exp32 (v : B32) : BitVec 8 := v.extractLsb' 23 8
def frac32 (v : B32) : BitVec 23 := v.extractLsb' 0 23

def sign64 (v : B64) : Bool := v.getLsbD 63
def exp64 (v : B64) : BitVec 11 := v.extractLsb' 52 11
def frac64 (v : B64) : BitVec 52 := v.extractLsb' 0 52

/-- The binary32 pattern `s ∥ e ∥ f`. -/
def pack32 (s : Bool) (e : BitVec 8) (f : BitVec 23) : B32 := BitVec.ofBool s ++ e ++ f

/-- The binary64 pattern `s ∥ e ∥ f`. -/
def pack64 (s : Bool) (e : BitVec 11) (f : BitVec 52) : B64 := BitVec.ofBool s ++ e ++ f

/-- The top 23 bits of a binary64 fraction, `f[51:29]`. -/
def fracHigh (v : B64) : BitVec 23 := v.extractLsb' 29 23

/-! ### Predicates (R81 to R86) -/

/-- R81. -/
def isNan32 (v : B32) : Bool := exp32 v == 0xFF && frac32 v != 0
/-- R81. -/
def isNan64 (v : B64) : Bool := exp64 v == 0x7FF && frac64 v != 0

/-- R82: a NaN whose most significant fraction bit is 0. -/
def isSnan32 (v : B32) : Bool := isNan32 v && !v.getLsbD 22
/-- R82. -/
def isSnan64 (v : B64) : Bool := isNan64 v && !v.getLsbD 51

/-- R83. -/
def isInf32 (v : B32) : Bool := exp32 v == 0xFF && frac32 v == 0
/-- R83. -/
def isInf64 (v : B64) : Bool := exp64 v == 0x7FF && frac64 v == 0

/-- R84: either zero; a subnormal is not zero. -/
def isZero32 (v : B32) : Bool := exp32 v == 0 && frac32 v == 0
/-- R84. -/
def isZero64 (v : B64) : Bool := exp64 v == 0 && frac64 v == 0

/-- R86, on lane 1: true of `-0`, false of every NaN. -/
def geZero32 (v : B32) : Bool := !isNan32 v && (isZero32 v || !sign32 v)
/-- R86, on lane 0. -/
def geZero64 (v : B64) : Bool := !isNan64 v && (isZero64 v || !sign64 v)

/-! ### NaN helpers and sign operations (R87, R101, R110) -/

/-- R87: set the most significant fraction bit. -/
def makeQuiet (v : B32) : B32 := v ||| 0x00400000

/-- R101. -/
def neg32 (v : B32) : B32 := v ^^^ 0x80000000

/-- The sign flip of a binary64 pattern (R95 for sub64, 44_ps_fma.md R151 for the addend). -/
def flipSign64 (v : B64) : B64 := v ^^^ 0x8000000000000000

/-! ### Conversions between the lane formats (R89 to R91) -/

/-- R89: exact widening, NaN payloads kept bit for bit. The last arm is a binary32 subnormal, which becomes a
binary64 normal; `k` is the index of the highest set bit of its fraction. -/
def extendFloat (v : B32) : B64 :=
  let s := sign32 v
  let e := exp32 v
  let f := frac32 v
  if e = 0xFF then pack64 s 0x7FF (f ++ (0 : BitVec 29))
  else if e ≠ 0 then pack64 s (BitVec.ofNat 11 (e.toNat + 896)) (f ++ (0 : BitVec 29))
  else if f = 0 then pack64 s 0 0
  else
    let k := f.toNat.log2
    pack64 s (BitVec.ofNat 11 (k + 874)) (f.setWidth 52 <<< (52 - k))

/-- R90, DOC0's `truncate_double_bits` and, in every instruction rule, `truncate_double` too (90_conflicts.md C1,
log 19). The last arm is the parameter TRUNC_OVERFLOW, by default the free value of log 7. -/
def truncBits (v : B64) (overflow : B64 → B32 := Config.truncOverflow) : B32 :=
  let s := sign64 v
  let e := (exp64 v).toNat
  if e = 0x7FF then pack32 s 0xFF (fracHigh v)
  else if 897 ≤ e ∧ e ≤ 1150 then pack32 s (BitVec.ofNat 8 (e - 896)) (fracHigh v)
  else if 874 ≤ e ∧ e ≤ 896 then
    pack32 s 0 ((((1 : BitVec 1) ++ fracHigh v) >>> (897 - e)).setWidth 23)
  else if e ≤ 873 then pack32 s 0 0
  else overflow v

/-- R91: widening of the bits of a signalling NaN; called only with exponent field 0xFF. -/
def extendFloatNanBits (w : B32) : B64 := pack64 (sign32 w) 0x7FF (frac32 w ++ (0 : BitVec 29))

/-! ### Result classes (R80, R102) -/

/-- The nine classes that FPRF tells apart. -/
inductive FpClass where
  | qnan
  | negInf
  | negNormal
  | negDenormal
  | negZero
  | posZero
  | posDenormal
  | posNormal
  | posInf
  deriving DecidableEq, Repr

/-- R102: the class of a binary64; every NaN is `qnan`. -/
def class64 (v : B64) : FpClass :=
  if isNan64 v then .qnan
  else if isInf64 v then (if sign64 v then .negInf else .posInf)
  else if isZero64 v then (if sign64 v then .negZero else .posZero)
  else if exp64 v = 0 then (if sign64 v then .negDenormal else .posDenormal)
  else (if sign64 v then .negNormal else .posNormal)

end Sys2Proof.Machine
end

