-- ==== Sys2Proof/Machine/Rounding.lean ====
section
/-!
DEFINITION. Exact values, IEEE-754 rounding in the four modes with its signals, and the rounding conversion from
binary64 to binary32: 40_fp_value_model.md R92 to R94; the signal record of 00_scope.md R14.
TININESS is an argument of each rounding; where a statement leaves it out it is the spec's default.
-/

namespace Sys2Proof.Machine

/-- R92. -/
inductive RoundMode where
  | rne
  | rtz
  | rup
  | rdn
  deriving DecidableEq, Repr

/-- The signal record `sig` (00_scope.md R14). -/
structure Signals where
  inv : Bool
  dz  : Bool
  of  : Bool
  uf  : Bool
  inx : Bool
  deriving DecidableEq, Repr

/-- `SIG0` (00_scope.md R14). -/
def Signals.none : Signals := { inv := false, dz := false, of := false, uf := false, inx := false }

/-- `s | t`, member by member (00_scope.md R14). -/
def Signals.union (s t : Signals) : Signals where
  inv := s.inv || t.inv
  dz  := s.dz || t.dz
  of  := s.of || t.of
  uf  := s.uf || t.uf
  inx := s.inx || t.inx

/-- An exact real `m · 2^e`: what a finite pattern, a sum and a product denote (00_scope.md R10, `val`). -/
structure Exact where
  m : Int
  e : Int
  deriving DecidableEq, Repr

/-- The exact sum: both terms are brought to the lesser exponent. -/
def Exact.add (x y : Exact) : Exact where
  m := x.m * 2 ^ (x.e - min x.e y.e).toNat + y.m * 2 ^ (y.e - min x.e y.e).toNat
  e := min x.e y.e

/-- The exact product. -/
def Exact.mul (x y : Exact) : Exact where
  m := x.m * y.m
  e := x.e + y.e

/-- The exact magnitude of a positive real that is to be rounded: the quotient of two positive naturals (sums,
products, quotients) or the square root of one (R100). -/
inductive Magnitude where
  | quotient (num den : Nat)
  | root (num den : Nat)
  deriving DecidableEq, Repr

/-- `num / den · 2^k` as a numerator and a denominator. -/
def scaleBy (num den : Nat) (k : Int) : Nat × Nat :=
  if 0 ≤ k then (num * 2 ^ k.toNat, den) else (num, den * 2 ^ (-k).toNat)

/-- One bit of the integer square root at a time, from bit `b - 1` down. -/
def isqrtFrom (n : Nat) : Nat → Nat → Nat
  | 0, r => r
  | b + 1, r => if (r + 2 ^ b) * (r + 2 ^ b) ≤ n then isqrtFrom n b (r + 2 ^ b) else isqrtFrom n b r

/-- The greatest `r` with `r * r ≤ n`. -/
def isqrt (n : Nat) : Nat := isqrtFrom n (n.log2 / 2 + 1) 0

/-- The floor of `x · 2^k`, and whether a non-zero part below it was cut off. -/
def Magnitude.floorAt (x : Magnitude) (k : Int) : Nat × Bool :=
  match x with
  | .quotient num den =>
    let (a, b) := scaleBy num den k
    (a / b, a % b != 0)
  | .root num den =>
    let (a, b) := scaleBy num den (2 * k)
    let r := isqrt (a / b)
    (r, r * r * b != a)

/-- The floor of the base-2 logarithm of `num / den`. -/
def quotientLog (num den : Nat) : Int :=
  let e : Int := num.log2 - den.log2
  let (a, b) := scaleBy num den (-e)
  if b ≤ a then e else e - 1

/-- The `e` with `2^e ≤ x < 2^(e+1)`. -/
def Magnitude.log (x : Magnitude) : Int :=
  match x with
  | .quotient num den => quotientLog num den
  | .root num den => quotientLog num den / 2

/-- `x` of sign `s` (true for negative) rounded under `rm` to an integer multiple of `2^q`: the multiple, and
whether the value changed (R92, R93). `half` is the bit below the last kept one. -/
def Magnitude.roundTo (x : Magnitude) (q : Int) (rm : RoundMode) (s : Bool) : Nat × Bool :=
  let (twice, sticky) := x.floorAt (1 - q)
  let k := twice / 2
  let half := twice % 2 == 1
  let inexact := half || sticky
  let up := match rm with
    | .rne => half && (sticky || k % 2 == 1)
    | .rtz => false
    | .rup => inexact && !s
    | .rdn => inexact && s
  (if up then k + 1 else k, inexact)

/-- A format of R93: precision `p`, least normal exponent, greatest exponent. -/
structure FpFormat where
  p    : Nat
  emin : Int
  emax : Int
  deriving DecidableEq, Repr

def binary32 : FpFormat := { p := 24, emin := -126, emax := 127 }
def binary64 : FpFormat := { p := 53, emin := -1022, emax := 1023 }

/-- A pattern taken apart into its sign, its exponent field and its fraction field. -/
structure FpParts where
  sign : Bool
  exp  : Nat
  frac : Nat
  deriving DecidableEq, Repr

def FpParts.to32 (x : FpParts) : B32 := pack32 x.sign (BitVec.ofNat 8 x.exp) (BitVec.ofNat 23 x.frac)
def FpParts.to64 (x : FpParts) : B64 := pack64 x.sign (BitVec.ofNat 11 x.exp) (BitVec.ofNat 52 x.frac)

/-- The infinity of sign `s`. -/
def FpFormat.infinity (fmt : FpFormat) (s : Bool) : FpParts :=
  { sign := s, exp := (2 * fmt.emax + 1).toNat, frac := 0 }

/-- The largest finite number of sign `s`. -/
def FpFormat.largest (fmt : FpFormat) (s : Bool) : FpParts :=
  { sign := s, exp := (2 * fmt.emax).toNat, frac := 2 ^ (fmt.p - 1) - 1 }

/-- The result of an overflow, by mode and sign (R93). -/
def FpFormat.overflowed (fmt : FpFormat) (rm : RoundMode) (s : Bool) : FpParts :=
  match rm with
  | .rne => fmt.infinity s
  | .rtz => fmt.largest s
  | .rup => if s then fmt.largest s else fmt.infinity s
  | .rdn => if s then fmt.infinity s else fmt.largest s

/-- R93: `round(fmt, rm, s, x)` for a non-zero magnitude `x` of sign `s`. `ru` rounds with unbounded exponent to
`ru · 2^(e - p + 1)`, which has `p` bits or is `2^p`; `top` is the exponent of that value. -/
def round (fmt : FpFormat) (tin : Tininess) (rm : RoundMode) (s : Bool) (x : Magnitude) : FpParts × Signals :=
  let e := x.log
  let (ru, inexact) := x.roundTo (e - fmt.p + 1) rm s
  let top := if ru = 2 ^ fmt.p then e + 1 else e
  if fmt.emax < top then
    (fmt.overflowed rm s, { Signals.none with of := true, inx := true })
  else if e < fmt.emin then
    let (rd, inexactD) := x.roundTo (fmt.emin - fmt.p + 1) rm s
    let tiny := match tin with
      | .after => decide (top < fmt.emin)
      | .before => true
    (if rd = 2 ^ (fmt.p - 1) then { sign := s, exp := 1, frac := 0 } else { sign := s, exp := 0, frac := rd },
     { Signals.none with inx := inexactD, uf := tiny && inexactD })
  else
    ({ sign := s, exp := (top + fmt.emax).toNat,
       frac := if ru = 2 ^ fmt.p then 0 else ru - 2 ^ (fmt.p - 1) },
     { Signals.none with inx := inexact })

/-- `val` of a binary32 that is not a NaN or an infinity (00_scope.md R10; R80), without the sign of a zero. -/
def val32 (v : B32) : Exact :=
  let mag : Nat := if exp32 v = 0 then (frac32 v).toNat else 2 ^ 23 + (frac32 v).toNat
  { m := if sign32 v then -(mag : Int) else mag
    e := if exp32 v = 0 then -149 else (exp32 v).toNat - 150 }

/-- `val` of a binary64 that is not a NaN or an infinity (00_scope.md R10; R80), without the sign of a zero. -/
def val64 (v : B64) : Exact :=
  let mag : Nat := if exp64 v = 0 then (frac64 v).toNat else 2 ^ 52 + (frac64 v).toNat
  { m := if sign64 v then -(mag : Int) else mag
    e := if exp64 v = 0 then -1074 else (exp64 v).toNat - 1075 }

/-- The sign of a non-zero exact value, true for negative. -/
def Exact.neg (x : Exact) : Bool := decide (x.m < 0)

/-- The magnitude of a non-zero exact value. -/
def Exact.magnitude (x : Exact) : Magnitude :=
  let (a, b) := scaleBy x.m.natAbs 1 x.e
  .quotient a b

/-- `round(binary64, rm, sign of x, x)` (R93). -/
def roundExact64 (rm : RoundMode) (x : Exact) (tin : Tininess) : B64 × Signals :=
  let (r, sig) := round binary64 tin rm x.neg x.magnitude
  (r.to64, sig)

/-- R94: `static_cast<f32>` of a double, rounding under `rm`. A signalling NaN never reaches it (93 U12): the NaN
arm then quiets it, the total definition R94 offers. Log 20, 21. -/
def roundF32 (v : B64) (rm : RoundMode) (tin : Tininess := Config.tininess) : B32 × Signals :=
  if isInf64 v then (pack32 (sign64 v) 0xFF 0, .none)
  else if isZero64 v then (pack32 (sign64 v) 0 0, .none)
  else if isNan64 v then
    (if isSnan64 v then makeQuiet (pack32 (sign64 v) 0xFF (fracHigh v)) else pack32 (sign64 v) 0xFF (fracHigh v), .none)
  else
    let (r, sig) := round binary32 tin rm (sign64 v) (val64 v).magnitude
    (r.to32, sig)

end Sys2Proof.Machine
end

