-- ==== Sys2Proof/Machine/Ieee.lean ====
section
/-!
DEFINITION. The IEEE-754 operations: 40_fp_value_model.md R95 to R100. Each takes patterns that are not NaN (the
meanings test for NaN first) and returns the result with its signals. The arms the spec calls "not reached" give
the quiet NaN and `inv`, as section 6 of that file says for totality (log 21). The reference estimates of 46_ps_estimate.md R175 stand at the end.
-/

namespace Sys2Proof.Machine

/-- What a "not reached" arm of a binary64 operation returns. -/
def notReached64 : B64 × Signals := (0x7FF8000000000000, { Signals.none with inv := true })

/-- What a "not reached" arm of a binary32 operation returns. -/
def notReached32 : B32 × Signals := (0x7FC00000, { Signals.none with inv := true })

/-- The zero of sign `s`. -/
def zero64 (s : Bool) : B64 := pack64 s 0 0

/-- The infinity of sign `s`. -/
def inf64 (s : Bool) : B64 := pack64 s 0x7FF 0

/-- R95. -/
def add64 (a b : B64) (rm : RoundMode) (tin : Tininess := Config.tininess) : B64 × Signals :=
  if isInf64 a && isInf64 b && (sign64 a != sign64 b) then notReached64
  else if isInf64 a then (a, .none)
  else if isInf64 b then (b, .none)
  else
    let x := (val64 a).add (val64 b)
    if x.m = 0 then
      if isZero64 a && isZero64 b && (sign64 a == sign64 b) then (a, .none)
      else (zero64 (rm == .rdn), .none)
    else roundExact64 rm x tin

/-- R95. -/
def sub64 (a b : B64) (rm : RoundMode) (tin : Tininess := Config.tininess) : B64 × Signals :=
  add64 a (flipSign64 b) rm tin

/-- R96. -/
def mul64 (a b : B64) (rm : RoundMode) (tin : Tininess := Config.tininess) : B64 × Signals :=
  let s := sign64 a != sign64 b
  if (isInf64 a && isZero64 b) || (isZero64 a && isInf64 b) then notReached64
  else if isInf64 a || isInf64 b then (inf64 s, .none)
  else if isZero64 a || isZero64 b then (zero64 s, .none)
  else roundExact64 rm ((val64 a).mul (val64 b)) tin

/-- The exact quotient of two magnitudes `|x| / |y|`, `y` non-zero. -/
def Exact.quotient (x y : Exact) : Magnitude :=
  let (a, b) := scaleBy x.m.natAbs y.m.natAbs (x.e - y.e)
  .quotient a b

/-- R97. An infinite dividend over zero signals no `dz`. -/
def div64 (a b : B64) (rm : RoundMode) (tin : Tininess := Config.tininess) : B64 × Signals :=
  let s := sign64 a != sign64 b
  if isInf64 a && isInf64 b then notReached64
  else if isZero64 a && isZero64 b then notReached64
  else if isInf64 a then (inf64 s, .none)
  else if isZero64 b then (inf64 s, { Signals.none with dz := true })
  else if isInf64 b || isZero64 a then (zero64 s, .none)
  else
    let (r, sig) := round binary64 tin rm s ((val64 a).quotient (val64 b))
    (r.to64, sig)

/-- R98: `val(a) × val(c) + val(b)`, the product exact, one rounding to binary64. -/
def fma64 (a c b : B64) (rm : RoundMode) (tin : Tininess := Config.tininess) : B64 × Signals :=
  let sp := sign64 a != sign64 c
  if (isInf64 a && isZero64 c) || (isZero64 a && isInf64 c) then notReached64
  else if isInf64 a || isInf64 c then
    if isInf64 b && (sign64 b != sp) then notReached64 else (inf64 sp, .none)
  else if isInf64 b then (b, .none)
  else
    let x := ((val64 a).mul (val64 c)).add (val64 b)
    if x.m = 0 then
      if (isZero64 a || isZero64 c) && isZero64 b && (sp == sign64 b) then (b, .none)
      else (zero64 (rm == .rdn), .none)
    else roundExact64 rm x tin

/-- R99: R97 in binary32. -/
def div32 (a b : B32) (rm : RoundMode) (tin : Tininess := Config.tininess) : B32 × Signals :=
  let s := sign32 a != sign32 b
  if isInf32 a && isInf32 b then notReached32
  else if isZero32 a && isZero32 b then notReached32
  else if isInf32 a then (pack32 s 0xFF 0, .none)
  else if isZero32 b then (pack32 s 0xFF 0, { Signals.none with dz := true })
  else if isInf32 b || isZero32 a then (pack32 s 0 0, .none)
  else
    let (r, sig) := round binary32 tin rm s ((val32 a).quotient (val32 b))
    (r.to32, sig)

/-- The exact square root of a positive value. -/
def Exact.root (x : Exact) : Magnitude :=
  let (a, b) := scaleBy x.m.natAbs 1 x.e
  .root a b

/-- R100. -/
def sqrt32 (a : B32) (rm : RoundMode) (tin : Tininess := Config.tininess) : B32 × Signals :=
  if isZero32 a then (a, .none)
  else if sign32 a then notReached32
  else if isInf32 a then (a, .none)
  else
    let (r, sig) := round binary32 tin rm false (val32 a).root
    (r.to32, sig)

/-! ### The estimate functions (46_ps_estimate.md R175) -/

/-- The type of RECIP_EST and RSQRT_EST. -/
abbrev Estimator := B32 → RoundMode → B32 × Signals

/-- The reference instantiation of RECIP_EST. -/
def recipReference (tin : Tininess) : Estimator := fun x rm => div32 0x3F800000 x rm tin

/-- The reference instantiation of RSQRT_EST: the root is rounded before the division. -/
def rsqrtReference (tin : Tininess) : Estimator := fun x rm =>
  let (r, sa) := sqrt32 x rm tin
  let (d, sb) := div32 0x3F800000 r rm tin
  (d, sa.union sb)

/-- RECIP_EST, the spec's default. DESIGN CHOICE, unsafe of real hardware, log 8. -/
def recipEst : Estimator := recipReference Config.tininess

/-- RSQRT_EST, the spec's default. DESIGN CHOICE, unsafe of real hardware, log 8. -/
def rsqrtEst : Estimator := rsqrtReference Config.tininess

end Sys2Proof.Machine
end

