-- ==== Sys2Proof/Machine/Flags.lean ====
section
/-!
DEFINITION. The FPSCR word: its layout and accessors (10_state.md R27 to R35), the update engine and FPRF
(48_fpscr_update.md R195 to R204). Functions of the word and of its layout.
-/

namespace Sys2Proof.Machine

/-- The one-bit fields of the FPSCR (10_state.md R27). FPRF and RN are wider and stand below. -/
inductive FpscrBit where
  | FX | FEX | VX
  | OX | UX | ZX | XX
  | VXSNAN | VXISI | VXIDI | VXZDZ | VXIMZ | VXVC
  | FR | FI
  | reserved
  | VXSOFT | VXSQRT | VXCVI
  | VE | OE | UE | ZE | XE
  | NI
  deriving DecidableEq, Repr

/-- The positions of the spec's FPSCR_LAYOUT (R27), bit 0 the least significant. PRESUMED, log 3. -/
def FpscrBit.pos : FpscrBit → Nat
  | .FX => 31
  | .FEX => 30
  | .VX => 29
  | .OX => 28
  | .UX => 27
  | .ZX => 26
  | .XX => 25
  | .VXSNAN => 24
  | .VXISI => 23
  | .VXIDI => 22
  | .VXZDZ => 21
  | .VXIMZ => 20
  | .VXVC => 19
  | .FR => 18
  | .FI => 17
  | .reserved => 11
  | .VXSOFT => 10
  | .VXSQRT => 9
  | .VXCVI => 8
  | .VE => 7
  | .OE => 6
  | .UE => 5
  | .ZE => 4
  | .XE => 3
  | .NI => 2

/-- The parameter FPSCR_LAYOUT (R27; 92_eei_decisions.md D3): where each one-bit field stands, and the lowest bit of
FPRF (five bits) and of RN (two bits). -/
structure Layout where
  bit  : FpscrBit → Nat
  fprf : Nat
  rn   : Nat

/-- FPSCR_LAYOUT, the spec's default: FPRF in bits 16:12 and RN in bits 1:0 (R27). PRESUMED, log 3. -/
def Layout.powerPC : Layout := { bit := FpscrBit.pos, fprf := 12, rn := 0 }

/-- What makes a layout one: the fields lie inside the word and no two of them share a bit. -/
structure Layout.Lawful (L : Layout) : Prop where
  bit_inj  : ∀ b c, L.bit b = L.bit c → b = c
  bit_lt   : ∀ b, L.bit b < 32
  fprf_le  : L.fprf + 5 ≤ 32
  rn_le    : L.rn + 2 ≤ 32
  bit_fprf : ∀ b, L.bit b < L.fprf ∨ L.fprf + 5 ≤ L.bit b
  bit_rn   : ∀ b, L.bit b < L.rn ∨ L.rn + 2 ≤ L.bit b
  fprf_rn  : L.fprf + 5 ≤ L.rn ∨ L.rn + 2 ≤ L.fprf

/-- `FPSCR.name`, of a one-bit field (00_scope.md R11). -/
def Fpscr.get (w : B32) (b : FpscrBit) (L : Layout := .powerPC) : Bool := w.getLsbD (L.bit b)

/-- The word with the bit at position `n` set to `v`. -/
def setBit (w : B32) (n : Nat) (v : Bool) : B32 :=
  if v then w ||| BitVec.twoPow 32 n else w &&& ~~~(BitVec.twoPow 32 n)

/-- `FPSCR.name <- v`, of a one-bit field (00_scope.md R11). -/
def Fpscr.write (L : Layout) (w : B32) (b : FpscrBit) (v : Bool) : B32 := setBit w (L.bit b) v

/-- `FPSCR.name |= v` (00_scope.md R11; 10_state.md R28; 60_exceptions.md R221). -/
def Fpscr.raise (L : Layout) (w : B32) (b : FpscrBit) (v : Bool) : B32 := Fpscr.write L w b (Fpscr.get w b L || v)

/-- FPRF (10_state.md R27). -/
def Fpscr.fprf (w : B32) (L : Layout := .powerPC) : BitVec 5 := w.extractLsb' L.fprf 5

/-- RN (10_state.md R27). -/
def Fpscr.rn (w : B32) (L : Layout := .powerPC) : BitVec 2 := w.extractLsb' L.rn 2

/-- RN_ENCODING, the spec's default (10_state.md R31). PRESUMED, log 4. -/
def rnEncoding (n : BitVec 2) : RoundMode :=
  match n.getLsbD 1, n.getLsbD 0 with
  | false, false => .rne
  | false, true => .rtz
  | true, false => .rup
  | true, true => .rdn

/-- `rc1`, a view of bits 31:28 (10_state.md R35), in the spec's layout FX, FEX, VX, OX, and what the record mirror copies
(48_fpscr_update.md R205). Log 16. -/
def Fpscr.rc1 (w : B32) : BitVec 4 := w.extractLsb' 28 4

/-- The thirteen exception bits, EXC_MASK of 48_fpscr_update.md R200. Log 22. -/
def exceptionBits : List FpscrBit :=
  [.OX, .UX, .ZX, .XX, .VXSNAN, .VXISI, .VXIDI, .VXZDZ, .VXIMZ, .VXVC, .VXSOFT, .VXSQRT, .VXCVI]

/-- EXC_MASK of R200: the word that holds exactly the exception bits of the layout. -/
def excMask (L : Layout) : B32 := exceptionBits.foldl (fun m b => m ||| BitVec.twoPow 32 (L.bit b)) 0

/-- Step 1 (R197): the signals into the sticky bits; `inv` goes nowhere (log 34). -/
def accumulateSignals (L : Layout) (w : B32) (s : Signals) : B32 :=
  let w := Fpscr.raise L w .OX s.of
  let w := Fpscr.raise L w .UX s.uf
  let w := Fpscr.raise L w .ZX s.dz
  Fpscr.raise L w .XX s.inx

/-- The formula of VX (R198). -/
def vxFormula (L : Layout) (w : B32) : Bool :=
  Fpscr.get w .VXSNAN L || Fpscr.get w .VXISI L || Fpscr.get w .VXIDI L || Fpscr.get w .VXZDZ L ||
    Fpscr.get w .VXIMZ L || Fpscr.get w .VXVC L || Fpscr.get w .VXSOFT L || Fpscr.get w .VXSQRT L ||
    Fpscr.get w .VXCVI L

/-- Step 2 (R198), an assignment. -/
def recomputeVx (L : Layout) (w : B32) : B32 := Fpscr.write L w .VX (vxFormula L w)

/-- The formula of FEX (R199). -/
def fexFormula (L : Layout) (w : B32) : Bool :=
  (Fpscr.get w .VX L && Fpscr.get w .VE L) || (Fpscr.get w .OX L && Fpscr.get w .OE L) ||
    (Fpscr.get w .UX L && Fpscr.get w .UE L) || (Fpscr.get w .ZX L && Fpscr.get w .ZE L) ||
    (Fpscr.get w .XX L && Fpscr.get w .XE L)

/-- Step 3 (R199), an assignment. -/
def recomputeFex (L : Layout) (w : B32) : B32 := Fpscr.write L w .FEX (fexFormula L w)

/-- Step 4 (R200): FX is set when an exception bit is 1 now and was 0 in `old`; otherwise it keeps its value. -/
def accumulateFx (L : Layout) (old w : B32) : B32 := Fpscr.raise L w .FX (w &&& ~~~old &&& excMask L != 0)

/-- R201: `UpdateFPSCR(old, s)` on the word `w`. -/
def updateFpscr (L : Layout) (old w : B32) (s : Signals) : B32 :=
  accumulateFx L old (recomputeFex L (recomputeVx L (accumulateSignals L w s)))

/-- FPRF_CODE, the spec's default (R204). PRESUMED, log 9. -/
def FpClass.code : FpClass → BitVec 5
  | .qnan => 0x11
  | .negInf => 0x09
  | .negNormal => 0x08
  | .negDenormal => 0x18
  | .negZero => 0x12
  | .posZero => 0x02
  | .posDenormal => 0x14
  | .posNormal => 0x04
  | .posInf => 0x05

/-- R203, R204: FPRF `<-` the code `c` in the word `w`. -/
def writeFprf (L : Layout) (w : B32) (c : BitVec 5) : B32 :=
  (w &&& ~~~((0x1F : B32) <<< L.fprf)) ||| (c.setWidth 32 <<< L.fprf)

end Sys2Proof.Machine
end

