-- ==== Sys2Proof/Machine/Params.lean ====
section
/-!
DEFINITION. The parameters of the block as one argument (00_scope.md R8: "a named parameter the model takes as an
argument"; 92_eei_decisions.md, parameter table). Every rule below this file takes `P : Params`; `Params.spec` is the
spec's own choice, at which the machine of Step.lean runs. DEDUCED, log 44.
-/

namespace Sys2Proof.Machine

/-- The parameters. -/
structure Params where
  /-- FPSCR_LAYOUT (D3) -/
  layout        : Layout
  /-- QNAN32 (D4) -/
  qnan32        : B32
  /-- RN_ENCODING (D5) -/
  rnEncoding    : BitVec 2 → RoundMode
  /-- TININESS (D6) -/
  tininess      : Tininess
  /-- TRUNC_OVERFLOW (D8) -/
  truncOverflow : B64 → B32
  /-- FPRF_CODE (D12) -/
  fprfCode      : FpClass → BitVec 5
  /-- RECIP_EST (D17) -/
  recipEst      : Estimator
  /-- RSQRT_EST (D17) -/
  rsqrtEst      : Estimator
  /-- FPSCR_RESET (D24) -/
  fpscrReset    : B32
  /-- CR1 at reset (D29) -/
  cr1Reset      : BitVec 4

/-- The spec's default of each parameter. Log 3 to 9, 14, 15. -/
def Params.spec : Params where
  layout        := .powerPC
  qnan32        := Config.qnan32
  rnEncoding    := Sys2Proof.Machine.rnEncoding
  tininess      := Config.tininess
  truncOverflow := Config.truncOverflow
  fprfCode      := FpClass.code
  recipEst      := Sys2Proof.Machine.recipEst
  rsqrtEst      := Sys2Proof.Machine.rsqrtEst
  fpscrReset    := Config.fpscrReset
  cr1Reset      := Config.cr1Reset

/-- What the spec asks of a choice of parameters: a layout without overlap, a quiet NaN (40_fp_value_model.md R88), and
estimates with the fixed values on zeros and infinities (46_ps_estimate.md R176). -/
structure Params.Lawful (P : Params) : Prop where
  layout : P.layout.Lawful
  quiet  : isNan32 P.qnan32 = true ∧ isSnan32 P.qnan32 = false
  recip  : ∀ rm, P.recipEst 0x00000000 rm = (0x7F800000, { Signals.none with dz := true }) ∧
    P.recipEst 0x80000000 rm = (0xFF800000, { Signals.none with dz := true }) ∧
    P.recipEst 0x7F800000 rm = (0x00000000, .none) ∧ P.recipEst 0xFF800000 rm = (0x80000000, .none)
  rsqrt  : ∀ rm, P.rsqrtEst 0x00000000 rm = (0x7F800000, { Signals.none with dz := true }) ∧
    P.rsqrtEst 0x80000000 rm = (0xFF800000, { Signals.none with dz := true }) ∧
    P.rsqrtEst 0x7F800000 rm = (0x00000000, .none)

/-- The rounding mode that RN selects (10_state.md R31). -/
def Fpscr.rm (w : B32) (P : Params := .spec) : RoundMode := P.rnEncoding (Fpscr.rn w P.layout)

/-- R90 with the parameter TRUNC_OVERFLOW. -/
def Params.truncBits (P : Params) (v : B64) : B32 := Sys2Proof.Machine.truncBits v P.truncOverflow

/-- R94 with the parameter TININESS. -/
def Params.roundF32 (P : Params) (v : B64) (rm : RoundMode) : B32 × Signals :=
  Sys2Proof.Machine.roundF32 v rm P.tininess

/-- R203: `updateFPRF(v)` on the word `w`. -/
def Params.updateFprf (P : Params) (w : B32) (v : B64) : B32 := writeFprf P.layout w (P.fprfCode (class64 v))

end Sys2Proof.Machine
end

