-- ==== Sys2Proof/Syntax.lean ====
section
/-!
DEFINITION. The 25 instructions, one constructor for each row of spec/opcode_table.json, each over the decoded
record of 30_encoding.md R60.
-/

namespace Sys2Proof

/-- The fields of the decoded record (R60) beside the opcode. Every instruction carries all of them, those it does
not read included (R70: the record carries whatever the word held). -/
structure Operands where
  frD : RegIdx
  frA : RegIdx
  frB : RegIdx
  frC : RegIdx
  rc  : Bool
  deriving DecidableEq, Repr

/-- The instruction set (00_scope.md R3). -/
inductive Instr where
  | psSum0 (o : Operands)
  | psSum1 (o : Operands)
  | psMuls0 (o : Operands)
  | psMuls1 (o : Operands)
  | psMadds0 (o : Operands)
  | psMadds1 (o : Operands)
  | psDiv (o : Operands)
  | psSub (o : Operands)
  | psAdd (o : Operands)
  | psSel (o : Operands)
  | psRes (o : Operands)
  | psMul (o : Operands)
  | psRsqrte (o : Operands)
  | psMsub (o : Operands)
  | psMadd (o : Operands)
  | psNmsub (o : Operands)
  | psNmadd (o : Operands)
  | psNeg (o : Operands)
  | psMr (o : Operands)
  | psNabs (o : Operands)
  | psAbs (o : Operands)
  | psMerge00 (o : Operands)
  | psMerge01 (o : Operands)
  | psMerge10 (o : Operands)
  | psMerge11 (o : Operands)
  deriving DecidableEq, Repr

/-- The record's fields, whatever the opcode. -/
def Instr.operands : Instr → Operands
  | .psSum0 o | .psSum1 o | .psMuls0 o | .psMuls1 o | .psMadds0 o | .psMadds1 o | .psDiv o | .psSub o | .psAdd o
  | .psSel o | .psRes o | .psMul o | .psRsqrte o | .psMsub o | .psMadd o | .psNmsub o | .psNmadd o | .psNeg o
  | .psMr o | .psNabs o | .psAbs o | .psMerge00 o | .psMerge01 o | .psMerge10 o | .psMerge11 o => o

/-- The two word formats (30_encoding.md R65). -/
inductive Format where
  | A
  | X
  deriving DecidableEq, Repr

/-- The format of each instruction (R68). -/
def Instr.format : Instr → Format
  | .psSum0 _ | .psSum1 _ | .psMuls0 _ | .psMuls1 _ | .psMadds0 _ | .psMadds1 _ | .psDiv _ | .psSub _ | .psAdd _
  | .psSel _ | .psRes _ | .psMul _ | .psRsqrte _ | .psMsub _ | .psMadd _ | .psNmsub _ | .psNmadd _ => .A
  | .psNeg _ | .psMr _ | .psNabs _ | .psAbs _ | .psMerge00 _ | .psMerge01 _ | .psMerge10 _ | .psMerge11 _ => .X

/-- The instructions that run the FPSCR update engine: the arithmetic, sum, FMA and estimate families
(48_fpscr_update.md R196). The others are the move, merge and select families. -/
def Instr.runsEngine : Instr → Bool
  | .psSum0 _ | .psSum1 _ | .psMuls0 _ | .psMuls1 _ | .psMadds0 _ | .psMadds1 _ | .psDiv _ | .psSub _ | .psAdd _
  | .psRes _ | .psMul _ | .psRsqrte _ | .psMsub _ | .psMadd _ | .psNmsub _ | .psNmadd _ => true
  | .psSel _ | .psNeg _ | .psMr _ | .psNabs _ | .psAbs _ | .psMerge00 _ | .psMerge01 _ | .psMerge10 _
  | .psMerge11 _ => false

end Sys2Proof
end

