-- ==== Sys2Proof/WellFormed.lean ====
section
/-!
DEFINITION. Which decoded records some instruction word stands for. The register fields are five bits wide by
their type (30_encoding.md R60), so one check is left: format X has no frC (R65).
-/

namespace Sys2Proof

/-- The record's frC is one the instruction's format can hold: any in format A, none (0) in format X. DESIGN CHOICE
allowed by R65 ("a decoder may set it to 0"), log 11. The meanings are total on the other records too (R60). -/
def Instr.wellFormed (i : Instr) : Bool :=
  match i.format with
  | .A => true
  | .X => i.operands.frC == 0

end Sys2Proof
end

