-- ==== Sys2Proof/Decode.lean ====
section
/-!
DEFINITION. The decoder of the dispatcher (30_encoding.md R63 to R69), total on any word and any bytes, and the
encoder (R73). The word format and the numbers are the spec's, from general knowledge there (R64, R65, R68):
PRESUMED, log 10.
-/

namespace Sys2Proof

/-- Why a word or a run of bytes is none of the 25 instructions. -/
inductive DecodeError where
  /-- fewer than the four bytes of a word -/
  | truncated
  /-- the primary opcode is not 4 (R64) -/
  | notPrimaryOpcode4
  /-- primary opcode 4, but the extended opcode is in no row of R68 (R69) -/
  | unassignedExtendedOpcode
  deriving DecidableEq, Repr

/-- OPCD, bits 31:26 (R65). -/
def opcdOf (w : B32) : BitVec 6 := w.extractLsb' 26 6

/-- XO5, bits 5:1 of format A (R65). -/
def xo5Of (w : B32) : BitVec 5 := w.extractLsb' 1 5

/-- XO10, bits 10:1 of format X (R65). -/
def xo10Of (w : B32) : BitVec 10 := w.extractLsb' 1 10

/-- The record's fields of a format A word (R65, R66). -/
def operandsA (w : B32) : Operands where
  frD := w.extractLsb' 21 5
  frA := w.extractLsb' 16 5
  frB := w.extractLsb' 11 5
  frC := w.extractLsb' 6 5
  rc  := w.getLsbD 0

/-- The record's fields of a format X word, which has no frC (R65, R66). -/
def operandsX (w : B32) : Operands where
  frD := w.extractLsb' 21 5
  frA := w.extractLsb' 16 5
  frB := w.extractLsb' 11 5
  frC := 0
  rc  := w.getLsbD 0

/-- The 17 rows of format A (R68), by XO5. -/
def formatATable : List (BitVec 5 × (Operands → Instr)) :=
  [(10, .psSum0), (11, .psSum1), (12, .psMuls0), (13, .psMuls1), (14, .psMadds0), (15, .psMadds1), (18, .psDiv),
   (20, .psSub), (21, .psAdd), (23, .psSel), (24, .psRes), (25, .psMul), (26, .psRsqrte), (28, .psMsub),
   (29, .psMadd), (30, .psNmsub), (31, .psNmadd)]

/-- The 8 rows of format X (R68), by XO10. -/
def formatXTable : List (BitVec 10 × (Operands → Instr)) :=
  [(40, .psNeg), (72, .psMr), (136, .psNabs), (264, .psAbs), (528, .psMerge00), (560, .psMerge01),
   (592, .psMerge10), (624, .psMerge11)]

/-- The first row with this key. -/
def lookupRow {n : Nat} (key : BitVec n) : List (BitVec n × (Operands → Instr)) → Option (Operands → Instr)
  | [] => none
  | (k, make) :: rows => if k = key then some make else lookupRow key rows

/-- The instruction a word stands for, or why it is none: format A is tried first, then format X (R68). -/
def decode (w : B32) : Except DecodeError Instr :=
  if opcdOf w = 4 then
    match lookupRow (xo5Of w) formatATable with
    | some make => .ok (make (operandsA w))
    | none =>
      match lookupRow (xo10Of w) formatXTable with
      | some make => .ok (make (operandsX w))
      | none => .error .unassignedExtendedOpcode
  else .error .notPrimaryOpcode4

/-- A format A word (R65, R73). -/
def wordA (xo : BitVec 5) (o : Operands) : B32 :=
  (4 : BitVec 6) ++ o.frD ++ o.frA ++ o.frB ++ o.frC ++ xo ++ BitVec.ofBool o.rc

/-- A format X word (R65, R73). -/
def wordX (xo : BitVec 10) (o : Operands) : B32 :=
  (4 : BitVec 6) ++ o.frD ++ o.frA ++ o.frB ++ xo ++ BitVec.ofBool o.rc

/-- The word of an instruction (R68, R73). -/
def encode : Instr → B32
  | .psSum0 o => wordA 10 o
  | .psSum1 o => wordA 11 o
  | .psMuls0 o => wordA 12 o
  | .psMuls1 o => wordA 13 o
  | .psMadds0 o => wordA 14 o
  | .psMadds1 o => wordA 15 o
  | .psDiv o => wordA 18 o
  | .psSub o => wordA 20 o
  | .psAdd o => wordA 21 o
  | .psSel o => wordA 23 o
  | .psRes o => wordA 24 o
  | .psMul o => wordA 25 o
  | .psRsqrte o => wordA 26 o
  | .psMsub o => wordA 28 o
  | .psMadd o => wordA 29 o
  | .psNmsub o => wordA 30 o
  | .psNmadd o => wordA 31 o
  | .psNeg o => wordX 40 o
  | .psMr o => wordX 72 o
  | .psNabs o => wordX 136 o
  | .psAbs o => wordX 264 o
  | .psMerge00 o => wordX 528 o
  | .psMerge01 o => wordX 560 o
  | .psMerge10 o => wordX 592 o
  | .psMerge11 o => wordX 624 o

/-- The word of four bytes at rising addresses: big-endian (20_memory.md R51). -/
def wordOfBytes (b0 b1 b2 b3 : Byte) : B32 := b0 ++ b1 ++ b2 ++ b3

/-- The bytes of a word, lowest address first (R51). -/
def bytesOfWord (w : B32) : List Byte :=
  [w.extractLsb' 24 8, w.extractLsb' 16 8, w.extractLsb' 8 8, w.extractLsb' 0 8]

/-- The instruction at the front of a run of bytes, and the bytes after it. -/
def decodeBytes : List Byte → Except DecodeError (Instr × List Byte)
  | b0 :: b1 :: b2 :: b3 :: rest =>
    match decode (wordOfBytes b0 b1 b2 b3) with
    | .ok i => .ok (i, rest)
    | .error e => .error e
  | _ => .error .truncated

/-- The word that a row's bits stand for: bit 0 the least significant, the bits above `nbits` zero. -/
def tableWord (nbits w : Nat) : B32 := BitVec.ofNat 32 (w % 2 ^ nbits)

/-- What the decoder reads from the bytes of an instruction given by its bits. -/
def decodeTableWord (nbits w : Nat) : Option Instr :=
  match decodeBytes (bytesOfWord (tableWord nbits w)) with
  | .ok (i, _) => some i
  | .error _ => none

/-- One row of the machine-readable map (R68): a word `w` is the instruction iff `w &&& mask = pattern`. -/
structure OpcodeRow where
  mnemonic : String
  pattern  : B32
  mask     : B32
  make     : Operands → Instr

/-- spec/opcode_table.json, row by row, with the hexadecimal `match` and `mask` of R68. -/
def opcodeTable : List OpcodeRow :=
  [⟨"ps_sum0", 0x10000014, 0xFC00003E, .psSum0⟩,
   ⟨"ps_sum1", 0x10000016, 0xFC00003E, .psSum1⟩,
   ⟨"ps_muls0", 0x10000018, 0xFC00003E, .psMuls0⟩,
   ⟨"ps_muls1", 0x1000001A, 0xFC00003E, .psMuls1⟩,
   ⟨"ps_madds0", 0x1000001C, 0xFC00003E, .psMadds0⟩,
   ⟨"ps_madds1", 0x1000001E, 0xFC00003E, .psMadds1⟩,
   ⟨"ps_div", 0x10000024, 0xFC00003E, .psDiv⟩,
   ⟨"ps_sub", 0x10000028, 0xFC00003E, .psSub⟩,
   ⟨"ps_add", 0x1000002A, 0xFC00003E, .psAdd⟩] ++
  [⟨"ps_sel", 0x1000002E, 0xFC00003E, .psSel⟩,
   ⟨"ps_res", 0x10000030, 0xFC00003E, .psRes⟩,
   ⟨"ps_mul", 0x10000032, 0xFC00003E, .psMul⟩,
   ⟨"ps_rsqrte", 0x10000034, 0xFC00003E, .psRsqrte⟩,
   ⟨"ps_msub", 0x10000038, 0xFC00003E, .psMsub⟩,
   ⟨"ps_madd", 0x1000003A, 0xFC00003E, .psMadd⟩,
   ⟨"ps_nmsub", 0x1000003C, 0xFC00003E, .psNmsub⟩,
   ⟨"ps_nmadd", 0x1000003E, 0xFC00003E, .psNmadd⟩] ++
  [⟨"ps_neg", 0x10000050, 0xFC0007FE, .psNeg⟩,
   ⟨"ps_mr", 0x10000090, 0xFC0007FE, .psMr⟩,
   ⟨"ps_nabs", 0x10000110, 0xFC0007FE, .psNabs⟩,
   ⟨"ps_abs", 0x10000210, 0xFC0007FE, .psAbs⟩,
   ⟨"ps_merge00", 0x10000420, 0xFC0007FE, .psMerge00⟩,
   ⟨"ps_merge01", 0x10000460, 0xFC0007FE, .psMerge01⟩,
   ⟨"ps_merge10", 0x100004A0, 0xFC0007FE, .psMerge10⟩,
   ⟨"ps_merge11", 0x100004E0, 0xFC0007FE, .psMerge11⟩]

end Sys2Proof
end

