-- ==== Sys2Proof/Machine/State.lean ====
section
/-!
DEFINITION. The state of the block (10_state.md R22 to R44), its reset, and the reasons a step can stop.
-/

namespace Sys2Proof.Machine

/-- One entry of the FPR file (R23): lane 0 is 64 bits, lane 1 is 32 bits, independent of each other. -/
structure Fpr where
  ps0 : B64
  ps1 : B32
  deriving DecidableEq, Repr

/-- The whole state (R42): the FPR file and the FPSCR, the CR1 output that the block drives (R38), and, the
model's own, the words the dispatcher has still to hand over, the next one first (R21, log 1). -/
structure State where
  fpr     : Vector Fpr 32
  fpscr   : B32
  cr1     : BitVec 4
  program : List B32
  deriving DecidableEq, Repr

/-- The block has no fault outcome (60_exceptions.md R226: "there is no fault outcome"), so no constructor. Log 17. -/
inductive Fault where
  deriving DecidableEq, Repr

/-- Why a step is refused. -/
inductive Refusal where
  /-- exec, for an instruction that has no meaning yet; no arm raises it now. Safe: the model stops. -/
  | notModelled (mnemonic : String)
  /-- step, for a word of the dispatcher that is none of the 25 instructions, with the decoder's reason: the
  dispatcher rejects it, and what it then does is in no source (30_encoding.md R62, R69; 91_not_in_source.md N5).
  Safe: the model stops. Log 13. -/
  | undefinedEncoding (word : B32) (why : DecodeError)
  deriving DecidableEq, Repr

/-- The state right after reset (70_reset_and_hazards.md R240), at given values of the parameter FPSCR_RESET and of CR1,
which the spec leaves open: every lane zero, and no word handed over yet (log 1). -/
def State.resetAt (fpscrReset : B32) (cr1Reset : BitVec 4) : State where
  fpr     := Vector.replicate 32 { ps0 := 0, ps1 := 0 }
  fpscr   := fpscrReset
  cr1     := cr1Reset
  program := []

/-- The state right after reset, at the spec's FPSCR_RESET (log 15) and CR1 = 0 (log 14). -/
def State.reset : State := .resetAt Config.fpscrReset Config.cr1Reset

end Sys2Proof.Machine
end

