-- ==== Sys2Proof/Machine/Operands.lean ====
section
/-!
DEFINITION. Reading: every operand form of the 25 instructions (00_scope.md R11, R13; 30_encoding.md R66, R67).
There are no immediates and no memory operands; a form names a register and a lane of it.
-/

namespace Sys2Proof.Machine

/-- `FPR[i]`, both lanes (10_state.md R22). No entry is hardwired. -/
def State.reg (s : State) (i : RegIdx) : Fpr := s.fpr[i.toNat]'i.toNat_lt

/-- `FPR[i].ps0`, the 64-bit lane 0. -/
def State.ps0 (s : State) (i : RegIdx) : B64 := (s.reg i).ps0

/-- `FPR[i].ps1`, the 32-bit lane 1. -/
def State.ps1 (s : State) (i : RegIdx) : B32 := (s.reg i).ps1

/-- `opnd(i, 0)` (00_scope.md R13). -/
def State.opnd0 (s : State) (i : RegIdx) : B64 := s.ps0 i

/-- `opnd(i, 1)`: lane 1 widened (00_scope.md R13). -/
def State.opnd1 (s : State) (i : RegIdx) : B64 := extendFloat (s.ps1 i)

/-- The rounding mode of every rounding the block performs (10_state.md R31). -/
def State.rm (s : State) (P : Params := .spec) : RoundMode := Fpscr.rm s.fpscr P

end Sys2Proof.Machine
end

