-- ==== Sys2Proof/Machine/Ops.lean ====
section
/-!
DEFINITION. The named operations that change the state: writing a register, the record mirror, and taking an
exception, which on this block is raising sticky FPSCR bits and gating the write (60_exceptions.md R220 to R224).
There is no trap entry and no return from one (R226, R228).
-/

namespace Sys2Proof.Machine

/-- `FPR[i] <- x`, both lanes at once (10_state.md R25). -/
def State.writeReg (s : State) (i : RegIdx) (x : Fpr) : State :=
  { s with fpr := s.fpr.set i.toNat x i.toNat_lt }

/-- `FPSCR <- w`. -/
def State.setFpscr (s : State) (w : B32) : State := { s with fpscr := w }

/-- The record mirror, an instruction's last action: CR1 is driven only when rc = 1 (48_fpscr_update.md R205). -/
def State.mirror (s : State) (rc : Bool) : State :=
  if rc then { s with cr1 := Fpscr.rc1 s.fpscr } else s

/-- The flags that a slot function computes from its operands (R220, R221). -/
structure SlotFlags where
  vxsnan : Bool := false
  vxisi  : Bool := false
  vximz  : Bool := false
  vxidi  : Bool := false
  vxzdz  : Bool := false
  vxsqrt : Bool := false
  zx     : Bool := false
  deriving DecidableEq, Repr

/-- Some invalid sub-flag was raised. -/
def SlotFlags.invalid (f : SlotFlags) : Bool :=
  f.vxsnan || f.vxisi || f.vximz || f.vxidi || f.vxzdz || f.vxsqrt

/-- R221: a condition is raised by or-ing 1 into its bit, whether or not the write is then gated. -/
def raiseFlags (L : Layout) (w : B32) (f : SlotFlags) : B32 :=
  let w := Fpscr.raise L w .VXSNAN f.vxsnan
  let w := Fpscr.raise L w .VXISI f.vxisi
  let w := Fpscr.raise L w .VXIMZ f.vximz
  let w := Fpscr.raise L w .VXIDI f.vxidi
  let w := Fpscr.raise L w .VXZDZ f.vxzdz
  let w := Fpscr.raise L w .VXSQRT f.vxsqrt
  Fpscr.raise L w .ZX f.zx

/-- R222: the gate of a slot, from the flags this slot raised and the enables before the instruction. The family
formulas R122, R152, R177, R180 are this one, since a family's slot leaves the flags it cannot raise false. -/
def gated (L : Layout) (w : B32) (f : SlotFlags) : Bool :=
  (f.invalid && Fpscr.get w .VE L) || (f.zx && Fpscr.get w .ZE L)

/-- What a slot function returns: the flags it raised and, unless it is gated, its binary32 result and signals. A
gated slot produces no result, performs no IEEE operation and contributes SIG0 (42_ps_arith.md R122). -/
structure Slot where
  flags  : SlotFlags
  result : Option (B32 × Signals)
  deriving DecidableEq, Repr

/-- The slot that raises `f` and, when not gated, computes `r`. -/
def Slot.make (P : Params) (w : B32) (f : SlotFlags) (r : B32 × Signals) : Slot where
  flags := f
  result := if gated P.layout w f then none else some r

/-- The signals a slot contributes. -/
def Slot.sig (x : Slot) : Signals :=
  match x.result with
  | some (_, s) => s
  | none => .none

/-- The all-or-nothing write of two slots (60_exceptions.md R223): both lanes of `FPR[d]`, or neither. -/
def State.commitLanes (s : State) (d : RegIdx) (x0 x1 : Slot) : State :=
  match x0.result, x1.result with
  | some (d0, _), some (d1, _) => s.writeReg d { ps0 := extendFloat d0, ps1 := d1 }
  | _, _ => s

/-- FPRF follows slot 0 alone (42_ps_arith.md R124). -/
def fprfOfSlot (P : Params) (w : B32) (x : Slot) : B32 :=
  match x.result with
  | some (d, _) => P.updateFprf w (extendFloat d)
  | none => w

/-- The FPSCR after a two-slot instruction: both slots' flags raised, FPRF from slot 0, then the update engine
against the word before the instruction (R124, R155, R178). -/
def fpscrAfterSlots (P : Params) (old : B32) (x0 x1 : Slot) : B32 :=
  updateFpscr P.layout old
    (fprfOfSlot P (raiseFlags P.layout (raiseFlags P.layout old x0.flags) x1.flags) x0) (x0.sig.union x1.sig)

/-- The skeleton that the arithmetic, FMA and estimate families share (42_ps_arith.md R124, 44_ps_fma.md R155,
46_ps_estimate.md R178): lanes, FPSCR, mirror. Both slots are always evaluated (log 23). -/
def State.commitSlots (s : State) (P : Params) (d : RegIdx) (rc : Bool) (x0 x1 : Slot) : State :=
  ((s.commitLanes d x0 x1).setFpscr (fpscrAfterSlots P s.fpscr x0 x1)).mirror rc

end Sys2Proof.Machine
end

