-- ==== Sys2Proof/Machine/Arith.lean ====
section
/-!
DEFINITION. The arithmetic family (fp_single_adder, fp_single_multiplier, fp_single_divider): ps_add, ps_sub,
ps_mul, ps_div, ps_muls0, ps_muls1 (42_ps_arith.md).
-/

namespace Sys2Proof.Machine

/-- The four operations of a slot (R120). -/
inductive ArithOp where
  | add
  | sub
  | mul
  | div
  deriving DecidableEq, Repr

/-- `op64` of R123. -/
def ArithOp.apply (op : ArithOp) (a b : B64) (rm : RoundMode) (tin : Tininess := Config.tininess) : B64 × Signals :=
  match op with
  | .add => add64 a b rm tin
  | .sub => sub64 a b rm tin
  | .mul => mul64 a b rm tin
  | .div => div64 a b rm tin

/-- R121: the flags of a slot. The zx formula is kept as DOC0 writes it (log 27). -/
def arithFlags (op : ArithOp) (a b : B64) : SlotFlags :=
  let vxsnan := isSnan64 a || isSnan64 b
  let vxzdz := op == .div && isZero64 a && isZero64 b
  { vxsnan := vxsnan
    vxisi := (op == .add && isInf64 a && isInf64 b && (sign64 a != sign64 b)) ||
      (op == .sub && isInf64 a && isInf64 b && (sign64 a == sign64 b))
    vximz := op == .mul && ((isInf64 a && isZero64 b) || (isZero64 a && isInf64 b))
    vxidi := op == .div && isInf64 a && isInf64 b
    vxzdz := vxzdz
    zx := op == .div && isZero64 b && !vxzdz && !vxsnan }

/-- The quieted NaN operand as a result, without signals (R123, arms 5a and 5b). -/
def quietNan (P : Params) (v : B64) : B32 × Signals := (makeQuiet (P.truncBits v), .none)

/-- The "quiet NaN constant" as a result, without signals (R123, arm 5c). -/
def invalidResult (P : Params) : B32 × Signals := (P.qnan32, .none)

/-- A binary64 result narrowed to binary32, the signals of both roundings together (R123, arm 5d; log 31). -/
def narrowResult (P : Params) (t : B64 × Signals) (rm : RoundMode) : B32 × Signals :=
  let (d, s) := P.roundF32 t.1 rm
  (d, t.2.union s)

/-- R123: the result of a slot that is not gated, in priority order. -/
def arithResult (P : Params) (op : ArithOp) (a b : B64) (rm : RoundMode) : B32 × Signals :=
  let f := arithFlags op a b
  if isNan64 a then quietNan P a
  else if isNan64 b then quietNan P b
  else if f.vxisi || f.vximz || f.vxidi || f.vxzdz then invalidResult P
  else narrowResult P (op.apply a b rm P.tininess) rm

/-- R121 to R123: `ArithSlot(op, a, b)` under the FPSCR `w`. -/
def arithSlot (P : Params) (w : B32) (op : ArithOp) (a b : B64) : Slot :=
  Slot.make P w (arithFlags op a b) (arithResult P op a b (Fpscr.rm w P))

/-- R124: `PsArith(op, a_0, b_0, a_1, b_1, frD, rc)`. -/
def psArith (P : Params) (op : ArithOp) (a0 b0 a1 b1 : B64) (o : Operands) (s : State) : State :=
  s.commitSlots P o.frD o.rc (arithSlot P s.fpscr op a0 b0) (arithSlot P s.fpscr op a1 b1)

/-- R127. -/
def psAdd (P : Params) (o : Operands) (s : State) : State :=
  psArith P .add (s.opnd0 o.frA) (s.opnd0 o.frB) (s.opnd1 o.frA) (s.opnd1 o.frB) o s

/-- ps_add at the spec's parameters. -/
def execPsAdd (o : Operands) (s : State) : Host.Outcome State Fault Refusal := .next (psAdd .spec o s)

/-- R128. -/
def psSub (P : Params) (o : Operands) (s : State) : State :=
  psArith P .sub (s.opnd0 o.frA) (s.opnd0 o.frB) (s.opnd1 o.frA) (s.opnd1 o.frB) o s

/-- ps_sub at the spec's parameters. -/
def execPsSub (o : Operands) (s : State) : Host.Outcome State Fault Refusal := .next (psSub .spec o s)

/-- R129. -/
def psMul (P : Params) (o : Operands) (s : State) : State :=
  psArith P .mul (s.opnd0 o.frA) (s.opnd0 o.frC) (s.opnd1 o.frA) (s.opnd1 o.frC) o s

/-- ps_mul at the spec's parameters. -/
def execPsMul (o : Operands) (s : State) : Host.Outcome State Fault Refusal := .next (psMul .spec o s)

/-- R130. -/
def psDiv (P : Params) (o : Operands) (s : State) : State :=
  psArith P .div (s.opnd0 o.frA) (s.opnd0 o.frB) (s.opnd1 o.frA) (s.opnd1 o.frB) o s

/-- ps_div at the spec's parameters. -/
def execPsDiv (o : Operands) (s : State) : Host.Outcome State Fault Refusal := .next (psDiv .spec o s)

/-- R131: both slots use lane 0 of frC. -/
def psMuls0 (P : Params) (o : Operands) (s : State) : State :=
  psArith P .mul (s.opnd0 o.frA) (s.opnd0 o.frC) (s.opnd1 o.frA) (s.opnd0 o.frC) o s

/-- ps_muls0 at the spec's parameters. -/
def execPsMuls0 (o : Operands) (s : State) : Host.Outcome State Fault Refusal := .next (psMuls0 .spec o s)

/-- R132: both slots use lane 1 of frC. -/
def psMuls1 (P : Params) (o : Operands) (s : State) : State :=
  psArith P .mul (s.opnd0 o.frA) (s.opnd1 o.frC) (s.opnd1 o.frA) (s.opnd1 o.frC) o s

/-- ps_muls1 at the spec's parameters. -/
def execPsMuls1 (o : Operands) (s : State) : Host.Outcome State Fault Refusal := .next (psMuls1 .spec o s)

end Sys2Proof.Machine
end

