-- ==== Sys2Proof/Machine/Estimate.lean ====
section
/-!
DEFINITION. The estimate family (fp_reciprocal_est, fp_rsqrt_est): ps_res, ps_rsqrte (46_ps_estimate.md).
-/

namespace Sys2Proof.Machine

/-- The operand narrowed, then the estimate, the signals of both together (R177, R180, last arm). -/
def estimateOf (P : Params) (est : Estimator) (b : B64) (rm : RoundMode) : B32 × Signals :=
  let (x, s1) := P.roundF32 b rm
  let (d, s2) := est x rm
  (d, s1.union s2)

/-- The flags of ResSlot (R177). -/
def resFlags (b : B64) : SlotFlags where
  vxsnan := isSnan64 b
  zx := isZero64 b

/-- The result of ResSlot (R177). The second arm is dead, as in the spec (90_conflicts.md C14). -/
def resResult (P : Params) (b : B64) (rm : RoundMode) : B32 × Signals :=
  if isNan64 b then quietNan P b
  else if (resFlags b).vxsnan then invalidResult P
  else estimateOf P P.recipEst b rm

/-- R177: `ResSlot(b)` under the FPSCR `w`. -/
def resSlot (P : Params) (w : B32) (b : B64) : Slot :=
  Slot.make P w (resFlags b) (resResult P b (Fpscr.rm w P))

/-- The flags of RsqrtSlot (R180). The vxsqrt formula is kept as DOC0 writes it (log 27). -/
def rsqrtFlags (b : B64) : SlotFlags where
  vxsnan := isSnan64 b
  vxsqrt := !isSnan64 b && sign64 b && !isZero64 b
  zx := isZero64 b

/-- The result of RsqrtSlot (R180). -/
def rsqrtResult (P : Params) (b : B64) (rm : RoundMode) : B32 × Signals :=
  if isNan64 b then quietNan P b
  else if (rsqrtFlags b).vxsnan || (rsqrtFlags b).vxsqrt then invalidResult P
  else estimateOf P P.rsqrtEst b rm

/-- R180: `RsqrtSlot(b)` under the FPSCR `w`. -/
def rsqrtSlot (P : Params) (w : B32) (b : B64) : Slot :=
  Slot.make P w (rsqrtFlags b) (rsqrtResult P b (Fpscr.rm w P))

/-- R178: `PsEst(Slot, frD, frB, rc)`. -/
def psEst (P : Params) (slot : B32 → B64 → Slot) (o : Operands) (s : State) : State :=
  s.commitSlots P o.frD o.rc (slot s.fpscr (s.opnd0 o.frB)) (slot s.fpscr (s.opnd1 o.frB))

/-- R179. -/
def psRes (P : Params) (o : Operands) (s : State) : State :=
  psEst P (resSlot P) o s

/-- ps_res at the spec's parameters. -/
def execPsRes (o : Operands) (s : State) : Host.Outcome State Fault Refusal := .next (psRes .spec o s)

/-- R181. -/
def psRsqrte (P : Params) (o : Operands) (s : State) : State :=
  psEst P (rsqrtSlot P) o s

/-- ps_rsqrte at the spec's parameters. -/
def execPsRsqrte (o : Operands) (s : State) : Host.Outcome State Fault Refusal := .next (psRsqrte .spec o s)

end Sys2Proof.Machine
end

