-- ==== Sys2Proof/Machine/Fma.lean ====
section
/-!
DEFINITION. The fused multiply-add family (fp_fma_unit): ps_madd, ps_madds0, ps_madds1, ps_msub, ps_nmadd,
ps_nmsub (44_ps_fma.md).
-/

namespace Sys2Proof.Machine

/-- The addend of R151: `b`, or `b` with its sign bit flipped. -/
def fmaAddend (subtract : Bool) (b : B64) : B64 := if subtract then flipSign64 b else b

/-- R151: the flags of a slot. The vxisi formula is kept as DOC0 writes it (log 27). -/
def fmaFlags (subtract : Bool) (a b c : B64) : SlotFlags where
  vxsnan := isSnan64 a || isSnan64 b || isSnan64 c
  vxisi := (isInf64 a || isInf64 c) && isInf64 b &&
    ((sign64 a != sign64 c) != sign64 (fmaAddend subtract b))
  vximz := (isInf64 a && isZero64 c) || (isZero64 a && isInf64 c)

/-- R153: the result of a slot that is not gated. NaN priority A, then B, then C; Negate flips the sign of a
computed result only (log 26). -/
def fmaResult (P : Params) (subtract negate : Bool) (a b c : B64) (rm : RoundMode) : B32 × Signals :=
  let f := fmaFlags subtract a b c
  if isNan64 a then quietNan P a
  else if isNan64 b then quietNan P b
  else if isNan64 c then quietNan P c
  else if f.vxisi || f.vximz then invalidResult P
  else
    let (d, sig) := narrowResult P (fma64 a c (fmaAddend subtract b) rm P.tininess) rm
    (if negate then neg32 d else d, sig)

/-- R151 to R153: `FmaSlot(a, b, c, Subtract, Negate)` under the FPSCR `w`. -/
def fmaSlot (P : Params) (w : B32) (subtract negate : Bool) (a b c : B64) : Slot :=
  Slot.make P w (fmaFlags subtract a b c) (fmaResult P subtract negate a b c (Fpscr.rm w P))

/-- R155: `PsFma(Subtract, Negate, c_0, c_1, frD, frA, frB, rc)`. -/
def psFma (P : Params) (subtract negate : Bool) (c0 c1 : B64) (o : Operands) (s : State) : State :=
  s.commitSlots P o.frD o.rc
    (fmaSlot P s.fpscr subtract negate (s.opnd0 o.frA) (s.opnd0 o.frB) c0)
    (fmaSlot P s.fpscr subtract negate (s.opnd1 o.frA) (s.opnd1 o.frB) c1)

/-- R156. -/
def psMadd (P : Params) (o : Operands) (s : State) : State :=
  psFma P false false (s.opnd0 o.frC) (s.opnd1 o.frC) o s

/-- ps_madd at the spec's parameters. -/
def execPsMadd (o : Operands) (s : State) : Host.Outcome State Fault Refusal := .next (psMadd .spec o s)

/-- R157: both slots use lane 0 of frC. -/
def psMadds0 (P : Params) (o : Operands) (s : State) : State :=
  psFma P false false (s.opnd0 o.frC) (s.opnd0 o.frC) o s

/-- ps_madds0 at the spec's parameters. -/
def execPsMadds0 (o : Operands) (s : State) : Host.Outcome State Fault Refusal := .next (psMadds0 .spec o s)

/-- R158: both slots use lane 1 of frC. -/
def psMadds1 (P : Params) (o : Operands) (s : State) : State :=
  psFma P false false (s.opnd1 o.frC) (s.opnd1 o.frC) o s

/-- ps_madds1 at the spec's parameters. -/
def execPsMadds1 (o : Operands) (s : State) : Host.Outcome State Fault Refusal := .next (psMadds1 .spec o s)

/-- R159. -/
def psMsub (P : Params) (o : Operands) (s : State) : State :=
  psFma P true false (s.opnd0 o.frC) (s.opnd1 o.frC) o s

/-- ps_msub at the spec's parameters. -/
def execPsMsub (o : Operands) (s : State) : Host.Outcome State Fault Refusal := .next (psMsub .spec o s)

/-- R160. -/
def psNmadd (P : Params) (o : Operands) (s : State) : State :=
  psFma P false true (s.opnd0 o.frC) (s.opnd1 o.frC) o s

/-- ps_nmadd at the spec's parameters. -/
def execPsNmadd (o : Operands) (s : State) : Host.Outcome State Fault Refusal := .next (psNmadd .spec o s)

/-- R161. -/
def psNmsub (P : Params) (o : Operands) (s : State) : State :=
  psFma P true true (s.opnd0 o.frC) (s.opnd1 o.frC) o s

/-- ps_nmsub at the spec's parameters. -/
def execPsNmsub (o : Operands) (s : State) : Host.Outcome State Fault Refusal := .next (psNmsub .spec o s)

end Sys2Proof.Machine
end

