-- ==== Sys2Proof/Machine/Move.lean ====
section
/-!
DEFINITION. The move family (fp_negate_abs): ps_mr, ps_neg, ps_abs, ps_nabs (41_ps_move.md).
-/

namespace Sys2Proof.Machine

/-- The 32-bit value of lane 0 that a move (R111) and a merge (45_ps_merge.md R166) take: a signalling NaN by
bit truncation, anything else rounded under RN, its signals discarded (10_state.md R40, log 34). -/
def narrowLane0 (P : Params) (v : B64) (rm : RoundMode) : B32 :=
  if isSnan64 v then P.truncBits v else (P.roundF32 v rm).1

/-- R111, R112: `MoveGeneric(sop, frD, frB, rc)`. -/
def moveGeneric (P : Params) (sop : B32 → B32) (o : Operands) (s : State) : State :=
  let p0 := s.ps0 o.frB
  let d0 := sop (narrowLane0 P p0 (s.rm P))
  let d1 := sop (s.ps1 o.frB)
  (s.writeReg o.frD
    { ps0 := if isSnan64 p0 then extendFloatNanBits d0 else extendFloat d0, ps1 := d1 }).mirror o.rc

/-- R113. -/
def psMr (P : Params) (o : Operands) (s : State) : State :=
  moveGeneric P (fun w => w) o s

/-- ps_mr at the spec's parameters. -/
def execPsMr (o : Operands) (s : State) : Host.Outcome State Fault Refusal := .next (psMr .spec o s)

/-- R114. -/
def psNeg (P : Params) (o : Operands) (s : State) : State :=
  moveGeneric P (fun w => w ^^^ 0x80000000) o s

/-- ps_neg at the spec's parameters. -/
def execPsNeg (o : Operands) (s : State) : Host.Outcome State Fault Refusal := .next (psNeg .spec o s)

/-- R115. -/
def psAbs (P : Params) (o : Operands) (s : State) : State :=
  moveGeneric P (fun w => w &&& 0x7FFFFFFF) o s

/-- ps_abs at the spec's parameters. -/
def execPsAbs (o : Operands) (s : State) : Host.Outcome State Fault Refusal := .next (psAbs .spec o s)

/-- R116. -/
def psNabs (P : Params) (o : Operands) (s : State) : State :=
  moveGeneric P (fun w => w ||| 0x80000000) o s

/-- ps_nabs at the spec's parameters. -/
def execPsNabs (o : Operands) (s : State) : Host.Outcome State Fault Refusal := .next (psNabs .spec o s)

end Sys2Proof.Machine
end

