-- ==== Sys2Proof/Machine/Merge.lean ====
section
/-!
DEFINITION. The merge family (ps_merger): ps_merge00, ps_merge01, ps_merge10, ps_merge11 (45_ps_merge.md).
-/

namespace Sys2Proof.Machine

/-- R166: result lane 0, from A. -/
def mergeLane0 (P : Params) (mergeValue0 : Bool) (o : Operands) (s : State) : B32 :=
  if mergeValue0 then s.ps1 o.frA else narrowLane0 P (s.ps0 o.frA) (s.rm P)

/-- R167: result lane 1, from B; lane 0 of B is bit-truncated, never rounded, NaNs included (log 19, 33). -/
def mergeLane1 (P : Params) (mergeValue1 : Bool) (o : Operands) (s : State) : B32 :=
  if mergeValue1 then s.ps1 o.frB else P.truncBits (s.ps0 o.frB)

/-- R168: `MergeGeneric(MergeValue0, MergeValue1, frD, frA, frB, rc)`. -/
def mergeGeneric (P : Params) (mergeValue0 mergeValue1 : Bool) (o : Operands) (s : State) : State :=
  (s.writeReg o.frD
    { ps0 := extendFloat (mergeLane0 P mergeValue0 o s), ps1 := mergeLane1 P mergeValue1 o s }).mirror o.rc

/-- R169. -/
def psMerge00 (P : Params) (o : Operands) (s : State) : State :=
  mergeGeneric P false false o s

/-- ps_merge00 at the spec's parameters. -/
def execPsMerge00 (o : Operands) (s : State) : Host.Outcome State Fault Refusal := .next (psMerge00 .spec o s)

/-- R170. -/
def psMerge01 (P : Params) (o : Operands) (s : State) : State :=
  mergeGeneric P false true o s

/-- ps_merge01 at the spec's parameters. -/
def execPsMerge01 (o : Operands) (s : State) : Host.Outcome State Fault Refusal := .next (psMerge01 .spec o s)

/-- R171. -/
def psMerge10 (P : Params) (o : Operands) (s : State) : State :=
  mergeGeneric P true false o s

/-- ps_merge10 at the spec's parameters. -/
def execPsMerge10 (o : Operands) (s : State) : Host.Outcome State Fault Refusal := .next (psMerge10 .spec o s)

/-- R172. -/
def psMerge11 (P : Params) (o : Operands) (s : State) : State :=
  mergeGeneric P true true o s

/-- ps_merge11 at the spec's parameters. -/
def execPsMerge11 (o : Operands) (s : State) : Host.Outcome State Fault Refusal := .next (psMerge11 .spec o s)

end Sys2Proof.Machine
end

