-- ==== Sys2Proof/Machine/Select.lean ====
section
/-!
DEFINITION. ps_sel (47_ps_select.md).
-/

namespace Sys2Proof.Machine

/-- R190, R191: per slot, the raw lane of C where A's lane is at least zero, and of B elsewhere. It mirrors like the
others (log 28). -/
def psSel (o : Operands) (s : State) : State :=
  (s.writeReg o.frD
    { ps0 := if geZero64 (s.ps0 o.frA) then s.ps0 o.frC else s.ps0 o.frB
      ps1 := if geZero32 (s.ps1 o.frA) then s.ps1 o.frC else s.ps1 o.frB }).mirror o.rc

/-- ps_sel; no parameter reaches it. -/
def execPsSel (o : Operands) (s : State) : Host.Outcome State Fault Refusal := .next (psSel o s)

end Sys2Proof.Machine
end

