-- ==== Sys2Proof/Machine/Sum.lean ====
section
/-!
DEFINITION. The sum family (fp_single_adder, cross-slot): ps_sum0, ps_sum1 (43_ps_sum.md).
-/

namespace Sys2Proof.Machine

/-- R140: the one slot of the family, lane 0 of A plus lane 1 of B. -/
def sumSlot (P : Params) (o : Operands) (s : State) : Slot :=
  arithSlot P s.fpscr .add (s.opnd0 o.frA) (s.opnd1 o.frB)

/-- The FPSCR after a sum instruction: the sum's flags raised, FPRF from the sum when it is not gated (R142, log 24),
then the engine with the signals `sig` (R143, R144). -/
def fpscrAfterSum (P : Params) (old : B32) (x : Slot) (sig : Signals) : B32 :=
  updateFpscr P.layout old (fprfOfSlot P (raiseFlags P.layout old x.flags) x) sig

/-- R143: the sum to lane 0, lane 1 a raw copy of C's lane 1. -/
def psSum0 (P : Params) (o : Operands) (s : State) : State :=
  let x := sumSlot P o s
  let t := match x.result with
    | some (d, _) => s.writeReg o.frD { ps0 := extendFloat d, ps1 := s.ps1 o.frC }
    | none => s
  (t.setFpscr (fpscrAfterSum P s.fpscr x x.sig)).mirror o.rc

/-- The side conversion of ps_sum1 (R144): a NaN by bit truncation, unquieted; anything else rounded, with the
underflow signal kept and the inexact and overflow signals dropped (log 30). -/
def sideLane (P : Params) (c0 : B64) (rm : RoundMode) : B32 × Signals :=
  if isNan64 c0 then (P.truncBits c0, .none)
  else
    let (p, sc) := P.roundF32 c0 rm
    (p, { Signals.none with uf := sc.uf })

/-- R144: lane 0 from C's lane 0 by the side conversion, the sum to lane 1. -/
def psSum1 (P : Params) (o : Operands) (s : State) : State :=
  let x := sumSlot P o s
  let side := sideLane P (s.ps0 o.frC) (s.rm P)
  let t := match x.result with
    | some (d, _) => s.writeReg o.frD { ps0 := extendFloat side.1, ps1 := d }
    | none => s
  let sig := match x.result with
    | some (_, sd) => sd.union side.2
    | none => .none
  (t.setFpscr (fpscrAfterSum P s.fpscr x sig)).mirror o.rc

/-- ps_sum0 at the spec's parameters. -/
def execPsSum0 (o : Operands) (s : State) : Host.Outcome State Fault Refusal := .next (psSum0 .spec o s)

/-- ps_sum1 at the spec's parameters. -/
def execPsSum1 (o : Operands) (s : State) : Host.Outcome State Fault Refusal := .next (psSum1 .spec o s)

end Sys2Proof.Machine
end

