-- ==== Sys2Proof/Machine/Dispatch.lean ====
section
/-!
DEFINITION. The dispatch table: one arm per mnemonic (30_encoding.md R61).
-/

namespace Sys2Proof.Machine

def exec (i : Instr) (s : State) : Host.Outcome State Fault Refusal :=
  match i with
  | .psSum0 o => Sys2Proof.Machine.execPsSum0 o s
  | .psSum1 o => Sys2Proof.Machine.execPsSum1 o s
  | .psMuls0 o => Sys2Proof.Machine.execPsMuls0 o s
  | .psMuls1 o => Sys2Proof.Machine.execPsMuls1 o s
  | .psMadds0 o => Sys2Proof.Machine.execPsMadds0 o s
  | .psMadds1 o => Sys2Proof.Machine.execPsMadds1 o s
  | .psDiv o => Sys2Proof.Machine.execPsDiv o s
  | .psSub o => Sys2Proof.Machine.execPsSub o s
  | .psAdd o => Sys2Proof.Machine.execPsAdd o s
  | .psSel o => Sys2Proof.Machine.execPsSel o s
  | .psRes o => Sys2Proof.Machine.execPsRes o s
  | .psMul o => Sys2Proof.Machine.execPsMul o s
  | .psRsqrte o => Sys2Proof.Machine.execPsRsqrte o s
  | .psMsub o => Sys2Proof.Machine.execPsMsub o s
  | .psMadd o => Sys2Proof.Machine.execPsMadd o s
  | .psNmsub o => Sys2Proof.Machine.execPsNmsub o s
  | .psNmadd o => Sys2Proof.Machine.execPsNmadd o s
  | .psNeg o => Sys2Proof.Machine.execPsNeg o s
  | .psMr o => Sys2Proof.Machine.execPsMr o s
  | .psNabs o => Sys2Proof.Machine.execPsNabs o s
  | .psAbs o => Sys2Proof.Machine.execPsAbs o s
  | .psMerge00 o => Sys2Proof.Machine.execPsMerge00 o s
  | .psMerge01 o => Sys2Proof.Machine.execPsMerge01 o s
  | .psMerge10 o => Sys2Proof.Machine.execPsMerge10 o s
  | .psMerge11 o => Sys2Proof.Machine.execPsMerge11 o s

end Sys2Proof.Machine
end

