-- ==== Sys2Proof/Machine/Fetch.lean ====
section
/-!
DEFINITION. What happens to the words that the dispatcher hands over, over any meaning of the instructions.
-/

namespace Sys2Proof.Machine

/-- What executing one record answers. -/
abbrev Meaning := Instr → State → Host.Outcome State Fault Refusal

/-- The word is decoded and its record executed (30_encoding.md R60); a word that is none of the 25 is refused (R62). -/
def runWord (run : Meaning) (word : B32) (s : State) : Host.Outcome State Fault Refusal :=
  match decode word with
  | .ok i => run i s
  | .error e => .refused (.undefinedEncoding word e)

/-- The next word is taken off the dispatcher's list and run. With no word handed over the block is idle and holds its
state (60_exceptions.md R235, log 2). -/
def runNext (run : Meaning) (s : State) : Host.Outcome State Fault Refusal :=
  match s.program with
  | [] => .next s
  | word :: rest => runWord run word { s with program := rest }

end Sys2Proof.Machine
end

