-- ==== Sys2Proof/Machine/Step.lean ====
section
/-!
DEFINITION. One step of the block under its dispatcher: the next word is decoded and its record executed
(30_encoding.md R60; 10_state.md R21; 20_memory.md R56).
-/

namespace Sys2Proof.Machine

/-- One step, at the spec's parameters. -/
def step (s : State) : Host.Outcome State Fault Refusal := runNext exec s

/-- The state with the word of an instruction, given by its bits, put at the front of the dispatcher's list: the
next step takes exactly it. It stands for the dispatcher's handing over of a program (log 1). -/
def State.withFetchWord (s : State) (nbits w : Nat) : State :=
  { s with program := tableWord nbits w :: s.program }

end Sys2Proof.Machine
end

