-- ==== Sys2Proof/Machine/Parametric.lean ====
section
/-!
DEFINITION. The machine that takes the parameters as an argument (00_scope.md R8): `exec`, `step` and `State.reset` are
these at `Params.spec`.
-/

namespace Sys2Proof.Machine

/-- Executing one record, at the parameters `P`. -/
def execWith (P : Params) (i : Instr) (s : State) : Host.Outcome State Fault Refusal :=
  match i with
  | .psSum0 o => .next (psSum0 P o s)
  | .psSum1 o => .next (psSum1 P o s)
  | .psMuls0 o => .next (psMuls0 P o s)
  | .psMuls1 o => .next (psMuls1 P o s)
  | .psMadds0 o => .next (psMadds0 P o s)
  | .psMadds1 o => .next (psMadds1 P o s)
  | .psDiv o => .next (psDiv P o s)
  | .psSub o => .next (psSub P o s)
  | .psAdd o => .next (psAdd P o s)
  | .psSel o => .next (psSel o s)
  | .psRes o => .next (psRes P o s)
  | .psMul o => .next (psMul P o s)
  | .psRsqrte o => .next (psRsqrte P o s)
  | .psMsub o => .next (psMsub P o s)
  | .psMadd o => .next (psMadd P o s)
  | .psNmsub o => .next (psNmsub P o s)
  | .psNmadd o => .next (psNmadd P o s)
  | .psNeg o => .next (psNeg P o s)
  | .psMr o => .next (psMr P o s)
  | .psNabs o => .next (psNabs P o s)
  | .psAbs o => .next (psAbs P o s)
  | .psMerge00 o => .next (psMerge00 P o s)
  | .psMerge01 o => .next (psMerge01 P o s)
  | .psMerge10 o => .next (psMerge10 P o s)
  | .psMerge11 o => .next (psMerge11 P o s)

/-- One step, at the parameters `P`. -/
def stepWith (P : Params) (s : State) : Host.Outcome State Fault Refusal := runNext (execWith P) s

/-- The state right after reset, at the parameters `P`. -/
def State.resetWith (P : Params) : State := .resetAt P.fpscrReset P.cr1Reset

end Sys2Proof.Machine
end

