-- ==== Sys2Proof/Machine/Environment.lean ====
section
/-!
DEFINITION. The host interface: what the environment may do to the state between two instructions (00_scope.md R6;
20_memory.md R58; 70_reset_and_hazards.md R240, R242). `step` performs none of it. Log 36.
-/

namespace Sys2Proof.Machine

/-- An action of the environment. -/
inductive EnvAction where
  /-- another instruction class loads lane 0 of a register -/
  | loadPs0 (i : RegIdx) (v : B64)
  /-- another instruction class loads lane 1 of a register -/
  | loadPs1 (i : RegIdx) (v : B32)
  /-- the FPSCR is written as a whole (10_state.md R37) -/
  | writeFpscr (w : B32)
  /-- CR1 is the dispatcher's state (10_state.md R39) -/
  | writeCr1 (c : BitVec 4)
  /-- the dispatcher has more words to hand over, after those it has -/
  | supply (words : List B32)
  /-- the dispatcher stops calling: the words not yet handed over are dropped (20_memory.md R58) -/
  | stopCalling
  /-- reset at thread start (R240) -/
  | reset
  deriving DecidableEq, Repr

/-- The effect of an environment action, over the state that reset leaves. -/
def environmentOver (reset : State) (a : EnvAction) (s : State) : State :=
  match a with
  | .loadPs0 i v => s.writeReg i { s.reg i with ps0 := v }
  | .loadPs1 i v => s.writeReg i { s.reg i with ps1 := v }
  | .writeFpscr w => s.setFpscr w
  | .writeCr1 c => { s with cr1 := c }
  | .supply words => { s with program := s.program ++ words }
  | .stopCalling => { s with program := [] }
  | .reset => reset

/-- The effect of an environment action, at the spec's parameters. -/
def environment (a : EnvAction) (s : State) : State := environmentOver .reset a s

/-- One event at an instruction boundary: a step of the block, or an action of the environment (R58). -/
inductive Event where
  | step
  | env (a : EnvAction)
  deriving DecidableEq, Repr

/-- A run of events, up to the first step that is refused, over a step and the state that reset leaves. -/
def runEventsOver (step : State → Host.Outcome State Fault Refusal) (reset : State) :
    List Event → State → Host.Outcome State Fault Refusal
  | [], s => .next s
  | .env a :: es, s => runEventsOver step reset es (environmentOver reset a s)
  | .step :: es, s =>
    match step s with
    | .next t => runEventsOver step reset es t
    | .fault r => .fault r
    | .refused r => .refused r

/-- A run of events, at the spec's parameters. -/
def runEvents (es : List Event) (s : State) : Host.Outcome State Fault Refusal := runEventsOver step .reset es s

/-- A run of events, at the parameters `P`. -/
def runEventsWith (P : Params) (es : List Event) (s : State) : Host.Outcome State Fault Refusal :=
  runEventsOver (stepWith P) (.resetWith P) es s

end Sys2Proof.Machine
end

