-- ==== Sys2Proof/Safety.lean ====
section
/-!
DEFINITION. What counts as a safe state and a safe run, in the terms the statements use.
-/

namespace Sys2Proof

open Sys2Proof.Machine

/-- A binary64 that is the extension of a binary32, NaNs included (10_state.md R24). -/
def IsExtended (v : B64) : Prop := ∃ x : B32, v = extendFloat x

/-- The lane-0 invariant (10_state.md R24): every lane 0 is the extension of a binary32. -/
def Lane0Inv (s : State) : Prop := ∀ i : RegIdx, IsExtended (s.ps0 i)

/-- An environment action that respects the lane-0 invariant (92_eei_decisions.md D32: the invariant is an assumption
about the environment). -/
def KeepsLane0 : EnvAction → Prop
  | .loadPs0 _ v => IsExtended v
  | _ => True

/-- A run whose environment respects the lane-0 invariant. -/
def LawfulEvents (es : List Event) : Prop := ∀ a, Event.env a ∈ es → KeepsLane0 a

/-- The dispatcher has done its duty (70_reset_and_hazards.md R242, item 3): every word it has still to hand over is one
of the 25 instructions. A step of such a state is not refused. -/
def ProgramDecodes (s : State) : Prop := ∀ w ∈ s.program, ∃ i, decode w = .ok i

end Sys2Proof
end

