-- ==== Sys2Proof/Certificates/Slice0/Obligations.lean ====
section
/-!
DEFINITION. The statements for the provers. The names before them, in `Sys2Proof.Said`, write down what a rule says in
the statement's own terms: from the predicates of 40_fp_value_model.md and the fields of the state, not from the slot
functions that the meanings call.
-/

namespace Sys2Proof.Said

open Sys2Proof.Machine

/-! ### What is kept -/

/-- No register changed. -/
def RegsKept (s t : State) : Prop := ∀ r : RegIdx, t.reg r = s.reg r

/-- No register but `d` changed. -/
def OthersKept (s t : State) (d : RegIdx) : Prop := ∀ r : RegIdx, r ≠ d → t.reg r = s.reg r

/-- A one-bit field of the FPSCR is as before. -/
def BitKept (s t : State) (b : FpscrBit) : Prop := Fpscr.get t.fpscr b = Fpscr.get s.fpscr b

/-- A sticky field is what it was, or-ed with `v`. -/
def Ored (s t : State) (b : FpscrBit) (v : Bool) : Prop := Fpscr.get t.fpscr b = (Fpscr.get s.fpscr b || v)

/-- VE = 1. -/
def ve (s : State) : Bool := Fpscr.get s.fpscr .VE

/-- ZE = 1. -/
def ze (s : State) : Bool := Fpscr.get s.fpscr .ZE

/-- The FPRF code of the binary32 result `d`: the class of its extension (48_fpscr_update.md R203). -/
def fprfOf (d : B32) : BitVec 5 := (class64 (extendFloat d)).code

/-! ### The arithmetic family (42_ps_arith.md) -/

/-- An operation and the operand pairs of its two result slots. -/
structure TwoSlots where
  op : ArithOp
  a0 : B64
  b0 : B64
  a1 : B64
  b1 : B64

/-- The table of R120. -/
def arith (i : Instr) (s : State) : Option TwoSlots :=
  match i with
  | .psAdd o => some ⟨.add, s.opnd0 o.frA, s.opnd0 o.frB, s.opnd1 o.frA, s.opnd1 o.frB⟩
  | .psSub o => some ⟨.sub, s.opnd0 o.frA, s.opnd0 o.frB, s.opnd1 o.frA, s.opnd1 o.frB⟩
  | .psDiv o => some ⟨.div, s.opnd0 o.frA, s.opnd0 o.frB, s.opnd1 o.frA, s.opnd1 o.frB⟩
  | .psMul o => some ⟨.mul, s.opnd0 o.frA, s.opnd0 o.frC, s.opnd1 o.frA, s.opnd1 o.frC⟩
  | .psMuls0 o => some ⟨.mul, s.opnd0 o.frA, s.opnd0 o.frC, s.opnd1 o.frA, s.opnd0 o.frC⟩
  | .psMuls1 o => some ⟨.mul, s.opnd0 o.frA, s.opnd1 o.frC, s.opnd1 o.frA, s.opnd1 o.frC⟩
  | _ => none

/-- An operand is a signalling NaN. -/
def snan (a b : B64) : Bool := isSnan64 a || isSnan64 b

/-- Infinity minus infinity: add of unlike signs, subtract of like signs. -/
def infMinusInf (op : ArithOp) (a b : B64) : Bool :=
  match op with
  | .add => isInf64 a && isInf64 b && (sign64 a != sign64 b)
  | .sub => isInf64 a && isInf64 b && (sign64 a == sign64 b)
  | .mul => false
  | .div => false

/-- Infinity times zero, either order. -/
def infTimesZero (op : ArithOp) (a b : B64) : Bool :=
  match op with
  | .mul => (isInf64 a && isZero64 b) || (isZero64 a && isInf64 b)
  | _ => false

/-- Infinity over infinity. -/
def infOverInf (op : ArithOp) (a b : B64) : Bool :=
  match op with
  | .div => isInf64 a && isInf64 b
  | _ => false

/-- Zero over zero. -/
def zeroOverZero (op : ArithOp) (a b : B64) : Bool :=
  match op with
  | .div => isZero64 a && isZero64 b
  | _ => false

/-- A zero divisor, where neither 0/0 nor a signalling NaN is raised. -/
def zeroDivide (op : ArithOp) (a b : B64) : Bool :=
  match op with
  | .div => isZero64 b && !isZero64 a && !snan a b
  | _ => false

/-- An invalid operation other than a signalling NaN operand. -/
def invalidOp (op : ArithOp) (a b : B64) : Bool :=
  infMinusInf op a b || infTimesZero op a b || infOverInf op a b || zeroOverZero op a b

/-- The gate of a slot (R122). -/
def shut (s : State) (op : ArithOp) (a b : B64) : Bool :=
  ((snan a b || invalidOp op a b) && ve s) || (zeroDivide op a b && ze s)

/-- The result of a slot that is not gated, in the priority order of R123. -/
def LaneValue (op : ArithOp) (a b : B64) (rm : RoundMode) (d : B32) : Prop :=
  (isNan64 a = true → d = makeQuiet (truncBits a)) ∧
  (isNan64 a = false → isNan64 b = true → d = makeQuiet (truncBits b)) ∧
  (isNan64 a = false → isNan64 b = false → invalidOp op a b = true → d = Config.qnan32) ∧
  (isNan64 a = false → isNan64 b = false → invalidOp op a b = false →
    d = (roundF32 (op.apply a b rm).1 rm).1)

/-- The signals a slot contributes: those of its two roundings, when it computes (R122, R123). -/
def laneSignals (s : State) (op : ArithOp) (a b : B64) : Signals :=
  if shut s op a b || isNan64 a || isNan64 b || invalidOp op a b then .none
  else (op.apply a b s.rm).2.union (roundF32 (op.apply a b s.rm).1 s.rm).2

/-! ### The fused multiply-add family (44_ps_fma.md) -/

/-- The two flags and the operands of the two result slots. -/
structure FmaSlots where
  subtract : Bool
  negate   : Bool
  a0 : B64
  b0 : B64
  c0 : B64
  a1 : B64
  b1 : B64
  c1 : B64

/-- One row of R150 over a record. -/
def fmaRow (subtract negate : Bool) (o : Operands) (c0 c1 : B64) (s : State) : FmaSlots :=
  ⟨subtract, negate, s.opnd0 o.frA, s.opnd0 o.frB, c0, s.opnd1 o.frA, s.opnd1 o.frB, c1⟩

/-- The table of R150. -/
def fma (i : Instr) (s : State) : Option FmaSlots :=
  match i with
  | .psMadd o => some (fmaRow false false o (s.opnd0 o.frC) (s.opnd1 o.frC) s)
  | .psMadds0 o => some (fmaRow false false o (s.opnd0 o.frC) (s.opnd0 o.frC) s)
  | .psMadds1 o => some (fmaRow false false o (s.opnd1 o.frC) (s.opnd1 o.frC) s)
  | .psMsub o => some (fmaRow true false o (s.opnd0 o.frC) (s.opnd1 o.frC) s)
  | .psNmadd o => some (fmaRow false true o (s.opnd0 o.frC) (s.opnd1 o.frC) s)
  | .psNmsub o => some (fmaRow true true o (s.opnd0 o.frC) (s.opnd1 o.frC) s)
  | _ => none

/-- The sign of the addend: b's, flipped by Subtract (R151). -/
def addendSign (subtract : Bool) (b : B64) : Bool := sign64 b != subtract

/-- vxsnan of R151. -/
def fmaSnan (a b c : B64) : Bool := isSnan64 a || isSnan64 b || isSnan64 c

/-- vxisi of R151: (is_inf(a) or is_inf(c)) and is_inf(b) and (sign(a) xor sign(c)) ≠ sign(addend). -/
def fmaIsi (subtract : Bool) (a b c : B64) : Bool :=
  (isInf64 a || isInf64 c) && isInf64 b && ((sign64 a != sign64 c) != addendSign subtract b)

/-- vximz of R151. -/
def fmaImz (a c : B64) : Bool := (isInf64 a && isZero64 c) || (isZero64 a && isInf64 c)

/-- The gate of a slot (R152). -/
def fmaShut (s : State) (subtract : Bool) (a b c : B64) : Bool :=
  (fmaSnan a b c || fmaIsi subtract a b c || fmaImz a c) && ve s

/-- The fused operation on the addend (R153). -/
def fused (subtract : Bool) (a b c : B64) (rm : RoundMode) : B64 × Signals :=
  fma64 a c (if subtract then flipSign64 b else b) rm

/-- The result of a slot that is not gated (R153): NaN priority A, B, C; then the constant; then the computed value,
its sign flipped by Negate. -/
def FmaValue (subtract negate : Bool) (a b c : B64) (rm : RoundMode) (d : B32) : Prop :=
  (isNan64 a = true → d = makeQuiet (truncBits a)) ∧
  (isNan64 a = false → isNan64 b = true → d = makeQuiet (truncBits b)) ∧
  (isNan64 a = false → isNan64 b = false → isNan64 c = true → d = makeQuiet (truncBits c)) ∧
  (isNan64 a = false → isNan64 b = false → isNan64 c = false →
    (fmaIsi subtract a b c || fmaImz a c) = true → d = Config.qnan32) ∧
  (isNan64 a = false → isNan64 b = false → isNan64 c = false →
    (fmaIsi subtract a b c || fmaImz a c) = false →
    d = if negate then (roundF32 (fused subtract a b c rm).1 rm).1 ^^^ 0x80000000
        else (roundF32 (fused subtract a b c rm).1 rm).1)

/-- The signals a slot contributes (R152, R153). -/
def fmaSignals (s : State) (subtract : Bool) (a b c : B64) : Signals :=
  if fmaShut s subtract a b c || isNan64 a || isNan64 b || isNan64 c || fmaIsi subtract a b c || fmaImz a c then
    .none
  else (fused subtract a b c s.rm).2.union (roundF32 (fused subtract a b c s.rm).1 s.rm).2

/-! ### The estimate family (46_ps_estimate.md) -/

/-- vxsqrt of R180. -/
def rsqrtInvalid (b : B64) : Bool := !isSnan64 b && sign64 b && !isZero64 b

/-- The gate of a ps_res slot (R177). -/
def resShut (s : State) (b : B64) : Bool := (isSnan64 b && ve s) || (isZero64 b && ze s)

/-- The gate of a ps_rsqrte slot (R180). -/
def rsqrtShut (s : State) (b : B64) : Bool := ((isSnan64 b || rsqrtInvalid b) && ve s) || (isZero64 b && ze s)

/-- The result of a ps_res slot that is not gated (R177). -/
def ResValue (b : B64) (rm : RoundMode) (d : B32) : Prop :=
  (isNan64 b = true → d = makeQuiet (truncBits b)) ∧
  (isNan64 b = false → d = (recipEst (roundF32 b rm).1 rm).1)

/-- The result of a ps_rsqrte slot that is not gated (R180). -/
def RsqrtValue (b : B64) (rm : RoundMode) (d : B32) : Prop :=
  (isNan64 b = true → d = makeQuiet (truncBits b)) ∧
  (isNan64 b = false → rsqrtInvalid b = true → d = Config.qnan32) ∧
  (isNan64 b = false → rsqrtInvalid b = false → d = (rsqrtEst (roundF32 b rm).1 rm).1)

/-- The signals of a ps_res slot (R177). -/
def resSignals (s : State) (b : B64) : Signals :=
  if resShut s b || isNan64 b then .none
  else (roundF32 b s.rm).2.union (recipEst (roundF32 b s.rm).1 s.rm).2

/-- The signals of a ps_rsqrte slot (R180). -/
def rsqrtSignals (s : State) (b : B64) : Signals :=
  if rsqrtShut s b || isNan64 b || rsqrtInvalid b then .none
  else (roundF32 b s.rm).2.union (rsqrtEst (roundF32 b s.rm).1 s.rm).2

/-! ### The move and merge families -/

/-- The sign operation of a move (41_ps_move.md R110). -/
def moveOp (i : Instr) : Option (B32 → B32) :=
  match i with
  | .psMr _ => some fun w => w
  | .psNeg _ => some fun w => w ^^^ 0x80000000
  | .psAbs _ => some fun w => w &&& 0x7FFFFFFF
  | .psNabs _ => some fun w => w ||| 0x80000000
  | _ => none

/-- The lane-selecting flags of a merge, MergeValue0 and MergeValue1 (45_ps_merge.md R165). -/
def mergeFlags (i : Instr) : Option (Bool × Bool) :=
  match i with
  | .psMerge00 _ => some (false, false)
  | .psMerge01 _ => some (false, true)
  | .psMerge10 _ => some (true, false)
  | .psMerge11 _ => some (true, true)
  | _ => none

/-! ### Instructions as data -/

/-- The same instruction over another record. -/
def withOperands (i : Instr) (o : Operands) : Instr :=
  match i with
  | .psSum0 _ => .psSum0 o
  | .psSum1 _ => .psSum1 o
  | .psMuls0 _ => .psMuls0 o
  | .psMuls1 _ => .psMuls1 o
  | .psMadds0 _ => .psMadds0 o
  | .psMadds1 _ => .psMadds1 o
  | .psDiv _ => .psDiv o
  | .psSub _ => .psSub o
  | .psAdd _ => .psAdd o
  | .psSel _ => .psSel o
  | .psRes _ => .psRes o
  | .psMul _ => .psMul o
  | .psRsqrte _ => .psRsqrte o
  | .psMsub _ => .psMsub o
  | .psMadd _ => .psMadd o
  | .psNmsub _ => .psNmsub o
  | .psNmadd _ => .psNmadd o
  | .psNeg _ => .psNeg o
  | .psMr _ => .psMr o
  | .psNabs _ => .psNabs o
  | .psAbs _ => .psAbs o
  | .psMerge00 _ => .psMerge00 o
  | .psMerge01 _ => .psMerge01 o
  | .psMerge10 _ => .psMerge10 o
  | .psMerge11 _ => .psMerge11 o

/-- The left fold of the instructions of a program (20_memory.md R56). -/
def leftFold : List Instr → State → Host.Outcome State Fault Refusal
  | [], s => .next s
  | i :: is, s =>
    match exec i s with
    | .next t => leftFold is t
    | .fault r => .fault r
    | .refused r => .refused r

/-! ### Rounding as mathematics (40_fp_value_model.md R92, R93) -/

/-- The real that a magnitude stands for. -/
def IsReal (m : Magnitude) (x : ℝ) : Prop :=
  match m with
  | .quotient num den => x = (num : ℝ) / den
  | .root num den => x = Real.sqrt ((num : ℝ) / den)

/-- A magnitude of a positive real. -/
def Positive (m : Magnitude) : Prop :=
  match m with
  | .quotient num den => 0 < num ∧ 0 < den
  | .root num den => 0 < num ∧ 0 < den

/-- `k · u` is `x` of sign `neg` rounded under `rm` to an integer multiple of `u` (R92). -/
def Rounded (x u : ℝ) (k : ℕ) (rm : RoundMode) (neg : Bool) : Prop :=
  match rm with
  | .rne => |x - k * u| ≤ u / 2 ∧ (|x - k * u| = u / 2 → k % 2 = 0)
  | .rtz => k * u ≤ x ∧ x < (k + 1) * u
  | .rup => if neg then k * u ≤ x ∧ x < (k + 1) * u else x ≤ k * u ∧ k * u < x + u
  | .rdn => if neg then x ≤ k * u ∧ k * u < x + u else k * u ≤ x ∧ x < (k + 1) * u

/-- `y` is the value that the parts denote in a format: a finite number of it, its two fields within their widths
(R80). -/
def Denotes (fmt : FpFormat) (r : FpParts) (y : ℝ) : Prop :=
  (r.exp : ℤ) ≤ 2 * fmt.emax ∧ r.frac < 2 ^ (fmt.p - 1) ∧
  y = if r.exp = 0 then (r.frac : ℝ) * 2 ^ (fmt.emin - fmt.p + 1)
      else ((2 ^ (fmt.p - 1) + r.frac : ℕ) : ℝ) * 2 ^ ((r.exp : ℤ) - fmt.emax - fmt.p + 1)

/-- The result of an overflow (R93): infinity in the modes that round this sign outward, otherwise the largest finite
number. -/
def OverflowResult (fmt : FpFormat) (rm : RoundMode) (neg : Bool) (r : FpParts) : Prop :=
  if rm = .rne ∨ (rm = .rup ∧ neg = false) ∨ (rm = .rdn ∧ neg = true) then
    (r.exp : ℤ) = 2 * fmt.emax + 1 ∧ r.frac = 0
  else (r.exp : ℤ) = 2 * fmt.emax ∧ r.frac = 2 ^ (fmt.p - 1) - 1

/-- R93: the parts `r` and the signals `sig` are `round(fmt, rm, neg, x)` for the positive real `x`. `ru` is `x` rounded
to `p` bits with the exponent unbounded, `rd` is `x` rounded to a multiple of the least subnormal. -/
def RoundsTo (fmt : FpFormat) (tin : Tininess) (rm : RoundMode) (neg : Bool) (x : ℝ) (r : FpParts) (sig : Signals) :
    Prop :=
  ∃ (e : ℤ) (k kd : ℕ) (ru rd : ℝ),
    (2 : ℝ) ^ e ≤ x ∧ x < (2 : ℝ) ^ (e + 1) ∧
    Rounded x ((2 : ℝ) ^ (e - fmt.p + 1)) k rm neg ∧ ru = k * (2 : ℝ) ^ (e - fmt.p + 1) ∧
    Rounded x ((2 : ℝ) ^ (fmt.emin - fmt.p + 1)) kd rm neg ∧ rd = kd * (2 : ℝ) ^ (fmt.emin - fmt.p + 1) ∧
    r.sign = neg ∧ sig.inv = false ∧ sig.dz = false ∧
    (sig.of = true ↔ (2 : ℝ) ^ (fmt.emax + 1) ≤ ru) ∧
    ((2 : ℝ) ^ (fmt.emax + 1) ≤ ru → OverflowResult fmt rm neg r ∧ sig.inx = true ∧ sig.uf = false) ∧
    (ru < (2 : ℝ) ^ (fmt.emax + 1) → x < (2 : ℝ) ^ fmt.emin →
      Denotes fmt r rd ∧ (sig.inx = true ↔ rd ≠ x) ∧
      (sig.uf = true ↔ (tin = .after → ru < (2 : ℝ) ^ fmt.emin) ∧ rd ≠ x)) ∧
    (ru < (2 : ℝ) ^ (fmt.emax + 1) → (2 : ℝ) ^ fmt.emin ≤ x →
      Denotes fmt r ru ∧ (sig.inx = true ↔ ru ≠ x) ∧ sig.uf = false)

/-! ### Patterns as reals (00_scope.md R10, `val`; R80) -/

/-- The binary64 `v` is finite and denotes `x`. -/
def Val64 (v : B64) (x : ℝ) : Prop :=
  isNan64 v = false ∧ isInf64 v = false ∧
  x = (if sign64 v then -1 else 1) *
    (if exp64 v = 0 then ((frac64 v).toNat : ℝ) * 2 ^ (-1074 : ℤ)
     else ((2 ^ 52 + (frac64 v).toNat : ℕ) : ℝ) * 2 ^ (((exp64 v).toNat : ℤ) - 1075))

/-- The binary32 `v` is finite and denotes `x`. -/
def Val32 (v : B32) (x : ℝ) : Prop :=
  isNan32 v = false ∧ isInf32 v = false ∧
  x = (if sign32 v then -1 else 1) *
    (if exp32 v = 0 then ((frac32 v).toNat : ℝ) * 2 ^ (-149 : ℤ)
     else ((2 ^ 23 + (frac32 v).toNat : ℕ) : ℝ) * 2 ^ (((exp32 v).toNat : ℤ) - 150))

/-- The pattern and signals `r` are the non-zero real `x` rounded to binary64 (R93). -/
def RoundsTo64 (tin : Tininess) (rm : RoundMode) (x : ℝ) (r : B64 × Signals) : Prop :=
  ∃ (p : FpParts) (neg : Bool), (neg = true ↔ x < 0) ∧ r.1 = p.to64 ∧ RoundsTo binary64 tin rm neg |x| p r.2

/-- The pattern and signals `r` are the non-zero real `x` rounded to binary32 (R93). -/
def RoundsTo32 (tin : Tininess) (rm : RoundMode) (x : ℝ) (r : B32 × Signals) : Prop :=
  ∃ (p : FpParts) (neg : Bool), (neg = true ↔ x < 0) ∧ r.1 = p.to32 ∧ RoundsTo binary32 tin rm neg |x| p r.2

/-! ### The binary64 operations (40_fp_value_model.md section 6), on operands that are not NaN -/

/-- The zero of sign `s`. -/
def signedZero (s : Bool) : B64 := if s then 0x8000000000000000 else 0x0000000000000000

/-- The infinity of sign `s`. -/
def signedInf (s : Bool) : B64 := if s then 0xFFF0000000000000 else 0x7FF0000000000000

/-- The sign of an exact zero sum: minus only when rounding down. -/
def zeroSumSign (rm : RoundMode) : Bool :=
  match rm with
  | .rdn => true
  | .rne => false
  | .rtz => false
  | .rup => false

/-- What the spec offers for an arm that is not reached. -/
def unreached : B64 × Signals := (0x7FF8000000000000, { Signals.none with inv := true })

/-- R95: `r` is `add64(a, b, rm)`. -/
def AddRule (a b : B64) (rm : RoundMode) (tin : Tininess) (r : B64 × Signals) : Prop :=
  (isInf64 a = true → isInf64 b = true → sign64 a ≠ sign64 b → r = unreached) ∧
  (isInf64 a = true → (isInf64 b = true → sign64 a = sign64 b) → r = (a, .none)) ∧
  (isInf64 a = false → isInf64 b = true → r = (b, .none)) ∧
  (∀ x y, Val64 a x → Val64 b y →
    (x + y ≠ 0 → RoundsTo64 tin rm (x + y) r) ∧
    (x + y = 0 → isZero64 a = true → isZero64 b = true → sign64 a = sign64 b → r = (a, .none)) ∧
    (x + y = 0 → ¬ (isZero64 a = true ∧ isZero64 b = true ∧ sign64 a = sign64 b) →
      r = (signedZero (zeroSumSign rm), .none)))

/-- R96: `r` is `mul64(a, b, rm)`. -/
def MulRule (a b : B64) (rm : RoundMode) (tin : Tininess) (r : B64 × Signals) : Prop :=
  ((isInf64 a = true ∧ isZero64 b = true) ∨ (isZero64 a = true ∧ isInf64 b = true) → r = unreached) ∧
  ((isInf64 a = true ∧ isZero64 b = false) ∨ (isZero64 a = false ∧ isInf64 b = true) →
    r = (signedInf (sign64 a != sign64 b), .none)) ∧
  ((isZero64 a = true ∧ isInf64 b = false) ∨ (isInf64 a = false ∧ isZero64 b = true) →
    r = (signedZero (sign64 a != sign64 b), .none)) ∧
  (∀ x y, Val64 a x → Val64 b y → x * y ≠ 0 → RoundsTo64 tin rm (x * y) r)

/-- R97: `r` is `div64(a, b, rm)`. -/
def DivRule (a b : B64) (rm : RoundMode) (tin : Tininess) (r : B64 × Signals) : Prop :=
  ((isInf64 a = true ∧ isInf64 b = true) ∨ (isZero64 a = true ∧ isZero64 b = true) → r = unreached) ∧
  (isInf64 a = true → isInf64 b = false → r = (signedInf (sign64 a != sign64 b), .none)) ∧
  (isInf64 a = false → isZero64 a = false → isZero64 b = true →
    r = (signedInf (sign64 a != sign64 b), { Signals.none with dz := true })) ∧
  ((isInf64 a = false ∧ isInf64 b = true) ∨ (isZero64 a = true ∧ isZero64 b = false) →
    r = (signedZero (sign64 a != sign64 b), .none)) ∧
  (∀ x y, Val64 a x → Val64 b y → x ≠ 0 → y ≠ 0 → RoundsTo64 tin rm (x / y) r)

/-- R98: `r` is `fma64(a, c, b, rm)`, the product exact and the sum rounded once. -/
def FmaRule (a c b : B64) (rm : RoundMode) (tin : Tininess) (r : B64 × Signals) : Prop :=
  (fmaImz a c = true → r = unreached) ∧
  (fmaImz a c = false → (isInf64 a || isInf64 c) = true →
    (isInf64 b = true → sign64 b ≠ (sign64 a != sign64 c) → r = unreached) ∧
    ((isInf64 b = true → sign64 b = (sign64 a != sign64 c)) → r = (signedInf (sign64 a != sign64 c), .none))) ∧
  ((isInf64 a || isInf64 c) = false → isInf64 b = true → r = (b, .none)) ∧
  (∀ x z y, Val64 a x → Val64 c z → Val64 b y →
    (x * z + y ≠ 0 → RoundsTo64 tin rm (x * z + y) r) ∧
    (x * z + y = 0 → x * z = 0 → isZero64 b = true → (sign64 a != sign64 c) = sign64 b → r = (b, .none)) ∧
    (x * z + y = 0 → ¬ (x * z = 0 ∧ isZero64 b = true ∧ (sign64 a != sign64 c) = sign64 b) →
      r = (signedZero (zeroSumSign rm), .none)))

/-! ### The parameters -/

/-- Two words, each in its layout, hold the same in every field. -/
def SameFields (L : Layout) (w : B32) (L' : Layout) (w' : B32) : Prop :=
  (∀ b : FpscrBit, Fpscr.get w b L = Fpscr.get w' b L') ∧ Fpscr.fprf w L = Fpscr.fprf w' L' ∧
    Fpscr.rn w L = Fpscr.rn w' L'

end Sys2Proof.Said

open Sys2Proof Sys2Proof.Machine

/-! ## Encoding -/

/-- Decoding the word of a well-formed instruction gives that instruction, every field at every value. The numbers are
the spec's, from general knowledge there (log 10). -/
def Obligations.DecodeOfEncodeIsTheInstruction : Prop :=
  ∀ i : Instr, i.wellFormed = true → decode (encode i) = .ok i

/-- A word that decodes is the encoding of what it decodes to, which is well formed: no bit of a word is dropped. -/
def Obligations.EncodeOfDecodeIsTheWord : Prop :=
  ∀ (w : B32) (i : Instr), decode w = .ok i → encode i = w ∧ i.wellFormed = true

/-- R68: a word decodes to the instruction of a row exactly when `w & mask = match`, with the masks and matches written
out in the spec. -/
def Obligations.DecodeFollowsMaskAndMatch : Prop :=
  ∀ row ∈ opcodeTable, ∀ w : B32,
    (∃ o, decode w = .ok (row.make o)) ↔ w &&& row.mask = row.pattern

/-- No word matches two rows of the opcode table (R68; 95_test_vectors.md section 7, item 9). -/
def Obligations.NoWordMatchesTwoRows : Prop :=
  ∀ w : B32, ∀ row ∈ opcodeTable, ∀ row' ∈ opcodeTable,
    w &&& row.mask = row.pattern → w &&& row'.mask = row'.pattern → row.mnemonic = row'.mnemonic

/-- A word that matches no row is refused by the decoder, and by the step that meets it, by name (R62, R69). The numbers
rest on log 10. -/
def Obligations.UnmatchedWordIsRefused : Prop :=
  ∀ (s : State) (w : B32) (rest : List B32), s.program = w :: rest →
    (∀ row ∈ opcodeTable, w &&& row.mask ≠ row.pattern) →
    ∃ why, decode w = .error why ∧ step s = .refused (.undefinedEncoding w why)

/-- An instruction word in memory is `b0 ∥ b1 ∥ b2 ∥ b3`, b0 holding bits 31:24 (R51), and the byte decoder reads that
word and leaves the bytes after it. -/
def Obligations.InstructionWordIsBigEndian : Prop :=
  ∀ (b0 b1 b2 b3 : Byte) (rest : List Byte),
    (wordOfBytes b0 b1 b2 b3).extractLsb' 24 8 = b0 ∧ (wordOfBytes b0 b1 b2 b3).extractLsb' 16 8 = b1 ∧
    (wordOfBytes b0 b1 b2 b3).extractLsb' 8 8 = b2 ∧ (wordOfBytes b0 b1 b2 b3).extractLsb' 0 8 = b3 ∧
    ∀ i, decodeBytes (b0 :: b1 :: b2 :: b3 :: rest) = .ok (i, rest) ↔ decode (wordOfBytes b0 b1 b2 b3) = .ok i

/-- Words of 95_test_vectors.md section 5 decode as it says, a word with a non-zero unused field and words that must not
decode among them. -/
def Obligations.SpecWordsDecode : Prop :=
  decode 0x1061102A = .ok (.psAdd ⟨3, 1, 2, 0, false⟩) ∧
  decode 0x13FEEF3B = .ok (.psMadd ⟨31, 30, 29, 28, true⟩) ∧
  decode 0x13FEECE1 = .ok (.psMerge11 ⟨31, 30, 29, 0, true⟩) ∧
  decode 0x108110D6 = .ok (.psSum1 ⟨4, 1, 2, 3, false⟩) ∧
  decode 0x10201035 = .ok (.psRsqrte ⟨1, 0, 2, 0, true⟩) ∧
  decode 0x10201110 = .ok (.psNabs ⟨1, 0, 2, 0, false⟩) ∧
  decode 0x108110EE = .ok (.psSel ⟨4, 1, 2, 3, false⟩) ∧
  decode 0x106117EA = .ok (.psAdd ⟨3, 1, 2, 31, false⟩) ∧
  decode 0x10000020 = .error .unassignedExtendedOpcode ∧
  decode 0xEC00002A = .error .notPrimaryOpcode4

/-- The fields an instruction does not read make no difference (R70; that such a word is legal is the spec's decision
D23, log 12). -/
def Obligations.UnreadFieldsAreIgnored : Prop :=
  ∀ (o : Operands) (x y : RegIdx) (s : State),
    exec (.psAdd { o with frC := x }) s = exec (.psAdd o) s ∧
    exec (.psSub { o with frC := x }) s = exec (.psSub o) s ∧
    exec (.psDiv { o with frC := x }) s = exec (.psDiv o) s ∧
    exec (.psMul { o with frB := x }) s = exec (.psMul o) s ∧
    exec (.psMuls0 { o with frB := x }) s = exec (.psMuls0 o) s ∧
    exec (.psMuls1 { o with frB := x }) s = exec (.psMuls1 o) s ∧
    exec (.psRes { o with frA := x, frC := y }) s = exec (.psRes o) s ∧
    exec (.psRsqrte { o with frA := x, frC := y }) s = exec (.psRsqrte o) s ∧
    exec (.psMr { o with frA := x, frC := y }) s = exec (.psMr o) s ∧
    exec (.psNeg { o with frA := x, frC := y }) s = exec (.psNeg o) s ∧
    exec (.psAbs { o with frA := x, frC := y }) s = exec (.psAbs o) s ∧
    exec (.psNabs { o with frA := x, frC := y }) s = exec (.psNabs o) s ∧
    exec (.psMerge00 { o with frC := x }) s = exec (.psMerge00 o) s ∧
    exec (.psMerge01 { o with frC := x }) s = exec (.psMerge01 o) s ∧
    exec (.psMerge10 { o with frC := x }) s = exec (.psMerge10 o) s ∧
    exec (.psMerge11 { o with frC := x }) s = exec (.psMerge11 o) s

/-! ## The step -/

/-- A step of a state whose next word decodes to `i` is `exec i` of the state without that word. -/
def Obligations.StepRunsTheDecodedInstruction : Prop :=
  ∀ (s : State) (w : B32) (rest : List B32) (i : Instr), s.program = w :: rest → decode w = .ok i →
    step s = exec i { s with program := rest }

/-- With no word handed over a step holds the whole state. The model's reading of R235, log 2. -/
def Obligations.IdleStepHoldsTheState : Prop :=
  ∀ s : State, s.program = [] → step s = .next s

/-- Every record of every instruction has an effect, in every state (R60): exec answers a next state, and leaves the
dispatcher's list alone. The same at every choice of the parameters (00_scope.md R8), and exec, step and the reset state
are the machine at the spec's choice of them (log 44). -/
def Obligations.EveryRecordExecutes : Prop :=
  (∀ (i : Instr) (s : State), ∃ t, exec i s = .next t ∧ t.program = s.program) ∧
  (∀ (P : Params) (i : Instr) (s : State), ∃ t, execWith P i s = .next t ∧ t.program = s.program ∧
    Said.OthersKept s t i.operands.frD) ∧
  (∀ (i : Instr) (s : State), exec i s = execWith .spec i s) ∧ (∀ s : State, step s = stepWith .spec s) ∧
  State.reset = State.resetWith .spec

/-- A program whose words decode runs, step by step, to the left fold of its instructions (R56), with no word left. That
the program is the list State.program, which a step takes a word from, is log 1. -/
def Obligations.ProgramRunIsTheLeftFold : Prop :=
  ∀ (s : State) (is : List Instr), s.program.map decode = is.map .ok →
    Host.Core.run Sys2Proof.core s.program.length s = Said.leftFold is { s with program := [] }

/-- A step of a state whose words all decode is not refused, takes exactly the first word, and leaves words that all
decode (the dispatcher's duty, R242 item 3). -/
def Obligations.DecodingProgramStepsOn : Prop :=
  ∀ s : State, ProgramDecodes s → ∃ t, step s = .next t ∧ t.program = s.program.tail ∧ ProgramDecodes t

/-! ## Reset and the lane-0 invariant -/

/-- R26: after reset every bit of every lane of every register is zero. -/
def Obligations.ResetZeroesTheRegisterFile : Prop :=
  ∀ i : RegIdx, State.reset.ps0 i = 0x0000000000000000 ∧ State.reset.ps1 i = 0x00000000

/-- The lane-0 invariant holds at reset. -/
def Obligations.ResetMeetsTheLaneInvariant : Prop := Lane0Inv State.reset

/-- R24: the 25 instructions preserve the lane-0 invariant, from every state that meets it. -/
def Obligations.StepKeepsTheLaneInvariant : Prop :=
  ∀ s t : State, Lane0Inv s → step s = .next t → Lane0Inv t

/-- Steps and lawful actions of the environment, in any order, keep the lane-0 invariant (R24, R58). That the environment
respects it is the spec's assumption D32, log 36. -/
def Obligations.EventsKeepTheLaneInvariant : Prop :=
  ∀ (es : List Event) (s t : State), LawfulEvents es → Lane0Inv s → runEvents es s = .next t → Lane0Inv t

/-- While the lane-0 invariant holds, no lane 0 is in the range where `trunc_bits` is the free value (R90, U1, log 7). -/
def Obligations.LaneInvariantExcludesTheFreeValue : Prop :=
  ∀ s : State, Lane0Inv s → ∀ i : RegIdx, ¬ (1151 ≤ (exp64 (s.ps0 i)).toNat ∧ (exp64 (s.ps0 i)).toNat ≤ 2046)

/-- Whatever the sources held, an instruction other than ps_sel leaves the destination's lane 0 as it was or makes it an
extension (95_test_vectors.md section 7, item 6). -/
def Obligations.WrittenLaneZeroIsExtended : Prop :=
  ∀ (i : Instr) (s t : State), (∀ o, i ≠ .psSel o) → exec i s = .next t →
    t.ps0 i.operands.frD = s.ps0 i.operands.frD ∨ IsExtended (t.ps0 i.operands.frD)

/-! ## The FPSCR over one instruction -/

/-- R28: an exception bit that is set stays set over a step. VXVC, VXSOFT and VXCVI are never written (R29, with the spec's
decision D13, log 29). -/
def Obligations.ExceptionBitsAreSticky : Prop :=
  ∀ s t : State, step s = .next t →
    (∀ b ∈ [FpscrBit.VXSNAN, .VXISI, .VXIMZ, .VXIDI, .VXZDZ, .VXSQRT, .ZX, .OX, .UX, .XX],
      Fpscr.get s.fpscr b = true → Fpscr.get t.fpscr b = true) ∧
    (∀ b ∈ [FpscrBit.VXVC, .VXSOFT, .VXCVI], Said.BitKept s t b)

/-- No instruction writes the enables, RN, NI, FR, FI or the reserved bit (R30, R31; R34 is the spec's decision D13, log
29): the frame of all 25 on the status word's control and unused fields. -/
def Obligations.ControlFieldsAreNeverWritten : Prop :=
  ∀ (i : Instr) (s t : State), exec i s = .next t →
    (∀ b ∈ [FpscrBit.VE, .OE, .UE, .ZE, .XE, .NI, .FR, .FI, .reserved], Said.BitKept s t b) ∧
    t.fpscr.extractLsb' 0 2 = s.fpscr.extractLsb' 0 2

/-- R198, R199: after an instruction that runs the update engine VX is the or of the nine invalid sub-flags and FEX is
its formula, over the word the instruction leaves, whatever they were before. Which families run the engine is R196, for
the estimates by the spec's decision D16 (log 25) and for the fused family by D30 (log 38). -/
def Obligations.SummaryBitsAreRecomputed : Prop :=
  ∀ (i : Instr) (s t : State), i.runsEngine = true → exec i s = .next t →
    Fpscr.get t.fpscr .VX =
      (Fpscr.get t.fpscr .VXSNAN || Fpscr.get t.fpscr .VXISI || Fpscr.get t.fpscr .VXIDI ||
        Fpscr.get t.fpscr .VXZDZ || Fpscr.get t.fpscr .VXIMZ || Fpscr.get t.fpscr .VXVC ||
        Fpscr.get t.fpscr .VXSOFT || Fpscr.get t.fpscr .VXSQRT || Fpscr.get t.fpscr .VXCVI) ∧
    Fpscr.get t.fpscr .FEX =
      ((Fpscr.get t.fpscr .VX && Fpscr.get t.fpscr .VE) || (Fpscr.get t.fpscr .OX && Fpscr.get t.fpscr .OE) ||
        (Fpscr.get t.fpscr .UX && Fpscr.get t.fpscr .UE) || (Fpscr.get t.fpscr .ZX && Fpscr.get t.fpscr .ZE) ||
        (Fpscr.get t.fpscr .XX && Fpscr.get t.fpscr .XE))

/-- R200: after an instruction that runs the engine FX is what it was, or-ed with "some exception bit is 1 now and was 0
before". FX sticky and the choice of the thirteen bits are the spec's decisions D9 and D10, log 22. -/
def Obligations.FxRecordsANewException : Prop :=
  ∀ (i : Instr) (s t : State), i.runsEngine = true → exec i s = .next t →
    (Fpscr.get t.fpscr .FX = true ↔
      Fpscr.get s.fpscr .FX = true ∨
      ∃ b ∈ [FpscrBit.OX, .UX, .ZX, .XX, .VXSNAN, .VXISI, .VXIDI, .VXZDZ, .VXIMZ, .VXVC, .VXSOFT, .VXSQRT, .VXCVI],
        Fpscr.get t.fpscr b = true ∧ Fpscr.get s.fpscr b = false)

/-- The move, merge and select families leave the whole FPSCR unchanged, FPRF included (R32, R33, R196). -/
def Obligations.MoveMergeSelectLeaveTheFpscr : Prop :=
  ∀ (i : Instr) (s t : State), i.runsEngine = false → exec i s = .next t → t.fpscr = s.fpscr

/-- R205, for all 25 instructions: with rc = 1 CR1 is FX, FEX, VX, OX of the FPSCR that the instruction leaves, the first
the most significant; with rc = 0 CR1 is as before. FX as the fourth bit is the spec's decision D11, log 16. -/
def Obligations.RecordBitMirrorsTheSummary : Prop :=
  ∀ (i : Instr) (s t : State), exec i s = .next t →
    (i.operands.rc = false → t.cr1 = s.cr1) ∧
    (i.operands.rc = true →
      t.cr1.getLsbD 3 = Fpscr.get t.fpscr .FX ∧ t.cr1.getLsbD 2 = Fpscr.get t.fpscr .FEX ∧
      t.cr1.getLsbD 1 = Fpscr.get t.fpscr .VX ∧ t.cr1.getLsbD 0 = Fpscr.get t.fpscr .OX)

/-- The record bit affects CR1 only: the FPR file and the FPSCR after an instruction do not depend on rc. -/
def Obligations.RecordBitAffectsOnlyCr1 : Prop :=
  ∀ (i : Instr) (s : State) (rc : Bool), ∃ t u,
    exec i s = .next t ∧ exec (Said.withOperands i { i.operands with rc := rc }) s = .next u ∧
    u.fpr = t.fpr ∧ u.fpscr = t.fpscr ∧ u.program = t.program

/-- The frame of every instruction on the register file: no register but frD changes (R25), and the dispatcher's list
does not. -/
def Obligations.OnlyTheDestinationChanges : Prop :=
  ∀ (i : Instr) (s t : State), exec i s = .next t →
    Said.OthersKept s t i.operands.frD ∧ t.program = s.program

/-- What the register file depends on, over all 25 instructions: VE, ZE and RN are the only parts of the FPSCR that reach
a register (R124, R222). So the sticky bits, the summary bits, FPRF and OE, UE, XE (the spec's decision D26, log 35) do
not. -/
def Obligations.RegistersDependOnlyOnVeZeRn : Prop :=
  ∀ (i : Instr) (s s' : State), s.fpr = s'.fpr → Said.ve s = Said.ve s' → Said.ze s = Said.ze s' → s.rm = s'.rm →
    ∃ t t', exec i s = .next t ∧ exec i s' = .next t' ∧ t.fpr = t'.fpr

/-- An instruction never leaves one of the two binary64 denormal classes in FPRF that it did not find there (R102, U6). -/
def Obligations.DenormalClassIsNeverReported : Prop :=
  ∀ (i : Instr) (s t : State), exec i s = .next t →
    Fpscr.fprf t.fpscr = Fpscr.fprf s.fpscr ∨
    (Fpscr.fprf t.fpscr ≠ 0x14 ∧ Fpscr.fprf t.fpscr ≠ 0x18)

/-! ## The arithmetic family: ps_add, ps_sub, ps_mul, ps_div, ps_muls0, ps_muls1 -/

/-- R121: the instruction completes, and each invalid sub-flag and ZX afterwards is what it was or-ed with what either
slot raises, whether or not the write is gated; the flags the family does not raise are as before. -/
def Obligations.ArithmeticRaisesItsFlags : Prop :=
  ∀ (i : Instr) (s : State) (c : Said.TwoSlots), Said.arith i s = some c → ∃ t, exec i s = .next t ∧
    Said.Ored s t .VXSNAN (Said.snan c.a0 c.b0 || Said.snan c.a1 c.b1) ∧
    Said.Ored s t .VXISI (Said.infMinusInf c.op c.a0 c.b0 || Said.infMinusInf c.op c.a1 c.b1) ∧
    Said.Ored s t .VXIMZ (Said.infTimesZero c.op c.a0 c.b0 || Said.infTimesZero c.op c.a1 c.b1) ∧
    Said.Ored s t .VXIDI (Said.infOverInf c.op c.a0 c.b0 || Said.infOverInf c.op c.a1 c.b1) ∧
    Said.Ored s t .VXZDZ (Said.zeroOverZero c.op c.a0 c.b0 || Said.zeroOverZero c.op c.a1 c.b1) ∧
    Said.Ored s t .ZX (Said.zeroDivide c.op c.a0 c.b0 || Said.zeroDivide c.op c.a1 c.b1) ∧
    Said.BitKept s t .VXSQRT

/-- R120, R122, R123, R125: the instruction completes. A gate in either slot keeps every register; with no gate both lanes
of frD hold the results, by the priority of R123, and no other register changes. The gate has the literal zx (D19, log
27), a NaN result is truncated by bits (log 19) and a computed one is rounded twice (log 31). What the operation computes
is Binary64OperationsFollowTheirRules, what the narrowing computes RoundF32FollowsItsRule. -/
def Obligations.ArithmeticWritesBothLanesOrNeither : Prop :=
  ∀ (i : Instr) (s : State) (c : Said.TwoSlots), Said.arith i s = some c → ∃ t, exec i s = .next t ∧
    ((Said.shut s c.op c.a0 c.b0 || Said.shut s c.op c.a1 c.b1) = true → Said.RegsKept s t) ∧
    ((Said.shut s c.op c.a0 c.b0 || Said.shut s c.op c.a1 c.b1) = false → ∃ d0 d1,
      Said.LaneValue c.op c.a0 c.b0 s.rm d0 ∧ Said.LaneValue c.op c.a1 c.b1 s.rm d1 ∧
      t.reg i.operands.frD = { ps0 := extendFloat d0, ps1 := d1 } ∧ Said.OthersKept s t i.operands.frD)

/-- R203 for the family: FPRF is the class of slot 0's result when slot 0 is not gated, even if slot 1 is; otherwise it
is as before. The codes are the spec's, from general knowledge there (log 9); that a gate in slot 1 leaves the update of
FPRF in place is part of R124, with its decision D14 (log 23). -/
def Obligations.ArithmeticFprfFollowsSlotZero : Prop :=
  ∀ (i : Instr) (s : State) (c : Said.TwoSlots), Said.arith i s = some c → ∃ t, exec i s = .next t ∧
    (Said.shut s c.op c.a0 c.b0 = true → Fpscr.fprf t.fpscr = Fpscr.fprf s.fpscr) ∧
    (Said.shut s c.op c.a0 c.b0 = false → ∀ d, Said.LaneValue c.op c.a0 c.b0 s.rm d →
      Fpscr.fprf t.fpscr = Said.fprfOf d)

/-- R197 for the family: OX, UX and XX afterwards are what they were or-ed with the signals of both roundings of each
slot that computed; a gated slot, a NaN result and the constant contribute none. -/
def Obligations.ArithmeticAccumulatesSignals : Prop :=
  ∀ (i : Instr) (s : State) (c : Said.TwoSlots), Said.arith i s = some c → ∃ t, exec i s = .next t ∧
    Said.Ored s t .OX ((Said.laneSignals s c.op c.a0 c.b0).of || (Said.laneSignals s c.op c.a1 c.b1).of) ∧
    Said.Ored s t .UX ((Said.laneSignals s c.op c.a0 c.b0).uf || (Said.laneSignals s c.op c.a1 c.b1).uf) ∧
    Said.Ored s t .XX ((Said.laneSignals s c.op c.a0 c.b0).inx || (Said.laneSignals s c.op c.a1 c.b1).inx)

/-! ## The sum family: ps_sum0, ps_sum1 -/

/-- R140, R141, R143: ps_sum0 completes. With the sum gated no register and no FPRF changes; otherwise lane 0 is the sum of
A's lane 0 and B's lane 1 and lane 1 the raw bits of C's lane 1. Flags and signals are the sum's; the flags the family
does not raise are as before. FPRF is the sum's class (R142, the spec's decision D15, log 24). -/
def Obligations.Sum0AddsAcrossLanes : Prop :=
  ∀ (o : Operands) (s : State), ∃ t, exec (.psSum0 o) s = .next t ∧
    (Said.shut s .add (s.opnd0 o.frA) (s.opnd1 o.frB) = true →
      Said.RegsKept s t ∧ Fpscr.fprf t.fpscr = Fpscr.fprf s.fpscr) ∧
    (Said.shut s .add (s.opnd0 o.frA) (s.opnd1 o.frB) = false → ∃ d,
      Said.LaneValue .add (s.opnd0 o.frA) (s.opnd1 o.frB) s.rm d ∧
      t.reg o.frD = { ps0 := extendFloat d, ps1 := s.ps1 o.frC } ∧ Said.OthersKept s t o.frD ∧
      Fpscr.fprf t.fpscr = Said.fprfOf d) ∧
    Said.Ored s t .VXSNAN (Said.snan (s.opnd0 o.frA) (s.opnd1 o.frB)) ∧
    Said.Ored s t .VXISI (Said.infMinusInf .add (s.opnd0 o.frA) (s.opnd1 o.frB)) ∧
    Said.Ored s t .OX (Said.laneSignals s .add (s.opnd0 o.frA) (s.opnd1 o.frB)).of ∧
    Said.Ored s t .UX (Said.laneSignals s .add (s.opnd0 o.frA) (s.opnd1 o.frB)).uf ∧
    Said.Ored s t .XX (Said.laneSignals s .add (s.opnd0 o.frA) (s.opnd1 o.frB)).inx ∧
    (∀ b ∈ [FpscrBit.VXIMZ, .VXIDI, .VXZDZ, .VXSQRT, .ZX], Said.BitKept s t b)

/-- R144: ps_sum1 completes. With the sum gated no register and no FPRF changes; otherwise lane 1 is the sum and lane 0
is C's lane 0, a NaN by bit truncation and anything else rounded. XX and OX come from the sum alone (R145); UX also from
the side conversion, when it takes place (the spec's decision D27, log 30). FPRF is the sum's class (D15, log 24). -/
def Obligations.Sum1HidesTheSideConversion : Prop :=
  ∀ (o : Operands) (s : State), ∃ t, exec (.psSum1 o) s = .next t ∧
    (Said.shut s .add (s.opnd0 o.frA) (s.opnd1 o.frB) = true →
      Said.RegsKept s t ∧ Fpscr.fprf t.fpscr = Fpscr.fprf s.fpscr) ∧
    (Said.shut s .add (s.opnd0 o.frA) (s.opnd1 o.frB) = false → ∃ d,
      Said.LaneValue .add (s.opnd0 o.frA) (s.opnd1 o.frB) s.rm d ∧
      t.reg o.frD =
        { ps0 := extendFloat (if isNan64 (s.ps0 o.frC) then truncBits (s.ps0 o.frC)
            else (roundF32 (s.ps0 o.frC) s.rm).1), ps1 := d } ∧
      Said.OthersKept s t o.frD ∧ Fpscr.fprf t.fpscr = Said.fprfOf d) ∧
    Said.Ored s t .VXSNAN (Said.snan (s.opnd0 o.frA) (s.opnd1 o.frB)) ∧
    Said.Ored s t .VXISI (Said.infMinusInf .add (s.opnd0 o.frA) (s.opnd1 o.frB)) ∧
    Said.Ored s t .OX (Said.laneSignals s .add (s.opnd0 o.frA) (s.opnd1 o.frB)).of ∧
    Said.Ored s t .UX ((Said.laneSignals s .add (s.opnd0 o.frA) (s.opnd1 o.frB)).uf ||
      (!Said.shut s .add (s.opnd0 o.frA) (s.opnd1 o.frB) && !isNan64 (s.ps0 o.frC) &&
        (roundF32 (s.ps0 o.frC) s.rm).2.uf)) ∧
    Said.Ored s t .XX (Said.laneSignals s .add (s.opnd0 o.frA) (s.opnd1 o.frB)).inx ∧
    (∀ b ∈ [FpscrBit.VXIMZ, .VXIDI, .VXZDZ, .VXSQRT, .ZX], Said.BitKept s t b)

/-! ## The fused multiply-add family: ps_madd, ps_madds0, ps_madds1, ps_msub, ps_nmadd, ps_nmsub -/

/-- R151: the instruction completes, VXSNAN, VXISI and VXIMZ afterwards are what they were or-ed with what either slot
raises, and the flags the family does not raise are as before. Which mnemonic has which flags is R150 (log 32). -/
def Obligations.FusedMultiplyAddRaisesItsFlags : Prop :=
  ∀ (i : Instr) (s : State) (c : Said.FmaSlots), Said.fma i s = some c → ∃ t, exec i s = .next t ∧
    Said.Ored s t .VXSNAN (Said.fmaSnan c.a0 c.b0 c.c0 || Said.fmaSnan c.a1 c.b1 c.c1) ∧
    Said.Ored s t .VXISI (Said.fmaIsi c.subtract c.a0 c.b0 c.c0 || Said.fmaIsi c.subtract c.a1 c.b1 c.c1) ∧
    Said.Ored s t .VXIMZ (Said.fmaImz c.a0 c.c0 || Said.fmaImz c.a1 c.c1) ∧
    (∀ b ∈ [FpscrBit.VXIDI, .VXZDZ, .VXSQRT, .ZX], Said.BitKept s t b)

/-- R152, R153: the instruction completes. A gate in either slot keeps every register; with no gate both lanes of frD hold
the results, NaN priority A, B, C, and no other register changes. That Negate leaves NaN results alone is the spec's
decision D18 (log 26); the assignment of the flags is R150 (log 32). -/
def Obligations.FusedMultiplyAddWritesBothLanesOrNeither : Prop :=
  ∀ (i : Instr) (s : State) (c : Said.FmaSlots), Said.fma i s = some c → ∃ t, exec i s = .next t ∧
    ((Said.fmaShut s c.subtract c.a0 c.b0 c.c0 || Said.fmaShut s c.subtract c.a1 c.b1 c.c1) = true →
      Said.RegsKept s t) ∧
    ((Said.fmaShut s c.subtract c.a0 c.b0 c.c0 || Said.fmaShut s c.subtract c.a1 c.b1 c.c1) = false → ∃ d0 d1,
      Said.FmaValue c.subtract c.negate c.a0 c.b0 c.c0 s.rm d0 ∧
      Said.FmaValue c.subtract c.negate c.a1 c.b1 c.c1 s.rm d1 ∧
      t.reg i.operands.frD = { ps0 := extendFloat d0, ps1 := d1 } ∧ Said.OthersKept s t i.operands.frD)

/-- FPRF, OX, UX and XX of the family (R155, R197, R203; D30, log 38): FPRF follows slot 0, the signals of each slot that
computed are or-ed in. -/
def Obligations.FusedMultiplyAddReportsItsResult : Prop :=
  ∀ (i : Instr) (s : State) (c : Said.FmaSlots), Said.fma i s = some c → ∃ t, exec i s = .next t ∧
    (Said.fmaShut s c.subtract c.a0 c.b0 c.c0 = true → Fpscr.fprf t.fpscr = Fpscr.fprf s.fpscr) ∧
    (Said.fmaShut s c.subtract c.a0 c.b0 c.c0 = false → ∀ d,
      Said.FmaValue c.subtract c.negate c.a0 c.b0 c.c0 s.rm d → Fpscr.fprf t.fpscr = Said.fprfOf d) ∧
    Said.Ored s t .OX ((Said.fmaSignals s c.subtract c.a0 c.b0 c.c0).of ||
      (Said.fmaSignals s c.subtract c.a1 c.b1 c.c1).of) ∧
    Said.Ored s t .UX ((Said.fmaSignals s c.subtract c.a0 c.b0 c.c0).uf ||
      (Said.fmaSignals s c.subtract c.a1 c.b1 c.c1).uf) ∧
    Said.Ored s t .XX ((Said.fmaSignals s c.subtract c.a0 c.b0 c.c0).inx ||
      (Said.fmaSignals s c.subtract c.a1 c.b1 c.c1).inx)

/-! ## The estimate family: ps_res, ps_rsqrte -/

/-- R177, R178: ps_res completes: flags, gate, lanes, FPRF, signals; ZX is also set by the dz signal. The estimate itself is
the reference instantiation (R175, log 8): on a finite non-zero operand it is 1 over its value, rounded to binary32
(R99). -/
def Obligations.ResFollowsItsSlots : Prop :=
  (∀ (x : B32) (rm : RoundMode) (y : ℝ), Said.Val32 x y → y ≠ 0 →
    Said.RoundsTo32 Config.tininess rm (1 / y) (recipEst x rm)) ∧
  ∀ (o : Operands) (s : State), ∃ t, exec (.psRes o) s = .next t ∧
    ((Said.resShut s (s.opnd0 o.frB) || Said.resShut s (s.opnd1 o.frB)) = true → Said.RegsKept s t) ∧
    ((Said.resShut s (s.opnd0 o.frB) || Said.resShut s (s.opnd1 o.frB)) = false → ∃ d0 d1,
      Said.ResValue (s.opnd0 o.frB) s.rm d0 ∧ Said.ResValue (s.opnd1 o.frB) s.rm d1 ∧
      t.reg o.frD = { ps0 := extendFloat d0, ps1 := d1 } ∧ Said.OthersKept s t o.frD) ∧
    (Said.resShut s (s.opnd0 o.frB) = true → Fpscr.fprf t.fpscr = Fpscr.fprf s.fpscr) ∧
    (Said.resShut s (s.opnd0 o.frB) = false → ∀ d, Said.ResValue (s.opnd0 o.frB) s.rm d →
      Fpscr.fprf t.fpscr = Said.fprfOf d) ∧
    Said.Ored s t .VXSNAN (isSnan64 (s.opnd0 o.frB) || isSnan64 (s.opnd1 o.frB)) ∧
    Said.Ored s t .ZX (isZero64 (s.opnd0 o.frB) || isZero64 (s.opnd1 o.frB) ||
      (Said.resSignals s (s.opnd0 o.frB)).dz || (Said.resSignals s (s.opnd1 o.frB)).dz) ∧
    Said.Ored s t .OX ((Said.resSignals s (s.opnd0 o.frB)).of || (Said.resSignals s (s.opnd1 o.frB)).of) ∧
    Said.Ored s t .UX ((Said.resSignals s (s.opnd0 o.frB)).uf || (Said.resSignals s (s.opnd1 o.frB)).uf) ∧
    Said.Ored s t .XX ((Said.resSignals s (s.opnd0 o.frB)).inx || (Said.resSignals s (s.opnd1 o.frB)).inx) ∧
    (∀ b ∈ [FpscrBit.VXISI, .VXIMZ, .VXIDI, .VXZDZ, .VXSQRT], Said.BitKept s t b)

/-- R178, R180: ps_rsqrte completes: flags, gate, lanes, FPRF, signals. That VXSQRT takes part in the gate is the spec's
decision D35 (log 37). The estimate itself is the reference instantiation (R175, log 8): on a positive finite operand the
square root is rounded to binary32 (R100), then 1 over that (R99), and the signals are those of both. -/
def Obligations.RsqrteFollowsItsSlots : Prop :=
  (∀ (x : B32) (rm : RoundMode) (y : ℝ), Said.Val32 x y → 0 < y →
    ∃ (r : B32) (sa sb : Signals) (z : ℝ),
      Said.RoundsTo32 Config.tininess rm (Real.sqrt y) (r, sa) ∧ Said.Val32 r z ∧ z ≠ 0 ∧
      Said.RoundsTo32 Config.tininess rm (1 / z) ((rsqrtEst x rm).1, sb) ∧ (rsqrtEst x rm).2 = sa.union sb) ∧
  ∀ (o : Operands) (s : State), ∃ t, exec (.psRsqrte o) s = .next t ∧
    ((Said.rsqrtShut s (s.opnd0 o.frB) || Said.rsqrtShut s (s.opnd1 o.frB)) = true → Said.RegsKept s t) ∧
    ((Said.rsqrtShut s (s.opnd0 o.frB) || Said.rsqrtShut s (s.opnd1 o.frB)) = false → ∃ d0 d1,
      Said.RsqrtValue (s.opnd0 o.frB) s.rm d0 ∧ Said.RsqrtValue (s.opnd1 o.frB) s.rm d1 ∧
      t.reg o.frD = { ps0 := extendFloat d0, ps1 := d1 } ∧ Said.OthersKept s t o.frD) ∧
    (Said.rsqrtShut s (s.opnd0 o.frB) = true → Fpscr.fprf t.fpscr = Fpscr.fprf s.fpscr) ∧
    (Said.rsqrtShut s (s.opnd0 o.frB) = false → ∀ d, Said.RsqrtValue (s.opnd0 o.frB) s.rm d →
      Fpscr.fprf t.fpscr = Said.fprfOf d) ∧
    Said.Ored s t .VXSNAN (isSnan64 (s.opnd0 o.frB) || isSnan64 (s.opnd1 o.frB)) ∧
    Said.Ored s t .VXSQRT (Said.rsqrtInvalid (s.opnd0 o.frB) || Said.rsqrtInvalid (s.opnd1 o.frB)) ∧
    Said.Ored s t .ZX (isZero64 (s.opnd0 o.frB) || isZero64 (s.opnd1 o.frB) ||
      (Said.rsqrtSignals s (s.opnd0 o.frB)).dz || (Said.rsqrtSignals s (s.opnd1 o.frB)).dz) ∧
    Said.Ored s t .OX ((Said.rsqrtSignals s (s.opnd0 o.frB)).of || (Said.rsqrtSignals s (s.opnd1 o.frB)).of) ∧
    Said.Ored s t .UX ((Said.rsqrtSignals s (s.opnd0 o.frB)).uf || (Said.rsqrtSignals s (s.opnd1 o.frB)).uf) ∧
    Said.Ored s t .XX ((Said.rsqrtSignals s (s.opnd0 o.frB)).inx || (Said.rsqrtSignals s (s.opnd1 o.frB)).inx) ∧
    (∀ b ∈ [FpscrBit.VXISI, .VXIMZ, .VXIDI, .VXZDZ], Said.BitKept s t b)

/-- R176: the reference estimates have the fixed values on zeros and infinities, under every rounding mode. -/
def Obligations.EstimatesHaveTheFixedValues : Prop :=
  ∀ rm : RoundMode,
    recipEst 0x00000000 rm = (0x7F800000, { Signals.none with dz := true }) ∧
    recipEst 0x80000000 rm = (0xFF800000, { Signals.none with dz := true }) ∧
    recipEst 0x7F800000 rm = (0x00000000, .none) ∧
    recipEst 0xFF800000 rm = (0x80000000, .none) ∧
    rsqrtEst 0x00000000 rm = (0x7F800000, { Signals.none with dz := true }) ∧
    rsqrtEst 0x80000000 rm = (0xFF800000, { Signals.none with dz := true }) ∧
    rsqrtEst 0x7F800000 rm = (0x00000000, .none)

/-- What an instantiation of the estimates can decide (R176, U2): two lawful choices of the parameters that differ in the
estimates only give the same whole state after ps_res and after ps_rsqrte whenever each lane of the operand is a NaN, a
zero or an infinity. So every effect on those operands holds of every instantiation, not of the reference one only. -/
def Obligations.EstimateIsOpenOnlyOnFiniteNonzero : Prop :=
  ∀ (P : Params) (est est' : Estimator),
    P.Lawful → { P with recipEst := est, rsqrtEst := est' }.Lawful →
    ∀ (o : Operands) (s : State),
      (isNan64 (s.ps0 o.frB) || isZero64 (s.ps0 o.frB) || isInf64 (s.ps0 o.frB)) = true →
      (isNan32 (s.ps1 o.frB) || isZero32 (s.ps1 o.frB) || isInf32 (s.ps1 o.frB)) = true →
      execWith { P with recipEst := est, rsqrtEst := est' } (.psRes o) s = execWith P (.psRes o) s ∧
      execWith { P with recipEst := est, rsqrtEst := est' } (.psRsqrte o) s = execWith P (.psRsqrte o) s

/-! ## The move, merge and select families -/

/-- R110, R111, R112: the four moves complete: the sign operation on lane 1 as it is and on lane 0 narrowed, a signalling
NaN by its bits; no other register changes. That no FPSCR bit changes, under an inexact conversion too, is R118 with the
spec's decision D21 (log 34). -/
def Obligations.MoveTransformsTheSignOfBothLanes : Prop :=
  ∀ (i : Instr) (s : State) (sop : B32 → B32), Said.moveOp i = some sop → ∃ t, exec i s = .next t ∧
    (isSnan64 (s.ps0 i.operands.frB) = true →
      t.ps0 i.operands.frD = extendFloatNanBits (sop (truncBits (s.ps0 i.operands.frB)))) ∧
    (isSnan64 (s.ps0 i.operands.frB) = false →
      t.ps0 i.operands.frD = extendFloat (sop (roundF32 (s.ps0 i.operands.frB) s.rm).1)) ∧
    t.ps1 i.operands.frD = sop (s.ps1 i.operands.frB) ∧
    Said.OthersKept s t i.operands.frD ∧ t.fpscr = s.fpscr

/-- R118: the four moves write no FPSCR bit and read none but RN, and RN only when lane 0 is not a signalling NaN: from
states that agree on the registers and, unless lane 0 is a signalling NaN, on the rounding mode, the registers end the
same. -/
def Obligations.MoveReadsOnlyTheRoundingMode : Prop :=
  ∀ (i : Instr) (s s' : State), (Said.moveOp i).isSome = true → s.fpr = s'.fpr →
    (isSnan64 (s.ps0 i.operands.frB) = false → s.rm = s'.rm) →
    ∃ t t', exec i s = .next t ∧ exec i s' = .next t' ∧ t.fpr = t'.fpr ∧ t.fpscr = s.fpscr ∧ t'.fpscr = s'.fpscr

/-- On a lane 0 that is the extension of a binary32, NaNs of both kinds included, a move is the sign operation on that
binary32, under every rounding mode (R111: that binary32 exactly). -/
def Obligations.MoveIsExactOnExtendedLanes : Prop :=
  ∀ (i : Instr) (s : State) (sop : B32 → B32) (x : B32), Said.moveOp i = some sop →
    s.ps0 i.operands.frB = extendFloat x → ∃ t, exec i s = .next t ∧
      t.reg i.operands.frD = { ps0 := extendFloat (sop x), ps1 := sop (s.ps1 i.operands.frB) }

/-- R117: on a signalling NaN whose low 29 fraction bits are zero a move changes at most the sign bit of lane 0. -/
def Obligations.MoveKeepsSignallingPayload : Prop :=
  ∀ (i : Instr) (s : State) (sop : B32 → B32), Said.moveOp i = some sop →
    isSnan64 (s.ps0 i.operands.frB) = true → (s.ps0 i.operands.frB).extractLsb' 0 29 = 0 →
    ∃ t, exec i s = .next t ∧
      (t.ps0 i.operands.frD ^^^ s.ps0 i.operands.frB = 0 ∨
        t.ps0 i.operands.frD ^^^ s.ps0 i.operands.frB = 0x8000000000000000)

/-- R166, R167, R168: the four merges complete: lane 0 from A, converted when it is A's lane 0; lane 1 from B, bit-truncated
when it is B's lane 0; no FPSCR bit and no other register changes. The digit-to-lane reading is R165 (D28, log 33). -/
def Obligations.MergeSelectsAndTruncates : Prop :=
  ∀ (i : Instr) (s : State) (mv0 mv1 : Bool), Said.mergeFlags i = some (mv0, mv1) → ∃ t, exec i s = .next t ∧
    t.ps0 i.operands.frD = extendFloat
      (if mv0 then s.ps1 i.operands.frA
       else if isSnan64 (s.ps0 i.operands.frA) then truncBits (s.ps0 i.operands.frA)
       else (roundF32 (s.ps0 i.operands.frA) s.rm).1) ∧
    t.ps1 i.operands.frD = (if mv1 then s.ps1 i.operands.frB else truncBits (s.ps0 i.operands.frB)) ∧
    Said.OthersKept s t i.operands.frD ∧ t.fpscr = s.fpscr

/-- Where the lanes 0 that it reads are extensions of binary32 values a merge is a pure choice of lanes, NaNs and
subnormals included. -/
def Obligations.MergeIsExactOnExtendedLanes : Prop :=
  ∀ (i : Instr) (s : State) (mv0 mv1 : Bool) (a b : B32), Said.mergeFlags i = some (mv0, mv1) →
    (mv0 = false → s.ps0 i.operands.frA = extendFloat a) → (mv1 = false → s.ps0 i.operands.frB = extendFloat b) →
    ∃ t, exec i s = .next t ∧
      t.reg i.operands.frD =
        { ps0 := extendFloat (if mv0 then s.ps1 i.operands.frA else a),
          ps1 := if mv1 then s.ps1 i.operands.frB else b }

/-- R190: ps_sel completes: per lane the raw bits of C where A is at least zero (a zero of either sign, or a positive
number) and of B where A is a NaN or negative; no FPSCR bit and no other register changes. -/
def Obligations.SelectCopiesRawLanes : Prop :=
  ∀ (o : Operands) (s : State), ∃ t, exec (.psSel o) s = .next t ∧
    (isNan64 (s.ps0 o.frA) = true → t.ps0 o.frD = s.ps0 o.frB) ∧
    (isZero64 (s.ps0 o.frA) = true → t.ps0 o.frD = s.ps0 o.frC) ∧
    (isNan64 (s.ps0 o.frA) = false → isZero64 (s.ps0 o.frA) = false →
      t.ps0 o.frD = if sign64 (s.ps0 o.frA) then s.ps0 o.frB else s.ps0 o.frC) ∧
    (isNan32 (s.ps1 o.frA) = true → t.ps1 o.frD = s.ps1 o.frB) ∧
    (isZero32 (s.ps1 o.frA) = true → t.ps1 o.frD = s.ps1 o.frC) ∧
    (isNan32 (s.ps1 o.frA) = false → isZero32 (s.ps1 o.frA) = false →
      t.ps1 o.frD = if sign32 (s.ps1 o.frA) then s.ps1 o.frB else s.ps1 o.frC) ∧
    Said.OthersKept s t o.frD ∧ t.fpscr = s.fpscr

/-! ## The value model -/

/-- R103: truncation undoes widening, for every binary32, subnormals and NaNs included. -/
def Obligations.TruncationUndoesWidening : Prop :=
  ∀ x : B32, truncBits (extendFloat x) = x

/-- R94: the rounding conversion keeps infinities, zeros and the top bits of a quiet NaN (log 20), and rounds every finite
non-zero number to binary32, under every mode and both tininess parameters. R103: it undoes widening without a signal, for
every binary32 that is not a signalling NaN. -/
def Obligations.RoundF32FollowsItsRule : Prop :=
  (∀ (v : B64) (rm : RoundMode) (tin : Tininess),
    (isInf64 v = true → roundF32 v rm tin = (if sign64 v then 0xFF800000 else 0x7F800000, .none)) ∧
    (isZero64 v = true → roundF32 v rm tin = (if sign64 v then 0x80000000 else 0x00000000, .none)) ∧
    (isNan64 v = true → isSnan64 v = false →
      sign32 (roundF32 v rm tin).1 = sign64 v ∧ exp32 (roundF32 v rm tin).1 = 0xFF ∧
      frac32 (roundF32 v rm tin).1 = (frac64 v).extractLsb' 29 23 ∧ (roundF32 v rm tin).2 = .none) ∧
    (∀ x : ℝ, Said.Val64 v x → x ≠ 0 → Said.RoundsTo32 tin rm x (roundF32 v rm tin))) ∧
  (∀ (x : B32) (rm : RoundMode), isSnan32 x = false → roundF32 (extendFloat x) rm = (x, .none))

/-- R103: the predicates and the sign agree on a binary32 and its widening (so `opnd` answers as the lane does, R13). -/
def Obligations.PredicatesAgreeAcrossWidening : Prop :=
  ∀ x : B32, isNan64 (extendFloat x) = isNan32 x ∧ isSnan64 (extendFloat x) = isSnan32 x ∧
    isInf64 (extendFloat x) = isInf32 x ∧ isZero64 (extendFloat x) = isZero32 x ∧
    sign64 (extendFloat x) = sign32 x

/-- R89: on a binary32 that is not a NaN or an infinity, the widening denotes exactly the value the binary32 denotes:
the two exact values, brought to the least exponent of binary64, are the same integer. -/
def Obligations.WideningDenotesTheSameValue : Prop :=
  ∀ x : B32, isNan32 x = false → isInf32 x = false →
    (val64 (extendFloat x)).m * 2 ^ ((val64 (extendFloat x)).e + 1074).toNat =
      (val32 x).m * 2 ^ ((val32 x).e + 1074).toNat

/-- R90: where the result is not the free value, truncation of a number is rounding toward zero. -/
def Obligations.TruncationIsRoundingTowardZero : Prop :=
  ∀ v : B64, isNan64 v = false → ((exp64 v).toNat ≤ 1150 ∨ isInf64 v = true) →
    truncBits v = (roundF32 v .rtz).1

/-- R92: a magnitude, quotient or square root, is rounded to a multiple of `2^q` as its mode says, and the flag says
whether the value changed. -/
def Obligations.RoundingToAMultipleIsCorrect : Prop :=
  ∀ (m : Magnitude) (x : ℝ) (q : ℤ) (rm : RoundMode) (neg : Bool), Said.Positive m → Said.IsReal m x →
    Said.Rounded x ((2 : ℝ) ^ q) (m.roundTo q rm neg).1 rm neg ∧
    ((m.roundTo q rm neg).2 = false ↔ ((m.roundTo q rm neg).1 : ℝ) * 2 ^ q = x)

/-- The exponent that R93 starts from is the floor of the base-2 logarithm. -/
def Obligations.ExponentIsTheFloorOfTheLogarithm : Prop :=
  ∀ (m : Magnitude) (x : ℝ), Said.Positive m → Said.IsReal m x →
    (2 : ℝ) ^ m.log ≤ x ∧ x < (2 : ℝ) ^ (m.log + 1)

/-- R93: rounding to a format, for both formats, both tininess parameters, every mode and sign and every positive quotient
or square root: the parts and the signals are those of the rule, overflow exactly where the value rounded with unbounded
exponent reaches 2^(emax+1), and underflow exactly where the result is tiny and inexact. -/
def Obligations.RoundingToAFormatIsCorrect : Prop :=
  ∀ fmt ∈ [binary32, binary64], ∀ (tin : Tininess) (rm : RoundMode) (neg : Bool) (m : Magnitude) (x : ℝ),
    Said.Positive m → Said.IsReal m x →
    Said.RoundsTo fmt tin rm neg x (round fmt tin rm neg m).1 (round fmt tin rm neg m).2

/-- R96: the product of two binary32 values, widened, is exact in binary64: no signal, and for finite operands the result
denotes the product of the two values. -/
def Obligations.ProductOfWidenedIsExact : Prop :=
  ∀ (x y : B32) (rm : RoundMode), isNan32 x = false → isNan32 y = false →
    ¬ ((isInf32 x = true ∧ isZero32 y = true) ∨ (isZero32 x = true ∧ isInf32 y = true)) →
    (mul64 (extendFloat x) (extendFloat y) rm).2 = .none ∧
    ∀ p q : ℝ, Said.Val32 x p → Said.Val32 y q → Said.Val64 (mul64 (extendFloat x) (extendFloat y) rm).1 (p * q)

/-- R95 to R98: on operands that are not NaN, add64, sub64, mul64, div64 and fma64 give the special values, the signed
zeros and the signals of their rules, and otherwise the exact sum, difference, product, quotient or fused sum of the values
the operands denote, rounded once. The arms the rules do not reach have the values section 6 offers (log 21). -/
def Obligations.Binary64OperationsFollowTheirRules : Prop :=
  ∀ (rm : RoundMode) (tin : Tininess) (a b : B64), isNan64 a = false → isNan64 b = false →
    Said.AddRule a b rm tin (add64 a b rm tin) ∧
    Said.AddRule a (b ^^^ 0x8000000000000000) rm tin (sub64 a b rm tin) ∧
    (∀ x y : ℝ, Said.Val64 a x → Said.Val64 b y → x - y ≠ 0 → Said.RoundsTo64 tin rm (x - y) (sub64 a b rm tin)) ∧
    Said.MulRule a b rm tin (mul64 a b rm tin) ∧
    Said.DivRule a b rm tin (div64 a b rm tin) ∧
    (∀ c : B64, isNan64 c = false → Said.FmaRule a c b rm tin (fma64 a c b rm tin))

/-! ## The parameters -/

/-- The layout of the FPSCR is only names (92_eei_decisions.md D3): under two layouts without overlap, whatever the other
parameters, from states with the same registers and the same fields an instruction ends in the same registers and the
same fields. So what a statement says of fields at the spec's layout (log 3) holds at every other. Parameters as an argument: log 44. -/
def Obligations.LayoutIsOnlyNames : Prop :=
  ∀ (P : Params) (L : Layout), P.layout.Lawful → L.Lawful → ∀ (i : Instr) (s u : State),
    s.fpr = u.fpr → Said.SameFields P.layout s.fpscr L u.fpscr →
    ∃ t v, execWith P i s = .next t ∧ execWith { P with layout := L } i u = .next v ∧
      t.fpr = v.fpr ∧ Said.SameFields P.layout t.fpscr L v.fpscr
end

