-- ==== Sys2Proof/Laws/Decode.lean ====
section
/-!
SUPPORT. The fields of an encoded word: what `wordA` and `wordX` put together, the decoder takes apart.
-/

namespace Sys2Proof

/-- Bits of a format A word, by position. -/
theorem getLsbD_wordA (xo : BitVec 5) (o : Operands) (i : Nat) :
    (wordA xo o).getLsbD i =
      if i < 1 then (BitVec.ofBool o.rc).getLsbD i
      else if i - 1 < 5 then xo.getLsbD (i - 1)
      else if i - 6 < 5 then o.frC.getLsbD (i - 6)
      else if i - 11 < 5 then o.frB.getLsbD (i - 11)
      else if i - 16 < 5 then o.frA.getLsbD (i - 16)
      else if i - 21 < 5 then o.frD.getLsbD (i - 21)
      else (4 : BitVec 6).getLsbD (i - 26) := by
  unfold wordA
  simp only [BitVec.getLsbD_append, Nat.sub_sub]

/-- Bits of a format X word, by position. -/
theorem getLsbD_wordX (xo : BitVec 10) (o : Operands) (i : Nat) :
    (wordX xo o).getLsbD i =
      if i < 1 then (BitVec.ofBool o.rc).getLsbD i
      else if i - 1 < 10 then xo.getLsbD (i - 1)
      else if i - 11 < 5 then o.frB.getLsbD (i - 11)
      else if i - 16 < 5 then o.frA.getLsbD (i - 16)
      else if i - 21 < 5 then o.frD.getLsbD (i - 21)
      else (4 : BitVec 6).getLsbD (i - 26) := by
  unfold wordX
  simp only [BitVec.getLsbD_append, Nat.sub_sub]

@[simp] theorem opcdOf_wordA (xo : BitVec 5) (o : Operands) : opcdOf (wordA xo o) = 4 := by
  apply BitVec.eq_of_getLsbD_eq
  intro i hi
  rw [opcdOf, BitVec.getLsbD_extractLsb', getLsbD_wordA]
  interval_cases i <;> simp

@[simp] theorem opcdOf_wordX (xo : BitVec 10) (o : Operands) : opcdOf (wordX xo o) = 4 := by
  apply BitVec.eq_of_getLsbD_eq
  intro i hi
  rw [opcdOf, BitVec.getLsbD_extractLsb', getLsbD_wordX]
  interval_cases i <;> simp

@[simp] theorem xo5Of_wordA (xo : BitVec 5) (o : Operands) : xo5Of (wordA xo o) = xo := by
  apply BitVec.eq_of_getLsbD_eq
  intro i hi
  rw [xo5Of, BitVec.getLsbD_extractLsb', getLsbD_wordA]
  interval_cases i <;> simp

@[simp] theorem xo10Of_wordX (xo : BitVec 10) (o : Operands) : xo10Of (wordX xo o) = xo := by
  apply BitVec.eq_of_getLsbD_eq
  intro i hi
  rw [xo10Of, BitVec.getLsbD_extractLsb', getLsbD_wordX]
  interval_cases i <;> simp

/-- XO5 read from a format X word is the low half of its XO10. -/
@[simp] theorem xo5Of_wordX (xo : BitVec 10) (o : Operands) : xo5Of (wordX xo o) = xo.extractLsb' 0 5 := by
  apply BitVec.eq_of_getLsbD_eq
  intro i hi
  rw [xo5Of, BitVec.getLsbD_extractLsb', getLsbD_wordX, BitVec.getLsbD_extractLsb']
  interval_cases i <;> simp

@[simp] theorem operandsA_wordA (xo : BitVec 5) (o : Operands) : operandsA (wordA xo o) = o := by
  obtain ⟨d, a, b, c, rc⟩ := o
  simp only [operandsA, Operands.mk.injEq]
  refine ⟨?_, ?_, ?_, ?_, ?_⟩
  · apply BitVec.eq_of_getLsbD_eq
    intro i hi
    rw [BitVec.getLsbD_extractLsb', getLsbD_wordA]
    interval_cases i <;> simp
  · apply BitVec.eq_of_getLsbD_eq
    intro i hi
    rw [BitVec.getLsbD_extractLsb', getLsbD_wordA]
    interval_cases i <;> simp
  · apply BitVec.eq_of_getLsbD_eq
    intro i hi
    rw [BitVec.getLsbD_extractLsb', getLsbD_wordA]
    interval_cases i <;> simp
  · apply BitVec.eq_of_getLsbD_eq
    intro i hi
    rw [BitVec.getLsbD_extractLsb', getLsbD_wordA]
    interval_cases i <;> simp
  · rw [getLsbD_wordA]
    simp

/-- The operands of a format X word are the record's, with frC 0. -/
@[simp] theorem operandsX_wordX (xo : BitVec 10) (o : Operands) :
    operandsX (wordX xo o) = { o with frC := 0 } := by
  obtain ⟨d, a, b, c, rc⟩ := o
  simp only [operandsX, Operands.mk.injEq]
  refine ⟨?_, ?_, ?_, trivial, ?_⟩
  · apply BitVec.eq_of_getLsbD_eq
    intro i hi
    rw [BitVec.getLsbD_extractLsb', getLsbD_wordX]
    interval_cases i <;> simp
  · apply BitVec.eq_of_getLsbD_eq
    intro i hi
    rw [BitVec.getLsbD_extractLsb', getLsbD_wordX]
    interval_cases i <;> simp
  · apply BitVec.eq_of_getLsbD_eq
    intro i hi
    rw [BitVec.getLsbD_extractLsb', getLsbD_wordX]
    interval_cases i <;> simp
  · rw [getLsbD_wordX]
    simp

/-- The four bytes of a word put together again are the word (20_memory.md R51). -/
theorem wordOfBytes_bytesOfWord (w : B32) :
    wordOfBytes (w.extractLsb' 24 8) (w.extractLsb' 16 8) (w.extractLsb' 8 8) (w.extractLsb' 0 8) = w := by
  unfold wordOfBytes
  apply BitVec.eq_of_getLsbD_eq
  intro i hi
  simp only [BitVec.getLsbD_append, BitVec.getLsbD_extractLsb']
  interval_cases i <;> simp

end Sys2Proof
end

