-- ==== Sys2Proof/Laws/Flags.lean ====
section
/-!
SUPPORT. The FPSCR word bit by bit, over any lawful layout: what a write, a raise, a write of FPRF and each step of the
update engine do to every field. Nothing here unfolds again outside this file.
-/

namespace Sys2Proof.Machine

variable {L : Layout}

/-! ### The layout -/

/-- The spec's layout has no overlap. -/
theorem Layout.powerPC_lawful : Layout.powerPC.Lawful where
  bit_inj b c := by cases b <;> cases c <;> decide
  bit_lt b := by cases b <;> decide
  fprf_le := by decide
  rn_le := by decide
  bit_fprf b := by cases b <;> decide
  bit_rn b := by cases b <;> decide
  fprf_rn := by decide

theorem Layout.Lawful.bit_eq (hL : L.Lawful) {b c : FpscrBit} : L.bit b = L.bit c ↔ b = c :=
  ⟨hL.bit_inj b c, fun h => h ▸ rfl⟩

/-- Bits that hold no one-bit field: FPRF and RN. -/
def isWideField (L : Layout) (i : Nat) : Prop := (L.fprf ≤ i ∧ i < L.fprf + 5) ∨ (L.rn ≤ i ∧ i < L.rn + 2)

theorem Layout.Lawful.wide_ne (hL : L.Lawful) {i : Nat} (h : isWideField L i) (b : FpscrBit) : i ≠ L.bit b := by
  have h1 := hL.bit_fprf b
  have h2 := hL.bit_rn b
  unfold isWideField at h
  omega

/-! ### Writing one-bit fields -/

theorem getLsbD_setBit (w : B32) (n : Nat) (v : Bool) (i : Nat) (hn : n < 32) :
    (setBit w n v).getLsbD i = if i = n then v else w.getLsbD i := by
  unfold setBit
  by_cases hi : i < 32
  · cases v <;> by_cases h : i = n <;> simp [h, hn, hi]
  · have h32 : w.getLsbD i = false := BitVec.getLsbD_of_ge w i (by omega)
    have : i ≠ n := by omega
    rw [if_neg this, h32]
    exact BitVec.getLsbD_of_ge _ i (by omega)

theorem getLsbD_write (hL : L.Lawful) (w : B32) (b : FpscrBit) (v : Bool) (i : Nat) :
    (Fpscr.write L w b v).getLsbD i = if i = L.bit b then v else w.getLsbD i :=
  getLsbD_setBit w (L.bit b) v i (hL.bit_lt b)

theorem get_write (hL : L.Lawful) (w : B32) (b c : FpscrBit) (v : Bool) :
    Fpscr.get (Fpscr.write L w b v) c L = if c = b then v else Fpscr.get w c L := by
  unfold Fpscr.get
  rw [getLsbD_write hL]
  simp only [hL.bit_eq]

theorem getLsbD_raise (hL : L.Lawful) (w : B32) (b : FpscrBit) (v : Bool) (i : Nat) :
    (Fpscr.raise L w b v).getLsbD i = (w.getLsbD i || (decide (i = L.bit b) && v)) := by
  unfold Fpscr.raise
  rw [getLsbD_write hL]
  by_cases h : i = L.bit b
  · subst h
    simp [Fpscr.get]
  · simp [h]

theorem get_raise (hL : L.Lawful) (w : B32) (b c : FpscrBit) (v : Bool) :
    Fpscr.get (Fpscr.raise L w b v) c L = (Fpscr.get w c L || (decide (c = b) && v)) := by
  unfold Fpscr.get
  rw [getLsbD_raise hL]
  simp only [hL.bit_eq]

/-! ### raiseFlags, accumulateSignals -/

/-- Which slot flag a bit of the FPSCR records. -/
def SlotFlags.bit (f : SlotFlags) : FpscrBit → Bool
  | .VXSNAN => f.vxsnan
  | .VXISI => f.vxisi
  | .VXIMZ => f.vximz
  | .VXIDI => f.vxidi
  | .VXZDZ => f.vxzdz
  | .VXSQRT => f.vxsqrt
  | .ZX => f.zx
  | _ => false

/-- Which signal a bit of the FPSCR records. -/
def Signals.bit (s : Signals) : FpscrBit → Bool
  | .OX => s.of
  | .UX => s.uf
  | .ZX => s.dz
  | .XX => s.inx
  | _ => false

theorem get_raiseFlags (hL : L.Lawful) (w : B32) (f : SlotFlags) (c : FpscrBit) :
    Fpscr.get (raiseFlags L w f) c L = (Fpscr.get w c L || f.bit c) := by
  simp only [raiseFlags, get_raise hL]
  cases c <;> simp [SlotFlags.bit]

theorem get_accumulateSignals (hL : L.Lawful) (w : B32) (s : Signals) (c : FpscrBit) :
    Fpscr.get (accumulateSignals L w s) c L = (Fpscr.get w c L || s.bit c) := by
  simp only [accumulateSignals, get_raise hL]
  cases c <;> simp [Signals.bit]

theorem getLsbD_raise_wide (hL : L.Lawful) (w : B32) (b : FpscrBit) (v : Bool) {i : Nat} (h : isWideField L i) :
    (Fpscr.raise L w b v).getLsbD i = w.getLsbD i := by
  rw [getLsbD_raise hL]
  simp [hL.wide_ne h b]

theorem getLsbD_write_wide (hL : L.Lawful) (w : B32) (b : FpscrBit) (v : Bool) {i : Nat} (h : isWideField L i) :
    (Fpscr.write L w b v).getLsbD i = w.getLsbD i := by
  rw [getLsbD_write hL, if_neg (hL.wide_ne h b)]

theorem getLsbD_raiseFlags_wide (hL : L.Lawful) (w : B32) (f : SlotFlags) {i : Nat} (h : isWideField L i) :
    (raiseFlags L w f).getLsbD i = w.getLsbD i := by
  simp only [raiseFlags, getLsbD_raise_wide hL _ _ _ h]

theorem getLsbD_updateFpscr_wide (hL : L.Lawful) (old w : B32) (s : Signals) {i : Nat} (h : isWideField L i) :
    (updateFpscr L old w s).getLsbD i = w.getLsbD i := by
  simp only [updateFpscr, accumulateFx, recomputeFex, recomputeVx, accumulateSignals, getLsbD_raise_wide hL _ _ _ h,
    getLsbD_write_wide hL _ _ _ h]

/-! ### FPRF and RN -/

theorem getLsbD_writeFprf (hL : L.Lawful) (w : B32) (c : BitVec 5) (i : Nat) :
    (writeFprf L w c).getLsbD i =
      if L.fprf ≤ i ∧ i < L.fprf + 5 then c.getLsbD (i - L.fprf) else w.getLsbD i := by
  have hle := hL.fprf_le
  have ones : ∀ j, j < 32 → (0x1F : B32).getLsbD j = decide (j < 5) := by decide
  unfold writeFprf
  by_cases hi : i < 32
  · simp only [BitVec.getLsbD_or, BitVec.getLsbD_and, BitVec.getLsbD_not, BitVec.getLsbD_shiftLeft,
      BitVec.getLsbD_setWidth, hi, decide_true, Bool.true_and]
    by_cases hlo : i < L.fprf
    · simp [hlo, show ¬ (L.fprf ≤ i) by omega]
    · rw [ones (i - L.fprf) (by omega)]
      by_cases hhi : i < L.fprf + 5
      · rw [if_pos ⟨by omega, hhi⟩]
        simp [hlo, show i - L.fprf < 5 by omega, show i - L.fprf < 32 by omega]
      · rw [if_neg (by omega), BitVec.getLsbD_of_ge c _ (by omega)]
        simp [show ¬ (i - L.fprf < 5) by omega]
  · have h1 : w.getLsbD i = false := BitVec.getLsbD_of_ge w i (by omega)
    rw [if_neg (by omega), h1]
    exact BitVec.getLsbD_of_ge _ i (by omega)

theorem get_writeFprf (hL : L.Lawful) (w : B32) (c : BitVec 5) (b : FpscrBit) :
    Fpscr.get (writeFprf L w c) b L = Fpscr.get w b L := by
  unfold Fpscr.get
  rw [getLsbD_writeFprf hL, if_neg]
  have := hL.bit_fprf b
  omega

theorem fprf_writeFprf (hL : L.Lawful) (w : B32) (c : BitVec 5) : Fpscr.fprf (writeFprf L w c) L = c := by
  unfold Fpscr.fprf
  apply BitVec.eq_of_getLsbD_eq
  intro i hi
  rw [BitVec.getLsbD_extractLsb', getLsbD_writeFprf hL, if_pos (by omega)]
  simp [hi]

/-- FPRF is one value when its five bits are. -/
theorem fprf_congr {w w' : B32} (h : ∀ i, L.fprf ≤ i → i < L.fprf + 5 → w.getLsbD i = w'.getLsbD i) :
    Fpscr.fprf w L = Fpscr.fprf w' L := by
  unfold Fpscr.fprf
  apply BitVec.eq_of_getLsbD_eq
  intro i hi
  simp only [BitVec.getLsbD_extractLsb']
  rw [h (L.fprf + i) (by omega) (by omega)]

/-- RN is one value when its two bits are. -/
theorem rn_congr {w w' : B32} (h : ∀ i, L.rn ≤ i → i < L.rn + 2 → w.getLsbD i = w'.getLsbD i) :
    Fpscr.rn w L = Fpscr.rn w' L := by
  unfold Fpscr.rn
  apply BitVec.eq_of_getLsbD_eq
  intro i hi
  simp only [BitVec.getLsbD_extractLsb']
  rw [h (L.rn + i) (by omega) (by omega)]

theorem rn_writeFprf (hL : L.Lawful) (w : B32) (c : BitVec 5) : Fpscr.rn (writeFprf L w c) L = Fpscr.rn w L :=
  rn_congr fun i h1 h2 => by
    have := hL.fprf_rn
    rw [getLsbD_writeFprf hL, if_neg (by omega)]

/-! ### The update engine -/

/-- A bit of a word made by or-ing in one bit for each field of a list. -/
theorem getLsbD_foldl_twoPow (bs : List FpscrBit) (m : B32) (i : Nat) (hi : i < 32) :
    (bs.foldl (fun m b => m ||| BitVec.twoPow 32 (L.bit b)) m).getLsbD i =
      (m.getLsbD i || bs.any fun b => decide (L.bit b = i)) := by
  induction bs generalizing m with
  | nil => simp
  | cons b bs ih =>
    rw [List.foldl_cons, ih, List.any_cons, BitVec.getLsbD_or, BitVec.getLsbD_twoPow, Bool.or_assoc]
    congr 2
    by_cases h : L.bit b = i <;> simp [h, hi]

theorem getLsbD_excMask (i : Nat) (hi : i < 32) :
    (excMask L).getLsbD i = exceptionBits.any fun b => decide (L.bit b = i) := by
  rw [excMask, getLsbD_foldl_twoPow _ _ _ hi]
  simp

/-- In the spec's layout EXC_MASK is the word of R200. -/
theorem excMask_powerPC : excMask .powerPC = 0x1FF80700 := by decide

/-- The FX test of R200 by field names. -/
theorem newException_iff (hL : L.Lawful) (old w : B32) :
    (w &&& ~~~old &&& excMask L != 0) = exceptionBits.any (fun b => Fpscr.get w b L && !Fpscr.get old b L) := by
  rw [Bool.eq_iff_iff, bne_iff_ne, List.any_eq_true]
  constructor
  · intro h
    by_contra hno
    apply h
    apply BitVec.eq_of_getLsbD_eq
    intro i hi
    rw [show (0 : B32).getLsbD i = false by simp]
    simp only [BitVec.getLsbD_and, BitVec.getLsbD_not, getLsbD_excMask i hi]
    by_contra hb
    simp only [Bool.not_eq_false, Bool.and_eq_true, List.any_eq_true, decide_eq_true_eq] at hb
    obtain ⟨⟨h1, -, h2⟩, b, hb, rfl⟩ := hb
    exact hno ⟨b, hb, by simpa [Fpscr.get] using And.intro h1 (by simpa using h2)⟩
  · rintro ⟨b, hb, hv⟩ h0
    have hbit : (w &&& ~~~old &&& excMask L).getLsbD (L.bit b) = false := by simp [h0]
    have hm : (excMask L).getLsbD (L.bit b) = true := by
      rw [getLsbD_excMask _ (hL.bit_lt b), List.any_eq_true]
      exact ⟨b, hb, by simp⟩
    unfold Fpscr.get at hv
    simp only [Bool.and_eq_true, Bool.not_eq_true'] at hv
    simp only [BitVec.getLsbD_and, BitVec.getLsbD_not, hm, hv.1, hv.2, hL.bit_lt b, decide_true, Bool.not_false,
      Bool.and_self, Bool.true_eq_false] at hbit

/-- Every one-bit field after the engine. -/
theorem get_updateFpscr (hL : L.Lawful) (old w : B32) (s : Signals) (b : FpscrBit) :
    Fpscr.get (updateFpscr L old w s) b L =
      match b with
      | .VX => vxFormula L (accumulateSignals L w s)
      | .FEX => fexFormula L (recomputeVx L (accumulateSignals L w s))
      | .FX => Fpscr.get w .FX L ||
          exceptionBits.any (fun c => (Fpscr.get w c L || s.bit c) && !Fpscr.get old c L)
      | c => Fpscr.get w c L || s.bit c := by
  simp only [updateFpscr, accumulateFx, newException_iff hL, get_raise hL, recomputeFex, recomputeVx, get_write hL,
    get_accumulateSignals hL]
  cases b <;> simp [Signals.bit, exceptionBits]

/-- VX as the engine leaves it is the formula over the word it leaves (R198). -/
theorem vx_updateFpscr (hL : L.Lawful) (old w : B32) (s : Signals) :
    Fpscr.get (updateFpscr L old w s) .VX L = vxFormula L (updateFpscr L old w s) := by
  simp only [vxFormula, get_updateFpscr hL, get_accumulateSignals hL]

/-- FEX as the engine leaves it is the formula over the word it leaves (R199). -/
theorem fex_updateFpscr (hL : L.Lawful) (old w : B32) (s : Signals) :
    Fpscr.get (updateFpscr L old w s) .FEX L = fexFormula L (updateFpscr L old w s) := by
  simp only [fexFormula, get_updateFpscr hL, recomputeVx, get_write hL, get_accumulateSignals hL]
  simp

theorem rn_updateFpscr (hL : L.Lawful) (old w : B32) (s : Signals) :
    Fpscr.rn (updateFpscr L old w s) L = Fpscr.rn w L :=
  rn_congr fun _ h1 h2 => getLsbD_updateFpscr_wide hL old w s (Or.inr ⟨h1, h2⟩)

theorem fprf_updateFpscr (hL : L.Lawful) (old w : B32) (s : Signals) :
    Fpscr.fprf (updateFpscr L old w s) L = Fpscr.fprf w L :=
  fprf_congr fun _ h1 h2 => getLsbD_updateFpscr_wide hL old w s (Or.inl ⟨h1, h2⟩)

theorem rn_raiseFlags (hL : L.Lawful) (w : B32) (f : SlotFlags) : Fpscr.rn (raiseFlags L w f) L = Fpscr.rn w L :=
  rn_congr fun _ h1 h2 => getLsbD_raiseFlags_wide hL w f (Or.inr ⟨h1, h2⟩)

theorem fprf_raiseFlags (hL : L.Lawful) (w : B32) (f : SlotFlags) :
    Fpscr.fprf (raiseFlags L w f) L = Fpscr.fprf w L :=
  fprf_congr fun _ h1 h2 => getLsbD_raiseFlags_wide hL w f (Or.inl ⟨h1, h2⟩)

end Sys2Proof.Machine
end

