-- ==== Sys2Proof/Laws/State.lean ====
section
/-!
SUPPORT. One lemma per field per update of the state.
-/

namespace Sys2Proof.Machine

/-! ### writeReg -/

@[simp] theorem writeReg_fpscr (s : State) (i : RegIdx) (x : Fpr) : (s.writeReg i x).fpscr = s.fpscr := rfl
@[simp] theorem writeReg_cr1 (s : State) (i : RegIdx) (x : Fpr) : (s.writeReg i x).cr1 = s.cr1 := rfl
@[simp] theorem writeReg_program (s : State) (i : RegIdx) (x : Fpr) : (s.writeReg i x).program = s.program := rfl

theorem reg_writeReg (s : State) (i j : RegIdx) (x : Fpr) :
    (s.writeReg i x).reg j = if i = j then x else s.reg j := by
  unfold State.reg State.writeReg
  simp only [Vector.getElem_set, BitVec.toNat_inj]

@[simp] theorem reg_writeReg_same (s : State) (i : RegIdx) (x : Fpr) : (s.writeReg i x).reg i = x := by
  rw [reg_writeReg, if_pos rfl]

theorem reg_writeReg_ne (s : State) {i j : RegIdx} (x : Fpr) (h : j ≠ i) : (s.writeReg i x).reg j = s.reg j := by
  rw [reg_writeReg, if_neg (Ne.symm h)]

/-! ### setFpscr -/

@[simp] theorem setFpscr_fpscr (s : State) (w : B32) : (s.setFpscr w).fpscr = w := rfl
@[simp] theorem setFpscr_fpr (s : State) (w : B32) : (s.setFpscr w).fpr = s.fpr := rfl
@[simp] theorem setFpscr_cr1 (s : State) (w : B32) : (s.setFpscr w).cr1 = s.cr1 := rfl
@[simp] theorem setFpscr_program (s : State) (w : B32) : (s.setFpscr w).program = s.program := rfl
@[simp] theorem reg_setFpscr (s : State) (w : B32) (i : RegIdx) : (s.setFpscr w).reg i = s.reg i := rfl

/-! ### mirror -/

@[simp] theorem mirror_fpscr (s : State) (rc : Bool) : (s.mirror rc).fpscr = s.fpscr := by cases rc <;> rfl
@[simp] theorem mirror_fpr (s : State) (rc : Bool) : (s.mirror rc).fpr = s.fpr := by cases rc <;> rfl
@[simp] theorem mirror_program (s : State) (rc : Bool) : (s.mirror rc).program = s.program := by cases rc <;> rfl
@[simp] theorem reg_mirror (s : State) (rc : Bool) (i : RegIdx) : (s.mirror rc).reg i = s.reg i := by cases rc <;> rfl
theorem mirror_cr1 (s : State) (rc : Bool) : (s.mirror rc).cr1 = if rc then Fpscr.rc1 s.fpscr else s.cr1 := by
  cases rc <;> rfl

/-! ### The dispatcher's list -/

/-- The state with another list of words still to be handed over. -/
def State.withProgram (s : State) (p : List B32) : State := { s with program := p }

@[simp] theorem withProgram_fpr (s : State) (p : List B32) : (s.withProgram p).fpr = s.fpr := rfl
@[simp] theorem withProgram_fpscr (s : State) (p : List B32) : (s.withProgram p).fpscr = s.fpscr := rfl
@[simp] theorem withProgram_cr1 (s : State) (p : List B32) : (s.withProgram p).cr1 = s.cr1 := rfl
@[simp] theorem withProgram_program (s : State) (p : List B32) : (s.withProgram p).program = p := rfl
@[simp] theorem reg_withProgram (s : State) (p : List B32) (i : RegIdx) : (s.withProgram p).reg i = s.reg i := rfl

@[simp] theorem withFetchWord_fpr (s : State) (n w : Nat) : (s.withFetchWord n w).fpr = s.fpr := rfl
@[simp] theorem withFetchWord_fpscr (s : State) (n w : Nat) : (s.withFetchWord n w).fpscr = s.fpscr := rfl
@[simp] theorem withFetchWord_cr1 (s : State) (n w : Nat) : (s.withFetchWord n w).cr1 = s.cr1 := rfl
@[simp] theorem withFetchWord_program (s : State) (n w : Nat) :
    (s.withFetchWord n w).program = tableWord n w :: s.program := rfl

/-! ### Lanes and states as data -/

theorem ps0_eq (s : State) (i : RegIdx) : s.ps0 i = (s.reg i).ps0 := rfl
theorem ps1_eq (s : State) (i : RegIdx) : s.ps1 i = (s.reg i).ps1 := rfl

@[simp] theorem ps0_writeReg_same (s : State) (i : RegIdx) (x : Fpr) : (s.writeReg i x).ps0 i = x.ps0 :=
  congrArg Fpr.ps0 (reg_writeReg_same s i x)
@[simp] theorem ps1_writeReg_same (s : State) (i : RegIdx) (x : Fpr) : (s.writeReg i x).ps1 i = x.ps1 :=
  congrArg Fpr.ps1 (reg_writeReg_same s i x)
@[simp] theorem ps0_setFpscr (s : State) (w : B32) (i : RegIdx) : (s.setFpscr w).ps0 i = s.ps0 i := rfl
@[simp] theorem ps1_setFpscr (s : State) (w : B32) (i : RegIdx) : (s.setFpscr w).ps1 i = s.ps1 i := rfl
@[simp] theorem ps0_mirror (s : State) (rc : Bool) (i : RegIdx) : (s.mirror rc).ps0 i = s.ps0 i :=
  congrArg Fpr.ps0 (reg_mirror s rc i)
@[simp] theorem ps1_mirror (s : State) (rc : Bool) (i : RegIdx) : (s.mirror rc).ps1 i = s.ps1 i :=
  congrArg Fpr.ps1 (reg_mirror s rc i)

/-- Two states with the same registers, FPSCR, CR1 and list are the same. -/
theorem State.ext_of_regs {s t : State} (hr : ∀ i, s.reg i = t.reg i) (hf : s.fpscr = t.fpscr) (hc : s.cr1 = t.cr1)
    (hp : s.program = t.program) : s = t := by
  obtain ⟨fs, ws, cs, ps⟩ := s
  obtain ⟨ft, wt, ct, pt⟩ := t
  obtain rfl : fs = ft := by
    apply Vector.ext
    intro i hi
    have h := hr (BitVec.ofNat 5 i)
    simp only [State.reg, BitVec.toNat_ofNat] at h
    simpa [Nat.mod_eq_of_lt (show i < 32 from hi)] using h
  simp_all

/-- Every register is zero after reset (10_state.md R26). -/
@[simp] theorem reset_reg (i : RegIdx) : State.reset.reg i = { ps0 := 0, ps1 := 0 } := by
  simp [State.reg, State.reset, State.resetAt]

end Sys2Proof.Machine
end

