-- ==== Sys2Proof/Laws/Exec.lean ====
section
/-!
SUPPORT. Inversion: everything an instruction can do, once for each of the two kinds, at any parameters. The families
that run the update engine may write the destination and change the FPSCR through it; the others write the destination
and touch no FPSCR bit. The machine of Step.lean is the machine of Parametric.lean at the spec's parameters.
-/

namespace Sys2Proof.Machine

/-! ### The machine at the spec's parameters -/

theorem exec_eq_execWith (i : Instr) (s : State) : exec i s = execWith .spec i s := by
  cases i <;> rfl

theorem step_eq_stepWith (s : State) : step s = stepWith .spec s := by
  have h : exec = execWith .spec := funext fun i => funext fun s => exec_eq_execWith i s
  rw [step, stepWith, h]

theorem reset_eq_resetWith : State.reset = State.resetWith .spec := rfl

/-! ### The engine -/

/-- The FPSCR of an instruction that runs the engine: flags of its slots raised, FPRF possibly rewritten, engine run. -/
def engineWord (P : Params) (old : B32) (fs : List SlotFlags) (v : Option B64) (sig : Signals) : B32 :=
  let w := fs.foldl (raiseFlags P.layout) old
  updateFpscr P.layout old (v.elim w (P.updateFprf w)) sig

/-- The register file write of an instruction that may be gated. -/
def State.maybeWrite (s : State) (d : RegIdx) (x : Option Fpr) : State := x.elim s (s.writeReg d)

@[simp] theorem maybeWrite_none (s : State) (d : RegIdx) : s.maybeWrite d none = s := rfl
@[simp] theorem maybeWrite_some (s : State) (d : RegIdx) (x : Fpr) : s.maybeWrite d (some x) = s.writeReg d x := rfl
@[simp] theorem maybeWrite_fpscr (s : State) (d : RegIdx) (x : Option Fpr) : (s.maybeWrite d x).fpscr = s.fpscr := by
  cases x <;> rfl
@[simp] theorem maybeWrite_cr1 (s : State) (d : RegIdx) (x : Option Fpr) : (s.maybeWrite d x).cr1 = s.cr1 := by
  cases x <;> rfl
@[simp] theorem maybeWrite_program (s : State) (d : RegIdx) (x : Option Fpr) :
    (s.maybeWrite d x).program = s.program := by
  cases x <;> rfl
theorem reg_maybeWrite_ne (s : State) {d r : RegIdx} (x : Option Fpr) (h : r ≠ d) :
    (s.maybeWrite d x).reg r = s.reg r := by
  cases x with
  | none => rfl
  | some y => exact reg_writeReg_ne s y h

/-- What the two-slot skeleton writes to the destination. -/
def slotsWrite (x0 x1 : Slot) : Option Fpr :=
  match x0.result, x1.result with
  | some (d0, _), some (d1, _) => some { ps0 := extendFloat d0, ps1 := d1 }
  | _, _ => none

theorem commitLanes_eq (s : State) (d : RegIdx) (x0 x1 : Slot) :
    s.commitLanes d x0 x1 = s.maybeWrite d (slotsWrite x0 x1) := by
  unfold State.commitLanes slotsWrite
  cases x0.result <;> cases x1.result <;> rfl

/-- The binary64 that FPRF classifies: the extension of slot 0's result, when there is one. -/
def Slot.fprfValue (x : Slot) : Option B64 := x.result.map fun r => extendFloat r.1

theorem fprfOfSlot_eq (P : Params) (w : B32) (x : Slot) : fprfOfSlot P w x = x.fprfValue.elim w (P.updateFprf w) := by
  unfold fprfOfSlot Slot.fprfValue
  cases x.result <;> rfl

/-- The two-slot skeleton, in the general form. -/
theorem commitSlots_eq (s : State) (P : Params) (d : RegIdx) (rc : Bool) (x0 x1 : Slot) :
    s.commitSlots P d rc x0 x1 =
      ((s.maybeWrite d (slotsWrite x0 x1)).setFpscr
        (engineWord P s.fpscr [x0.flags, x1.flags] x0.fprfValue (x0.sig.union x1.sig))).mirror rc := by
  simp only [State.commitSlots, fpscrAfterSlots, commitLanes_eq, fprfOfSlot_eq, engineWord, List.foldl_cons,
    List.foldl_nil]

theorem slotsWrite_extended {x0 x1 : Slot} {y : Fpr} (h : slotsWrite x0 x1 = some y) : IsExtended y.ps0 := by
  unfold slotsWrite at h
  split at h
  · obtain rfl := Option.some.inj h
    exact ⟨_, rfl⟩
  · exact absurd h (by simp)

/-- What an instruction of the families that run the engine does. -/
def EngineEffect (P : Params) (o : Operands) (s : State) (x : Option Fpr) (fs : List SlotFlags) (v : Option B64)
    (sig : Signals) : State :=
  ((s.maybeWrite o.frD x).setFpscr (engineWord P s.fpscr fs v sig)).mirror o.rc

theorem commitSlots_effect (P : Params) (o : Operands) (s : State) (x0 x1 : Slot) :
    ∃ x fs v sig, s.commitSlots P o.frD o.rc x0 x1 = EngineEffect P o s x fs v sig ∧
      (∀ y, x = some y → IsExtended y.ps0) ∧ (∀ u, v = some u → IsExtended u) := by
  refine ⟨_, _, _, _, commitSlots_eq s P o.frD o.rc x0 x1, fun y h => slotsWrite_extended h, fun u h => ?_⟩
  unfold Slot.fprfValue at h
  obtain ⟨r, -, rfl⟩ := Option.map_eq_some_iff.mp h
  exact ⟨_, rfl⟩

theorem sum_effect (P : Params) (o : Operands) (s t : State) (x : Slot) (sig : Signals) (f : B32 × Signals → Fpr)
    (hf : ∀ r, IsExtended (f r).ps0) (ht : t = s.maybeWrite o.frD (x.result.map f)) :
    ∃ y fs v sig', ((t.setFpscr (fpscrAfterSum P s.fpscr x sig)).mirror o.rc) = EngineEffect P o s y fs v sig' ∧
      (∀ z, y = some z → IsExtended z.ps0) ∧ (∀ u, v = some u → IsExtended u) := by
  refine ⟨x.result.map f, [x.flags], x.fprfValue, sig, ?_, ?_, ?_⟩
  · simp only [EngineEffect, fpscrAfterSum, fprfOfSlot_eq, engineWord, List.foldl_cons, List.foldl_nil, ht]
  · intro z h
    obtain ⟨r, -, rfl⟩ := Option.map_eq_some_iff.mp h
    exact hf r
  · intro u h
    unfold Slot.fprfValue at h
    obtain ⟨r, -, rfl⟩ := Option.map_eq_some_iff.mp h
    exact ⟨_, rfl⟩

/-- Everything an instruction that runs the engine can do: a write of an extended lane 0 and of lane 1 to the
destination or none, the engine's FPSCR, the mirror. -/
theorem execWith_engine (P : Params) (i : Instr) (s : State) (h : i.runsEngine = true) :
    ∃ x fs v sig, execWith P i s = .next (EngineEffect P i.operands s x fs v sig) ∧
      (∀ y, x = some y → IsExtended y.ps0) ∧ (∀ u, v = some u → IsExtended u) := by
  have two : ∀ (o : Operands) (x0 x1 : Slot), ∃ x fs v sig,
      (Host.Outcome.next (s.commitSlots P o.frD o.rc x0 x1) : Host.Outcome State Fault Refusal) =
        .next (EngineEffect P o s x fs v sig) ∧
      (∀ y, x = some y → IsExtended y.ps0) ∧ (∀ u, v = some u → IsExtended u) := by
    intro o x0 x1
    obtain ⟨x, fs, v, sig, he, hx, hv⟩ := commitSlots_effect P o s x0 x1
    exact ⟨x, fs, v, sig, by rw [he], hx, hv⟩
  cases i with
  | psSum0 o =>
    obtain ⟨x, fs, v, sig, he, hx, hv⟩ := sum_effect P o s _ (sumSlot P o s) (sumSlot P o s).sig
      (fun r => { ps0 := extendFloat r.1, ps1 := s.ps1 o.frC }) (fun r => ⟨_, rfl⟩) rfl
    refine ⟨x, fs, v, sig, ?_, hx, hv⟩
    rw [Instr.operands, ← he]
    simp only [execWith, psSum0]
    cases (sumSlot P o s).result <;> rfl
  | psSum1 o =>
    obtain ⟨x, fs, v, sig, he, hx, hv⟩ := sum_effect P o s _ (sumSlot P o s)
      (((sumSlot P o s).result.map fun r => r.2.union (sideLane P (s.ps0 o.frC) (s.rm P)).2).getD .none)
      (fun r => { ps0 := extendFloat (sideLane P (s.ps0 o.frC) (s.rm P)).1, ps1 := r.1 }) (fun r => ⟨_, rfl⟩) rfl
    refine ⟨x, fs, v, sig, ?_, hx, hv⟩
    rw [Instr.operands, ← he]
    simp only [execWith, psSum1]
    cases (sumSlot P o s).result <;> rfl
  | psMuls0 o => exact two o _ _
  | psMuls1 o => exact two o _ _
  | psMadds0 o => exact two o _ _
  | psMadds1 o => exact two o _ _
  | psDiv o => exact two o _ _
  | psSub o => exact two o _ _
  | psAdd o => exact two o _ _
  | psRes o => exact two o _ _
  | psMul o => exact two o _ _
  | psRsqrte o => exact two o _ _
  | psMsub o => exact two o _ _
  | psMadd o => exact two o _ _
  | psNmsub o => exact two o _ _
  | psNmadd o => exact two o _ _
  | psSel o => exact (Bool.false_ne_true h).elim
  | psNeg o => exact (Bool.false_ne_true h).elim
  | psMr o => exact (Bool.false_ne_true h).elim
  | psNabs o => exact (Bool.false_ne_true h).elim
  | psAbs o => exact (Bool.false_ne_true h).elim
  | psMerge00 o => exact (Bool.false_ne_true h).elim
  | psMerge01 o => exact (Bool.false_ne_true h).elim
  | psMerge10 o => exact (Bool.false_ne_true h).elim
  | psMerge11 o => exact (Bool.false_ne_true h).elim

/-- `execWith_engine` at the spec's parameters. -/
theorem exec_engine (i : Instr) (s : State) (h : i.runsEngine = true) :
    ∃ x fs v sig, exec i s = .next (EngineEffect .spec i.operands s x fs v sig) ∧
      (∀ y, x = some y → IsExtended y.ps0) ∧ (∀ u, v = some u → IsExtended u) := by
  rw [exec_eq_execWith]
  exact execWith_engine .spec i s h

/-- Everything a move, merge or select can do: one write of both lanes, the mirror, and no FPSCR bit. -/
theorem execWith_quiet (P : Params) (i : Instr) (s : State) (h : i.runsEngine = false) :
    ∃ y, execWith P i s = .next ((s.writeReg i.operands.frD y).mirror i.operands.rc) := by
  cases i with
  | psSel o => exact ⟨_, rfl⟩
  | psNeg o => exact ⟨_, rfl⟩
  | psMr o => exact ⟨_, rfl⟩
  | psNabs o => exact ⟨_, rfl⟩
  | psAbs o => exact ⟨_, rfl⟩
  | psMerge00 o => exact ⟨_, rfl⟩
  | psMerge01 o => exact ⟨_, rfl⟩
  | psMerge10 o => exact ⟨_, rfl⟩
  | psMerge11 o => exact ⟨_, rfl⟩
  | psSum0 o => exact (Bool.false_ne_true h.symm).elim
  | psSum1 o => exact (Bool.false_ne_true h.symm).elim
  | psMuls0 o => exact (Bool.false_ne_true h.symm).elim
  | psMuls1 o => exact (Bool.false_ne_true h.symm).elim
  | psMadds0 o => exact (Bool.false_ne_true h.symm).elim
  | psMadds1 o => exact (Bool.false_ne_true h.symm).elim
  | psDiv o => exact (Bool.false_ne_true h.symm).elim
  | psSub o => exact (Bool.false_ne_true h.symm).elim
  | psAdd o => exact (Bool.false_ne_true h.symm).elim
  | psRes o => exact (Bool.false_ne_true h.symm).elim
  | psMul o => exact (Bool.false_ne_true h.symm).elim
  | psRsqrte o => exact (Bool.false_ne_true h.symm).elim
  | psMsub o => exact (Bool.false_ne_true h.symm).elim
  | psMadd o => exact (Bool.false_ne_true h.symm).elim
  | psNmsub o => exact (Bool.false_ne_true h.symm).elim
  | psNmadd o => exact (Bool.false_ne_true h.symm).elim

/-- `execWith_quiet` at the spec's parameters. -/
theorem exec_quiet (i : Instr) (s : State) (h : i.runsEngine = false) :
    ∃ y, exec i s = .next ((s.writeReg i.operands.frD y).mirror i.operands.rc) := by
  rw [exec_eq_execWith]
  exact execWith_quiet .spec i s h

/-! ### Fields of the engine's effect -/

section EffectFields

variable (P : Params) (o : Operands) (s : State) (x : Option Fpr) (fs : List SlotFlags) (v : Option B64) (sig : Signals)

@[simp] theorem engineEffect_fpscr : (EngineEffect P o s x fs v sig).fpscr = engineWord P s.fpscr fs v sig := by
  simp [EngineEffect]

@[simp] theorem engineEffect_program : (EngineEffect P o s x fs v sig).program = s.program := by
  simp [EngineEffect]

@[simp] theorem reg_engineEffect (r : RegIdx) :
    (EngineEffect P o s x fs v sig).reg r = (s.maybeWrite o.frD x).reg r := by
  simp [EngineEffect]

theorem engineEffect_cr1 :
    (EngineEffect P o s x fs v sig).cr1 = if o.rc then Fpscr.rc1 (engineWord P s.fpscr fs v sig) else s.cr1 := by
  simp [EngineEffect, mirror_cr1]

end EffectFields

/-! ### Fields of the engine's word -/

section EngineWord

variable {P : Params} (hL : P.layout.Lawful)
include hL

theorem get_updateFprf (w : B32) (v : B64) (b : FpscrBit) :
    Fpscr.get (P.updateFprf w v) b P.layout = Fpscr.get w b P.layout :=
  get_writeFprf hL w _ b

theorem fprf_updateFprf (w : B32) (v : B64) : Fpscr.fprf (P.updateFprf w v) P.layout = P.fprfCode (class64 v) :=
  fprf_writeFprf hL w _

theorem rn_updateFprf (w : B32) (v : B64) : Fpscr.rn (P.updateFprf w v) P.layout = Fpscr.rn w P.layout :=
  rn_writeFprf hL w _

/-- A list of slots' flags raised one after another, bit by bit. -/
theorem get_foldl_raiseFlags (fs : List SlotFlags) (w : B32) (c : FpscrBit) :
    Fpscr.get (fs.foldl (raiseFlags P.layout) w) c P.layout =
      (Fpscr.get w c P.layout || fs.any fun f => f.bit c) := by
  induction fs generalizing w with
  | nil => simp
  | cons f fs ih => simp [ih, get_raiseFlags hL, Bool.or_assoc]

theorem getLsbD_foldl_raiseFlags_wide (fs : List SlotFlags) (w : B32) {i : Nat} (h : isWideField P.layout i) :
    (fs.foldl (raiseFlags P.layout) w).getLsbD i = w.getLsbD i := by
  induction fs generalizing w with
  | nil => rfl
  | cons f fs ih => rw [List.foldl_cons, ih, getLsbD_raiseFlags_wide hL w f h]

/-- FPRF after the engine: the class code of the value given, or as before. -/
theorem fprf_engineWord (old : B32) (fs : List SlotFlags) (v : Option B64) (sig : Signals) :
    Fpscr.fprf (engineWord P old fs v sig) P.layout =
      v.elim (Fpscr.fprf old P.layout) fun u => P.fprfCode (class64 u) := by
  unfold engineWord
  rw [fprf_updateFpscr hL]
  cases v with
  | none => exact fprf_congr fun _ h1 h2 => getLsbD_foldl_raiseFlags_wide hL fs old (Or.inl ⟨h1, h2⟩)
  | some u => exact fprf_updateFprf hL _ u

/-- RN after the engine is RN before. -/
theorem rn_engineWord (old : B32) (fs : List SlotFlags) (v : Option B64) (sig : Signals) :
    Fpscr.rn (engineWord P old fs v sig) P.layout = Fpscr.rn old P.layout := by
  have hf : Fpscr.rn (fs.foldl (raiseFlags P.layout) old) P.layout = Fpscr.rn old P.layout :=
    rn_congr fun _ h1 h2 => getLsbD_foldl_raiseFlags_wide hL fs old (Or.inr ⟨h1, h2⟩)
  unfold engineWord
  rw [rn_updateFpscr hL]
  cases v with
  | none => exact hf
  | some u => exact (rn_updateFprf hL _ u).trans hf

/-- The one-bit fields after the engine. -/
theorem get_engineWord (old : B32) (fs : List SlotFlags) (v : Option B64) (sig : Signals) (b : FpscrBit)
    (hVX : b ≠ .VX) (hFEX : b ≠ .FEX) (hFX : b ≠ .FX) :
    Fpscr.get (engineWord P old fs v sig) b P.layout =
      (Fpscr.get old b P.layout || fs.any (fun f => f.bit b) || sig.bit b) := by
  have hw : Fpscr.get (v.elim (fs.foldl (raiseFlags P.layout) old) (P.updateFprf (fs.foldl (raiseFlags P.layout) old)))
      b P.layout = (Fpscr.get old b P.layout || fs.any fun f => f.bit b) := by
    cases v with
    | none => exact get_foldl_raiseFlags hL fs old b
    | some u => exact (get_updateFprf hL _ u b).trans (get_foldl_raiseFlags hL fs old b)
  unfold engineWord
  rw [get_updateFpscr hL]
  cases b <;> first | exact absurd rfl hVX | exact absurd rfl hFEX | exact absurd rfl hFX | simp only [hw]

/-! ### The two-slot skeleton, field by field -/

theorem get_commitSlots (s : State) (d : RegIdx) (rc : Bool) (x0 x1 : Slot) (b : FpscrBit)
    (hVX : b ≠ .VX) (hFEX : b ≠ .FEX) (hFX : b ≠ .FX) :
    Fpscr.get (s.commitSlots P d rc x0 x1).fpscr b P.layout =
      (Fpscr.get s.fpscr b P.layout || (x0.flags.bit b || x1.flags.bit b) || (x0.sig.union x1.sig).bit b) := by
  rw [commitSlots_eq, mirror_fpscr, setFpscr_fpscr, get_engineWord hL _ _ _ _ _ hVX hFEX hFX]
  simp

theorem fprf_commitSlots (s : State) (d : RegIdx) (rc : Bool) (x0 x1 : Slot) :
    Fpscr.fprf (s.commitSlots P d rc x0 x1).fpscr P.layout =
      match x0.result with
      | some r => P.fprfCode (class64 (extendFloat r.1))
      | none => Fpscr.fprf s.fpscr P.layout := by
  rw [commitSlots_eq, mirror_fpscr, setFpscr_fpscr, fprf_engineWord hL, Slot.fprfValue]
  cases x0.result <;> rfl

end EngineWord

/-- A slot without a result: no register changes. -/
theorem reg_commitSlots_none (s : State) (P : Params) (d r : RegIdx) (rc : Bool) (x0 x1 : Slot)
    (h : x0.result = none ∨ x1.result = none) : (s.commitSlots P d rc x0 x1).reg r = s.reg r := by
  rw [commitSlots_eq, reg_mirror, reg_setFpscr]
  have : slotsWrite x0 x1 = none := by
    unfold slotsWrite
    rcases h with h | h <;> rw [h]
    split
    · contradiction
    · rfl
  rw [this, maybeWrite_none]

/-- Two results: both lanes of the destination, and no other register. -/
theorem reg_commitSlots_some (s : State) (P : Params) (d r : RegIdx) (rc : Bool) (x0 x1 : Slot)
    (r0 r1 : B32 × Signals) (h0 : x0.result = some r0) (h1 : x1.result = some r1) :
    (s.commitSlots P d rc x0 x1).reg r =
      if d = r then { ps0 := extendFloat r0.1, ps1 := r1.1 } else s.reg r := by
  rw [commitSlots_eq, reg_mirror, reg_setFpscr]
  have : slotsWrite x0 x1 = some { ps0 := extendFloat r0.1, ps1 := r1.1 } := by
    unfold slotsWrite
    rw [h0, h1]
  rw [this, maybeWrite_some, reg_writeReg]

end Sys2Proof.Machine
end

