-- ==== Sys2Proof/Laws/Float.lean ====
section
/-!
SUPPORT. Patterns and their fields: what `pack32`, `pack64` put together, the field accessors take apart.
-/

namespace Sys2Proof.Machine

@[simp] theorem sign32_pack32 (s : Bool) (e : BitVec 8) (f : BitVec 23) : sign32 (pack32 s e f) = s := by
  unfold sign32 pack32
  simp only [BitVec.getLsbD_append]
  simp

@[simp] theorem exp32_pack32 (s : Bool) (e : BitVec 8) (f : BitVec 23) : exp32 (pack32 s e f) = e := by
  unfold exp32 pack32
  apply BitVec.eq_of_getLsbD_eq
  intro i hi
  simp only [BitVec.getLsbD_extractLsb', BitVec.getLsbD_append, hi, decide_true, Bool.true_and,
    show ¬ (23 + i < 23) by omega, if_false, show 23 + i - 23 = i by omega, if_true]

@[simp] theorem frac32_pack32 (s : Bool) (e : BitVec 8) (f : BitVec 23) : frac32 (pack32 s e f) = f := by
  unfold frac32 pack32
  apply BitVec.eq_of_getLsbD_eq
  intro i hi
  simp only [BitVec.getLsbD_extractLsb', BitVec.getLsbD_append, hi, decide_true, Bool.true_and, Nat.zero_add, if_true]

theorem pack32_fields (v : B32) : pack32 (sign32 v) (exp32 v) (frac32 v) = v := by
  unfold sign32 pack32 exp32 frac32
  apply BitVec.eq_of_getLsbD_eq
  intro i hi
  simp only [BitVec.getLsbD_extractLsb', BitVec.getLsbD_append]
  split
  · simp [*]
  · split
    · rename_i h1 h2
      simp [h2, show 23 + (i - 23) = i by omega]
    · rename_i h1 h2
      obtain rfl : i = 31 := by omega
      simp

@[simp] theorem sign64_pack64 (s : Bool) (e : BitVec 11) (f : BitVec 52) : sign64 (pack64 s e f) = s := by
  unfold sign64 pack64
  simp only [BitVec.getLsbD_append]
  simp

@[simp] theorem exp64_pack64 (s : Bool) (e : BitVec 11) (f : BitVec 52) : exp64 (pack64 s e f) = e := by
  unfold exp64 pack64
  apply BitVec.eq_of_getLsbD_eq
  intro i hi
  simp only [BitVec.getLsbD_extractLsb', BitVec.getLsbD_append, hi, decide_true, Bool.true_and,
    show ¬ (52 + i < 52) by omega, if_false, show 52 + i - 52 = i by omega, if_true]

@[simp] theorem frac64_pack64 (s : Bool) (e : BitVec 11) (f : BitVec 52) : frac64 (pack64 s e f) = f := by
  unfold frac64 pack64
  apply BitVec.eq_of_getLsbD_eq
  intro i hi
  simp only [BitVec.getLsbD_extractLsb', BitVec.getLsbD_append, hi, decide_true, Bool.true_and, Nat.zero_add, if_true]

theorem pack64_fields (v : B64) : pack64 (sign64 v) (exp64 v) (frac64 v) = v := by
  unfold sign64 pack64 exp64 frac64
  apply BitVec.eq_of_getLsbD_eq
  intro i hi
  simp only [BitVec.getLsbD_extractLsb', BitVec.getLsbD_append]
  split
  · simp [*]
  · split
    · rename_i h1 h2
      simp [h2, show 52 + (i - 52) = i by omega]
    · rename_i h1 h2
      obtain rfl : i = 63 := by omega
      simp

/-- The high fraction bits of a packed binary64 are the high bits of its fraction. -/
@[simp] theorem fracHigh_pack64 (s : Bool) (e : BitVec 11) (f : BitVec 52) :
    fracHigh (pack64 s e f) = f.extractLsb' 29 23 := by
  unfold fracHigh pack64
  apply BitVec.eq_of_getLsbD_eq
  intro i hi
  simp only [BitVec.getLsbD_extractLsb', BitVec.getLsbD_append, hi, decide_true, Bool.true_and,
    show 29 + i < 52 by omega, if_true]

/-- A binary32 fraction, widened by 29 zeros, has itself as its high bits. -/
@[simp] theorem extract_widened_frac (f : BitVec 23) : (f ++ (0 : BitVec 29)).extractLsb' 29 23 = f := by
  apply BitVec.eq_of_getLsbD_eq
  intro i hi
  simp only [BitVec.getLsbD_extractLsb', BitVec.getLsbD_append, hi, decide_true, Bool.true_and,
    show ¬ (29 + i < 29) by omega, if_false, show 29 + i - 29 = i by omega]

/-- The widened fraction is zero exactly when the fraction is. -/
@[simp] theorem widened_frac_eq_zero (f : BitVec 23) : (f ++ (0 : BitVec 29) = 0) ↔ f = 0 := by
  constructor
  · intro h
    rw [← extract_widened_frac f, h]
    rfl
  · rintro rfl
    rfl

theorem ext32 {v w : B32} (hs : sign32 v = sign32 w) (he : exp32 v = exp32 w) (hf : frac32 v = frac32 w) : v = w := by
  rw [← pack32_fields v, ← pack32_fields w, hs, he, hf]

theorem ext64 {v w : B64} (hs : sign64 v = sign64 w) (he : exp64 v = exp64 w) (hf : frac64 v = frac64 w) : v = w := by
  rw [← pack64_fields v, ← pack64_fields w, hs, he, hf]

/-- The quiet bit of a binary32 is the top bit of its fraction. -/
theorem quietBit32 (v : B32) : v.getLsbD 22 = (frac32 v).getLsbD 22 := by
  unfold frac32
  simp

/-- The quiet bit of a binary64 is the top bit of its fraction. -/
theorem quietBit64 (v : B64) : v.getLsbD 51 = (frac64 v).getLsbD 51 := by
  unfold frac64
  simp

end Sys2Proof.Machine
end

