-- ==== Sys2Proof/Laws/PerInstr.lean ====
section
/-!
SUPPORT. Statements made of each instruction as syntax. EncodingMatchesRow: the word of an instruction matches the mask
and the match that the opcode table gives its row (30_encoding.md R68), whatever its operands.
-/

namespace Sys2Proof.Laws.EncodingMatchesRow

/-- The instruction is made by a row of the opcode table, and its word matches that row. -/
def Statement (i : Instr) : Prop :=
  ∃ row ∈ opcodeTable, row.make i.operands = i ∧ encode i &&& row.mask = row.pattern

/-- The primary and extended opcode are all that the format A mask keeps. -/
theorem wordA_masked (xo : BitVec 5) (o : Operands) :
    wordA xo o &&& 0xFC00003E = 0x10000000 ||| (xo.setWidth 32 <<< 1) := by
  apply BitVec.eq_of_getLsbD_eq
  intro i hi
  rw [BitVec.getLsbD_and, getLsbD_wordA]
  interval_cases i <;> simp

/-- The primary and extended opcode are all that the format X mask keeps. -/
theorem wordX_masked (xo : BitVec 10) (o : Operands) :
    wordX xo o &&& 0xFC0007FE = 0x10000000 ||| (xo.setWidth 32 <<< 1) := by
  apply BitVec.eq_of_getLsbD_eq
  intro i hi
  rw [BitVec.getLsbD_and, getLsbD_wordX]
  interval_cases i <;> simp

theorem psSum0 (o : Operands) : Statement (.psSum0 o) :=
  ⟨opcodeTable[0]'(by decide), List.getElem_mem _, rfl, wordA_masked _ o⟩

theorem psSum1 (o : Operands) : Statement (.psSum1 o) :=
  ⟨opcodeTable[1]'(by decide), List.getElem_mem _, rfl, wordA_masked _ o⟩

theorem psMuls0 (o : Operands) : Statement (.psMuls0 o) :=
  ⟨opcodeTable[2]'(by decide), List.getElem_mem _, rfl, wordA_masked _ o⟩

theorem psMuls1 (o : Operands) : Statement (.psMuls1 o) :=
  ⟨opcodeTable[3]'(by decide), List.getElem_mem _, rfl, wordA_masked _ o⟩

theorem psMadds0 (o : Operands) : Statement (.psMadds0 o) :=
  ⟨opcodeTable[4]'(by decide), List.getElem_mem _, rfl, wordA_masked _ o⟩

theorem psMadds1 (o : Operands) : Statement (.psMadds1 o) :=
  ⟨opcodeTable[5]'(by decide), List.getElem_mem _, rfl, wordA_masked _ o⟩

theorem psDiv (o : Operands) : Statement (.psDiv o) :=
  ⟨opcodeTable[6]'(by decide), List.getElem_mem _, rfl, wordA_masked _ o⟩

theorem psSub (o : Operands) : Statement (.psSub o) :=
  ⟨opcodeTable[7]'(by decide), List.getElem_mem _, rfl, wordA_masked _ o⟩

theorem psAdd (o : Operands) : Statement (.psAdd o) :=
  ⟨opcodeTable[8]'(by decide), List.getElem_mem _, rfl, wordA_masked _ o⟩

theorem psSel (o : Operands) : Statement (.psSel o) :=
  ⟨opcodeTable[9]'(by decide), List.getElem_mem _, rfl, wordA_masked _ o⟩

theorem psRes (o : Operands) : Statement (.psRes o) :=
  ⟨opcodeTable[10]'(by decide), List.getElem_mem _, rfl, wordA_masked _ o⟩

theorem psMul (o : Operands) : Statement (.psMul o) :=
  ⟨opcodeTable[11]'(by decide), List.getElem_mem _, rfl, wordA_masked _ o⟩

theorem psRsqrte (o : Operands) : Statement (.psRsqrte o) :=
  ⟨opcodeTable[12]'(by decide), List.getElem_mem _, rfl, wordA_masked _ o⟩

theorem psMsub (o : Operands) : Statement (.psMsub o) :=
  ⟨opcodeTable[13]'(by decide), List.getElem_mem _, rfl, wordA_masked _ o⟩

theorem psMadd (o : Operands) : Statement (.psMadd o) :=
  ⟨opcodeTable[14]'(by decide), List.getElem_mem _, rfl, wordA_masked _ o⟩

theorem psNmsub (o : Operands) : Statement (.psNmsub o) :=
  ⟨opcodeTable[15]'(by decide), List.getElem_mem _, rfl, wordA_masked _ o⟩

theorem psNmadd (o : Operands) : Statement (.psNmadd o) :=
  ⟨opcodeTable[16]'(by decide), List.getElem_mem _, rfl, wordA_masked _ o⟩

theorem psNeg (o : Operands) : Statement (.psNeg o) :=
  ⟨opcodeTable[17]'(by decide), List.getElem_mem _, rfl, wordX_masked _ o⟩

theorem psMr (o : Operands) : Statement (.psMr o) :=
  ⟨opcodeTable[18]'(by decide), List.getElem_mem _, rfl, wordX_masked _ o⟩

theorem psNabs (o : Operands) : Statement (.psNabs o) :=
  ⟨opcodeTable[19]'(by decide), List.getElem_mem _, rfl, wordX_masked _ o⟩

theorem psAbs (o : Operands) : Statement (.psAbs o) :=
  ⟨opcodeTable[20]'(by decide), List.getElem_mem _, rfl, wordX_masked _ o⟩

theorem psMerge00 (o : Operands) : Statement (.psMerge00 o) :=
  ⟨opcodeTable[21]'(by decide), List.getElem_mem _, rfl, wordX_masked _ o⟩

theorem psMerge01 (o : Operands) : Statement (.psMerge01 o) :=
  ⟨opcodeTable[22]'(by decide), List.getElem_mem _, rfl, wordX_masked _ o⟩

theorem psMerge10 (o : Operands) : Statement (.psMerge10 o) :=
  ⟨opcodeTable[23]'(by decide), List.getElem_mem _, rfl, wordX_masked _ o⟩

theorem psMerge11 (o : Operands) : Statement (.psMerge11 o) :=
  ⟨opcodeTable[24]'(by decide), List.getElem_mem _, rfl, wordX_masked _ o⟩

end Sys2Proof.Laws.EncodingMatchesRow
end

