-- ==== Sys2Proof/Laws/Rounding.lean ====
section
/-!
SUPPORT. What the exact arithmetic under the roundings computes, in real numbers: scaling by a power of two, the integer
square root, the floor of a scaled magnitude, and the values of exact sums, products, magnitudes and quotients.
-/

namespace Sys2Proof.Machine

/-! ### Scaling -/

theorem scaleBy_den_pos {num den : Nat} (hd : 0 < den) (k : Int) : 0 < (scaleBy num den k).2 := by
  unfold scaleBy
  split
  · exact hd
  · exact Nat.mul_pos hd (by positivity)

theorem scaleBy_num_pos {num den : Nat} (hn : 0 < num) (k : Int) : 0 < (scaleBy num den k).1 := by
  unfold scaleBy
  split
  · exact Nat.mul_pos hn (by positivity)
  · exact hn

/-- `scaleBy` multiplies the quotient by `2^k`. -/
theorem scaleBy_value (num den : Nat) (k : Int) :
    ((scaleBy num den k).1 : ℝ) / (scaleBy num den k).2 = (num : ℝ) / den * 2 ^ k := by
  unfold scaleBy
  split
  · obtain ⟨n, rfl⟩ := Int.eq_ofNat_of_zero_le ‹0 ≤ k›
    push_cast
    simp
    ring
  · obtain ⟨n, hn⟩ := Int.eq_ofNat_of_zero_le (show 0 ≤ -k by omega)
    obtain rfl : k = -(n : ℤ) := by omega
    simp only [neg_neg, Int.toNat_natCast, zpow_neg, zpow_natCast]
    push_cast
    field_simp

/-! ### The integer square root -/

theorem isqrtFrom_le (n b r : Nat) (h : r * r ≤ n) : isqrtFrom n b r * isqrtFrom n b r ≤ n := by
  induction b generalizing r with
  | zero => exact h
  | succ b ih =>
    unfold isqrtFrom
    split
    · exact ih _ ‹_›
    · exact ih _ h

theorem lt_isqrtFrom (n b r : Nat) (h : n < (r + 2 ^ b) * (r + 2 ^ b)) :
    n < (isqrtFrom n b r + 1) * (isqrtFrom n b r + 1) := by
  induction b generalizing r with
  | zero => exact h
  | succ b ih =>
    unfold isqrtFrom
    split
    · refine ih _ ?_
      convert h using 2 <;> ring
    · exact ih _ (by omega)

theorem isqrt_le (n : Nat) : isqrt n * isqrt n ≤ n := isqrtFrom_le n _ 0 (by omega)

theorem lt_isqrt (n : Nat) : n < (isqrt n + 1) * (isqrt n + 1) := by
  apply lt_isqrtFrom
  rw [Nat.zero_add, ← pow_add]
  exact (Nat.lt_log2_self (n := n)).trans_le (Nat.pow_le_pow_right (by omega) (by omega))

/-! ### The floor of a scaled magnitude -/

/-- `f` is the floor of `y`, and the flag is false exactly when nothing was cut off. -/
def IsFloor (f : Nat × Bool) (y : ℝ) : Prop := (f.1 : ℝ) ≤ y ∧ y < f.1 + 1 ∧ (f.2 = false ↔ (f.1 : ℝ) = y)

theorem floorAt_quotient (num den : Nat) (hd : 0 < den) (k : Int) :
    IsFloor ((Magnitude.quotient num den).floorAt k) ((num : ℝ) / den * 2 ^ k) := by
  have hr := scaleBy_value num den k
  have hpos := scaleBy_den_pos (num := num) hd k
  simp only [Magnitude.floorAt]
  generalize scaleBy num den k = ab at *
  obtain ⟨a, b⟩ := ab
  simp only at hr hpos ⊢
  rw [← hr]
  have hb : (0 : ℝ) < b := by exact_mod_cast hpos
  have hdiv : (b : ℝ) * ((a / b : ℕ) : ℝ) + ((a % b : ℕ) : ℝ) = a := by exact_mod_cast Nat.div_add_mod a b
  have hlt : ((a % b : ℕ) : ℝ) < b := by exact_mod_cast Nat.mod_lt a hpos
  have hnn : (0 : ℝ) ≤ ((a % b : ℕ) : ℝ) := by positivity
  refine ⟨?_, ?_, ?_⟩
  · rw [le_div_iff₀ hb]
    linarith
  · rw [div_lt_iff₀ hb]
    linarith
  · rw [eq_div_iff hb.ne', bne_eq_false_iff_eq]
    constructor
    · intro h
      rw [h] at hdiv
      push_cast at hdiv
      linarith
    · intro h
      have : ((a % b : ℕ) : ℝ) = 0 := by linarith
      exact_mod_cast this

theorem floorAt_root (num den : Nat) (hd : 0 < den) (k : Int) :
    IsFloor ((Magnitude.root num den).floorAt k) (Real.sqrt ((num : ℝ) / den) * 2 ^ k) := by
  have hr := scaleBy_value num den (2 * k)
  have hpos := scaleBy_den_pos (num := num) hd (2 * k)
  simp only [Magnitude.floorAt]
  generalize scaleBy num den (2 * k) = ab at *
  obtain ⟨a, b⟩ := ab
  simp only at hr hpos ⊢
  have hb : (0 : ℝ) < b := by exact_mod_cast hpos
  have hsqrt : Real.sqrt ((num : ℝ) / den) * 2 ^ k = Real.sqrt (a / b) := by
    have hsq : (2 : ℝ) ^ (2 * k) = (2 ^ k) ^ 2 := by
      rw [← zpow_natCast, ← zpow_mul]
      ring_nf
    rw [hr, Real.sqrt_mul (by positivity), hsq, Real.sqrt_sq (by positivity)]
  rw [hsqrt]
  have hle := (Nat.le_div_iff_mul_le hpos).mp (isqrt_le (a / b))
  have hlt := (Nat.div_lt_iff_lt_mul hpos).mp (lt_isqrt (a / b))
  generalize isqrt (a / b) = r at *
  have hle' : (r : ℝ) * r * b ≤ a := by exact_mod_cast hle
  have hlt' : (a : ℝ) < (r + 1) * (r + 1) * b := by exact_mod_cast hlt
  refine ⟨?_, ?_, ?_⟩
  · apply Real.le_sqrt_of_sq_le
    rw [le_div_iff₀ hb]
    nlinarith
  · rw [Real.sqrt_lt' (by positivity), div_lt_iff₀ hb]
    nlinarith
  · rw [bne_eq_false_iff_eq]
    constructor
    · intro h
      have h' : (r : ℝ) * r * b = a := by exact_mod_cast h
      rw [← h', mul_div_assoc, div_self hb.ne', mul_one, Real.sqrt_mul_self (by positivity)]
    · intro h
      have hsq : (r : ℝ) ^ 2 = a / b := by rw [h, Real.sq_sqrt (by positivity)]
      rw [eq_div_iff hb.ne'] at hsq
      have : (r : ℝ) * r * b = a := by linarith [hsq, sq (r : ℝ)]
      exact_mod_cast this

/-! ### Exact values -/

/-- The real that an exact value is. -/
noncomputable def Exact.real (x : Exact) : ℝ := x.m * 2 ^ x.e

theorem Exact.real_add (x y : Exact) : (x.add y).real = x.real + y.real := by
  have shift : ∀ a b : ℤ, b ≤ a → (2 : ℝ) ^ (a - b).toNat * 2 ^ b = 2 ^ a := by
    intro a b h
    rw [← zpow_natCast, ← zpow_add₀ (by norm_num)]
    congr 1
    omega
  simp only [Exact.real, Exact.add]
  push_cast
  rw [add_mul, mul_assoc, mul_assoc, shift _ _ (min_le_left _ _), shift _ _ (min_le_right _ _)]

theorem Exact.real_mul (x y : Exact) : (x.mul y).real = x.real * y.real := by
  simp only [Exact.real, Exact.mul]
  rw [zpow_add₀ (by norm_num)]
  push_cast
  ring

theorem Exact.real_eq_zero (x : Exact) : x.real = 0 ↔ x.m = 0 := by
  have : (2 : ℝ) ^ x.e ≠ 0 := by positivity
  simp [Exact.real, this]

theorem Exact.neg_iff (x : Exact) : x.neg = true ↔ x.real < 0 := by
  have hpos : (0 : ℝ) < 2 ^ x.e := by positivity
  rw [Exact.neg, decide_eq_true_eq, Exact.real, mul_neg_iff]
  constructor
  · exact fun h => Or.inr ⟨by exact_mod_cast h, hpos⟩
  · rintro (⟨-, h⟩ | ⟨h, -⟩)
    · exact absurd h hpos.not_gt
    · exact_mod_cast h

theorem Exact.abs_real (x : Exact) : |x.real| = x.m.natAbs * 2 ^ x.e := by
  rw [Exact.real, abs_mul, abs_of_pos (by positivity : (0 : ℝ) < 2 ^ x.e), Nat.cast_natAbs]
  push_cast
  rfl

/-- The magnitude of an exact value is the quotient whose real is its absolute value. -/
theorem Exact.magnitude_value (x : Exact) :
    ∃ num den : Nat, x.magnitude = .quotient num den ∧ 0 < den ∧ (x.m ≠ 0 → 0 < num) ∧ (num : ℝ) / den = |x.real| :=
  ⟨(scaleBy x.m.natAbs 1 x.e).1, (scaleBy x.m.natAbs 1 x.e).2, rfl, scaleBy_den_pos (by omega) _,
    fun h => scaleBy_num_pos (Int.natAbs_pos.mpr h) _, by
    rw [scaleBy_value, x.abs_real]
    simp⟩

/-- The quotient of two exact values is the quotient whose real is that of their absolute values. -/
theorem Exact.quotient_value (x y : Exact) (hy : y.m ≠ 0) :
    ∃ num den : Nat, x.quotient y = .quotient num den ∧ 0 < den ∧ (x.m ≠ 0 → 0 < num) ∧
      (num : ℝ) / den = |x.real / y.real| :=
  ⟨(scaleBy x.m.natAbs y.m.natAbs (x.e - y.e)).1, (scaleBy x.m.natAbs y.m.natAbs (x.e - y.e)).2, rfl,
    scaleBy_den_pos (Int.natAbs_pos.mpr hy) _, fun h => scaleBy_num_pos (Int.natAbs_pos.mpr h) _, by
    have : (y.m.natAbs : ℝ) ≠ 0 := by exact_mod_cast (Int.natAbs_pos.mpr hy).ne'
    rw [scaleBy_value, abs_div, x.abs_real, y.abs_real, zpow_sub₀ (by norm_num)]
    field_simp⟩

/-! ### Zeros and signs of patterns -/

/-- A binary64 is a zero exactly when its exact value is. -/
theorem isZero64_iff (v : B64) : isZero64 v = true ↔ (val64 v).m = 0 := by
  have hf : frac64 v = 0 ↔ (frac64 v).toNat = 0 := by
    rw [← BitVec.toNat_inj]
    simp
  simp only [isZero64, val64, Bool.and_eq_true, beq_iff_eq]
  rw [hf]
  by_cases h : exp64 v = 0 <;> simp only [h, if_true, if_false, true_and, false_and] <;>
    cases sign64 v <;> simp <;> omega

/-- A binary32 is a zero exactly when its exact value is. -/
theorem isZero32_iff (v : B32) : isZero32 v = true ↔ (val32 v).m = 0 := by
  have hf : frac32 v = 0 ↔ (frac32 v).toNat = 0 := by
    rw [← BitVec.toNat_inj]
    simp
  simp only [isZero32, val32, Bool.and_eq_true, beq_iff_eq]
  rw [hf]
  by_cases h : exp32 v = 0 <;> simp only [h, if_true, if_false, true_and, false_and] <;>
    cases sign32 v <;> simp <;> omega

end Sys2Proof.Machine
end

