-- ==== Sys2Proof/Laws/Signals.lean ====
section
/-!
SUPPORT. Which operations can signal a division by zero: rounding, addition, multiplication and the fused operation
never do; a division does only on a zero divisor.
-/

namespace Sys2Proof.Machine

@[simp] theorem Signals.none_dz : Signals.none.dz = false := rfl
@[simp] theorem Signals.none_of : Signals.none.of = false := rfl
@[simp] theorem Signals.none_uf : Signals.none.uf = false := rfl
@[simp] theorem Signals.none_inx : Signals.none.inx = false := rfl

@[simp] theorem Signals.union_dz (s t : Signals) : (s.union t).dz = (s.dz || t.dz) := rfl
@[simp] theorem Signals.union_of (s t : Signals) : (s.union t).of = (s.of || t.of) := rfl
@[simp] theorem Signals.union_uf (s t : Signals) : (s.union t).uf = (s.uf || t.uf) := rfl
@[simp] theorem Signals.union_inx (s t : Signals) : (s.union t).inx = (s.inx || t.inx) := rfl

@[simp] theorem round_dz (fmt : FpFormat) (tin : Tininess) (rm : RoundMode) (s : Bool) (x : Magnitude) :
    (round fmt tin rm s x).2.dz = false := by
  simp only [round]
  repeat' split
  all_goals rfl

@[simp] theorem roundExact64_dz (rm : RoundMode) (x : Exact) (tin : Tininess) : (roundExact64 rm x tin).2.dz = false := by
  simp only [roundExact64, round_dz]

@[simp] theorem roundF32_dz (v : B64) (rm : RoundMode) (tin : Tininess) : (roundF32 v rm tin).2.dz = false := by
  simp only [roundF32, apply_ite Prod.snd, apply_ite Signals.dz, round_dz, Signals.none_dz, ite_self]

@[simp] theorem notReached64_dz : notReached64.2.dz = false := rfl

@[simp] theorem add64_dz (a b : B64) (rm : RoundMode) (tin : Tininess) : (add64 a b rm tin).2.dz = false := by
  simp only [add64, apply_ite Prod.snd, apply_ite Signals.dz, roundExact64_dz, notReached64_dz, Signals.none_dz, ite_self]

@[simp] theorem sub64_dz (a b : B64) (rm : RoundMode) (tin : Tininess) : (sub64 a b rm tin).2.dz = false :=
  add64_dz _ _ _ _

@[simp] theorem mul64_dz (a b : B64) (rm : RoundMode) (tin : Tininess) : (mul64 a b rm tin).2.dz = false := by
  simp only [mul64, apply_ite Prod.snd, apply_ite Signals.dz, roundExact64_dz, notReached64_dz, Signals.none_dz, ite_self]

@[simp] theorem fma64_dz (a c b : B64) (rm : RoundMode) (tin : Tininess) : (fma64 a c b rm tin).2.dz = false := by
  simp only [fma64, apply_ite Prod.snd, apply_ite Signals.dz, roundExact64_dz, notReached64_dz, Signals.none_dz, ite_self]

/-- A division signals `dz` only on a zero divisor and a dividend that is not zero (R97). -/
theorem div64_dz {a b : B64} {rm : RoundMode} {tin : Tininess} (h : (div64 a b rm tin).2.dz = true) :
    isZero64 b = true ∧ isZero64 a = false := by
  simp only [div64, apply_ite Prod.snd, apply_ite Signals.dz, round_dz, notReached64_dz, Signals.none_dz, ite_self] at h
  cases ha : isZero64 a <;> cases hb : isZero64 b <;> simp_all

end Sys2Proof.Machine
end

