-- ==== Sys2Proof/Tests/Slice0.lean ====
section
/-!
SUPPORT. Tests and witnesses. Expected values come from the spec: the vectors A, E, F, G, K, L, M, S of
95_test_vectors.md section 4, its tables of section 3 and its words of section 5. A witness shows that the hypotheses of a
statement, and each of its clauses, are met by something.
-/

set_option Elab.async false

namespace Sys2Proof.Tests

open Sys2Proof.Machine

/-! ### Helpers -/

/-- The reset state with an FPSCR and some registers put in place. -/
def setup (fpscr : B32) (regs : List (RegIdx × Fpr)) : State :=
  regs.foldl (fun s r => s.writeReg r.1 r.2) (State.reset.setFpscr fpscr)

/-- One step on a word: register `d`, the FPSCR and CR1 afterwards. -/
def after (s : State) (word : Nat) (d : RegIdx) : Option (Fpr × B32 × BitVec 4) :=
  match step (s.withFetchWord 32 word) with
  | .next t => some (t.reg d, t.fpscr, t.cr1)
  | .fault _ => none
  | .refused _ => none

/-- The state after an instruction, when there is one. -/
def done (i : Instr) (s : State) : Option State :=
  match exec i s with
  | .next t => some t
  | .fault _ => none
  | .refused _ => none

/-- A property holds of the state after an instruction. -/
def endsIn (i : Instr) (s : State) (p : State → Bool) : Bool :=
  match done i s with
  | some t => p t
  | none => false

/-- The record that most vectors use: frD 3, frA 1, frB 2, frC 2. -/
def o3 : Operands := ⟨3, 1, 2, 2, false⟩

/-- The same with the record bit set. -/
def o3rc : Operands := ⟨3, 1, 2, 2, true⟩

/-- A state whose registers 1 and 2 hold `a` and `b`. -/
def two (fpscr : B32) (a b : Fpr) : State := setup fpscr [(1, a), (2, b)]

/-! ### Well-formedness: the smoke test -/

theorem test_wellFormed_formatA_any_frC : Instr.wellFormed (.psAdd ⟨3, 1, 2, 31, false⟩) = true := by decide
theorem test_wellFormed_formatX : Instr.wellFormed (.psMr ⟨1, 0, 2, 0, true⟩) = true := by decide
theorem test_illFormed_move_with_frC : Instr.wellFormed (.psMr ⟨1, 0, 2, 1, false⟩) = false := by decide
theorem test_illFormed_merge_with_frC : Instr.wellFormed (.psMerge11 ⟨1, 0, 2, 31, false⟩) = false := by decide

/-! ### Decoding: the words of 95_test_vectors.md section 5, bit by bit in the first of each format -/

/-- ps_madd. f31,f30,f28,f29: OPCD 4, frD 31, frA 30, frB 29, frC 28, XO5 29, rc 1 (R65, R68). -/
theorem test_decode_bits_formatA :
    decode (0b000100#6 ++ 0b11111#5 ++ 0b11110#5 ++ 0b11101#5 ++ 0b11100#5 ++ 0b11101#5 ++ 0b1#1) =
      .ok (.psMadd ⟨31, 30, 29, 28, true⟩) := by rfl
/-- ps_merge11. f31,f30,f29: OPCD 4, frD 31, frA 30, frB 29, XO10 624, rc 1. -/
theorem test_decode_bits_formatX :
    decode (0b000100#6 ++ 0b11111#5 ++ 0b11110#5 ++ 0b11101#5 ++ 0b1001110000#10 ++ 0b1#1) =
      .ok (.psMerge11 ⟨31, 30, 29, 0, true⟩) := by rfl
theorem test_decode_add : decode 0x1061102A = .ok (.psAdd ⟨3, 1, 2, 0, false⟩) := by rfl
theorem test_decode_sub : decode 0x10611028 = .ok (.psSub ⟨3, 1, 2, 0, false⟩) := by rfl
theorem test_decode_mul : decode 0x106100B2 = .ok (.psMul ⟨3, 1, 0, 2, false⟩) := by rfl
theorem test_decode_div : decode 0x10611024 = .ok (.psDiv ⟨3, 1, 2, 0, false⟩) := by rfl
theorem test_decode_muls0 : decode 0x10610098 = .ok (.psMuls0 ⟨3, 1, 0, 2, false⟩) := by rfl
theorem test_decode_muls1 : decode 0x1061009A = .ok (.psMuls1 ⟨3, 1, 0, 2, false⟩) := by rfl
theorem test_decode_sum0 : decode 0x108110D4 = .ok (.psSum0 ⟨4, 1, 2, 3, false⟩) := by rfl
theorem test_decode_sum1 : decode 0x108110D6 = .ok (.psSum1 ⟨4, 1, 2, 3, false⟩) := by rfl
theorem test_decode_madd : decode 0x108110FA = .ok (.psMadd ⟨4, 1, 2, 3, false⟩) := by rfl
theorem test_decode_madds0 : decode 0x108110DC = .ok (.psMadds0 ⟨4, 1, 2, 3, false⟩) := by rfl
theorem test_decode_madds1 : decode 0x108110DE = .ok (.psMadds1 ⟨4, 1, 2, 3, false⟩) := by rfl
theorem test_decode_msub : decode 0x108110F8 = .ok (.psMsub ⟨4, 1, 2, 3, false⟩) := by rfl
theorem test_decode_nmadd : decode 0x108110FE = .ok (.psNmadd ⟨4, 1, 2, 3, false⟩) := by rfl
theorem test_decode_nmsub : decode 0x108110FC = .ok (.psNmsub ⟨4, 1, 2, 3, false⟩) := by rfl
theorem test_decode_mr : decode 0x10201090 = .ok (.psMr ⟨1, 0, 2, 0, false⟩) := by rfl
theorem test_decode_neg : decode 0x10201050 = .ok (.psNeg ⟨1, 0, 2, 0, false⟩) := by rfl
theorem test_decode_abs : decode 0x10201210 = .ok (.psAbs ⟨1, 0, 2, 0, false⟩) := by rfl
theorem test_decode_nabs : decode 0x10201110 = .ok (.psNabs ⟨1, 0, 2, 0, false⟩) := by rfl
theorem test_decode_merge00 : decode 0x10611420 = .ok (.psMerge00 ⟨3, 1, 2, 0, false⟩) := by rfl
theorem test_decode_merge01 : decode 0x10611460 = .ok (.psMerge01 ⟨3, 1, 2, 0, false⟩) := by rfl
theorem test_decode_merge10 : decode 0x106114A0 = .ok (.psMerge10 ⟨3, 1, 2, 0, false⟩) := by rfl
theorem test_decode_merge11 : decode 0x106114E0 = .ok (.psMerge11 ⟨3, 1, 2, 0, false⟩) := by rfl
theorem test_decode_res : decode 0x10201030 = .ok (.psRes ⟨1, 0, 2, 0, false⟩) := by rfl
theorem test_decode_rsqrte : decode 0x10201034 = .ok (.psRsqrte ⟨1, 0, 2, 0, false⟩) := by rfl
theorem test_decode_sel : decode 0x108110EE = .ok (.psSel ⟨4, 1, 2, 3, false⟩) := by rfl
theorem test_decode_record_bit : decode 0x10201035 = .ok (.psRsqrte ⟨1, 0, 2, 0, true⟩) := by rfl
theorem test_decode_keeps_unread_field : decode 0x106117EA = .ok (.psAdd ⟨3, 1, 2, 31, false⟩) := by rfl
theorem test_decode_refuses_row_zero : decode 0x10000000 = .error .unassignedExtendedOpcode := by rfl
theorem test_decode_refuses_XO10_32 : decode 0x10000040 = .error .unassignedExtendedOpcode := by rfl
theorem test_decode_refuses_XO5_22 : decode 0x1000002C = .error .unassignedExtendedOpcode := by rfl
theorem test_decode_refuses_low_bits_only : decode 0x10000020 = .error .unassignedExtendedOpcode := by rfl
theorem test_decode_refuses_opcode_63 : decode 0xFC00002A = .error .notPrimaryOpcode4 := by rfl
theorem test_decode_refuses_opcode_0 : decode 0x00000000 = .error .notPrimaryOpcode4 := by rfl
theorem test_decodeBytes_big_endian :
    decodeBytes [0x10, 0x61, 0x10, 0x2A, 0x55] = .ok (.psAdd ⟨3, 1, 2, 0, false⟩, [0x55]) := by rfl
theorem test_decodeBytes_truncated : decodeBytes [0x10, 0x61, 0x10] = .error .truncated := by rfl
theorem test_encode_R73 : encode (.psSum1 ⟨4, 1, 2, 3, true⟩) = 0x108110D7 := by decide
theorem test_decodeTableWord_row : decodeTableWord 32 0x10000014 = some (.psSum0 ⟨0, 0, 0, 0, false⟩) := by rfl
theorem test_decodeTableWord_refuses : decodeTableWord 32 0x10000000 = none := by rfl

/-! ### The value model: rows of 95_test_vectors.md section 3 -/

theorem test_extendFloat_least_subnormal : extendFloat 0x00000001 = 0x36A0000000000000 := by decide +kernel
theorem test_extendFloat_largest_subnormal : extendFloat 0x007FFFFF = 0x380FFFFFC0000000 := by decide +kernel
theorem test_extendFloat_snan : extendFloat 0x7FABCDEF = 0x7FF579BDE0000000 := by decide +kernel
theorem test_truncBits_drops : truncBits 0x3FF00000FFFFFFFF = 0x3F800007 := by decide +kernel
theorem test_truncBits_below_least : truncBits 0x369FFFFFFFFFFFFF = 0x00000000 := by decide +kernel
theorem test_truncBits_low_payload : truncBits 0x7FF0000000000001 = 0x7F800000 := by decide +kernel
theorem test_roundF32_tie_to_even :
    roundF32 0x3FF0000030000000 .rne = (0x3F800002, { Signals.none with inx := true }) := by decide +kernel
theorem test_roundF32_overflow_rdn :
    roundF32 0xC7EFFFFFF0000000 .rdn = (0xFF800000, { Signals.none with of := true, inx := true }) := by decide +kernel
theorem test_roundF32_tiny_before_rounding_only :
    roundF32 0x380FFFFFF0000000 .rne = (0x00800000, { Signals.none with inx := true }) := by decide +kernel
theorem test_roundF32_subnormal_inexact :
    roundF32 0x3690000000000000 .rup = (0x00000001, { Signals.none with inx := true, uf := true }) := by decide +kernel
theorem test_class64_any_nan : (class64 0x7FF0000000000001).code = 0x11 := by decide +kernel

/-! ### One step: vectors of 95_test_vectors.md section 4, the identifier in the name -/

theorem test_M1_ps_mr :
    after (setup 0x00000000 [(2, ⟨0x7FF579BDE0000000, 0x7FABCDEF⟩), (1, ⟨0x4059000000000000, 0x42C80000⟩)]) 0x10201090 1 =
      some (⟨0x7FF579BDE0000000, 0x7FABCDEF⟩, 0x00000000, 0) := by decide +kernel
theorem test_M6_ps_mr :
    after (setup 0x00000001 [(2, ⟨0x3FF00000FFFFFFFF, 0x3F800000⟩), (1, ⟨0x4059000000000000, 0x42C80000⟩)]) 0x10201090 1 =
      some (⟨0x3FF00000E0000000, 0x3F800000⟩, 0x00000001, 0) := by decide +kernel
theorem test_M2_ps_neg :
    after (setup 0x00000000 [(2, ⟨0x7FF579BDE0000000, 0x7F800000⟩), (1, ⟨0x4059000000000000, 0x42C80000⟩)]) 0x10201050 1 =
      some (⟨0xFFF579BDE0000000, 0xFF800000⟩, 0x00000000, 0) := by decide +kernel
theorem test_M8_ps_neg :
    after (setup 0xE0800080 [(2, ⟨0x3FF8000000000000, 0xC0000000⟩)]) 0x10401051 2 =
      some (⟨0xBFF8000000000000, 0x40000000⟩, 0xE0800080, 0xE) := by decide +kernel
theorem test_M3_ps_abs :
    after (setup 0x00000000 [(2, ⟨0xFFF8000000000000, 0x80000000⟩), (1, ⟨0x4059000000000000, 0x42C80000⟩)]) 0x10201210 1 =
      some (⟨0x7FF8000000000000, 0x00000000⟩, 0x00000000, 0) := by decide +kernel
theorem test_M4_ps_nabs :
    after (setup 0x00000000 [(2, ⟨0x0000000000000000, 0x00000001⟩), (1, ⟨0x4059000000000000, 0x42C80000⟩)]) 0x10201110 1 =
      some (⟨0x8000000000000000, 0x80000001⟩, 0x00000000, 0) := by decide +kernel
theorem test_K1_ps_add :
    after (setup 0x00000000 [(1, ⟨0x7FF0000000000000, 0x3F800000⟩), (2, ⟨0xFFF0000000000000, 0x40000000⟩), (3, ⟨0x4059000000000000, 0x42C80000⟩)]) 0x1061102B 3 =
      some (⟨0x7FF8000000000000, 0x40400000⟩, 0xA0811000, 0xA) := by decide +kernel
theorem test_A3_ps_add :
    after (setup 0x00000080 [(1, ⟨0x7FF0000000000000, 0x3F800000⟩), (2, ⟨0xFFF0000000000000, 0x40000000⟩), (3, ⟨0x4059000000000000, 0x42C80000⟩)]) 0x1061102A 3 =
      some (⟨0x4059000000000000, 0x42C80000⟩, 0xE0800080, 0) := by decide +kernel
theorem test_A10_ps_sub :
    after (setup 0x00000003 [(1, ⟨0x3FF8000000000000, 0x3FC00000⟩), (2, ⟨0x3FF8000000000000, 0x3FC00000⟩), (3, ⟨0x4059000000000000, 0x42C80000⟩)]) 0x10611028 3 =
      some (⟨0x8000000000000000, 0x80000000⟩, 0x00012003, 0) := by decide +kernel
theorem test_A11_ps_sub :
    after (setup 0x00000000 [(1, ⟨0x7FF0000000000000, 0xFF800000⟩), (2, ⟨0x7FF0000000000000, 0x7F800000⟩), (3, ⟨0x4059000000000000, 0x42C80000⟩)]) 0x10611028 3 =
      some (⟨0x7FF8000000000000, 0xFF800000⟩, 0xA0811000, 0) := by decide +kernel
theorem test_A13_ps_mul :
    after (setup 0x00000000 [(1, ⟨0x7FF0000000000000, 0x80000000⟩), (2, ⟨0x0000000000000000, 0x7F800000⟩), (3, ⟨0x4059000000000000, 0x42C80000⟩)]) 0x106100B2 3 =
      some (⟨0x7FF8000000000000, 0x7FC00000⟩, 0xA0111000, 0) := by decide +kernel
theorem test_A16_ps_mul :
    after (setup 0x00000022 [(1, ⟨0x3810000020000000, 0x00000001⟩), (2, ⟨0x3FE0000000000000, 0x3F000000⟩), (3, ⟨0x4059000000000000, 0x42C80000⟩)]) 0x106100B2 3 =
      some (⟨0x3800000040000000, 0x00000001⟩, 0xCA004022, 0) := by decide +kernel
theorem test_A18_ps_div :
    after (setup 0x00000010 [(1, ⟨0x3FF0000000000000, 0x3F800000⟩), (2, ⟨0x0000000000000000, 0x40000000⟩), (3, ⟨0x4059000000000000, 0x42C80000⟩)]) 0x10611024 3 =
      some (⟨0x4059000000000000, 0x42C80000⟩, 0xC4000010, 0) := by decide +kernel
theorem test_A20_ps_div :
    after (setup 0x00000000 [(1, ⟨0x7FF0000000000000, 0x7FC00001⟩), (2, ⟨0x0000000000000000, 0x80000000⟩), (3, ⟨0x4059000000000000, 0x42C80000⟩)]) 0x10611024 3 =
      some (⟨0x7FF0000000000000, 0x7FC00001⟩, 0x84005000, 0) := by decide +kernel
theorem test_A23_ps_muls0 :
    after (setup 0x00000000 [(1, ⟨0x4000000000000000, 0x40400000⟩), (2, ⟨0x4010000000000000, 0x42C60000⟩), (3, ⟨0x4059000000000000, 0x42C80000⟩)]) 0x10610098 3 =
      some (⟨0x4020000000000000, 0x41400000⟩, 0x00004000, 0) := by decide +kernel
theorem test_A24_ps_muls0 :
    after (setup 0x00000000 [(1, ⟨0x4000000000000000, 0x7FC12345⟩), (2, ⟨0x7FF579BDE0000000, 0x42C60000⟩), (3, ⟨0x4059000000000000, 0x42C80000⟩)]) 0x10610098 3 =
      some (⟨0x7FFD79BDE0000000, 0x7FC12345⟩, 0xA1011000, 0) := by decide +kernel
theorem test_A25_ps_muls1 :
    after (setup 0x00000000 [(1, ⟨0x4000000000000000, 0x40400000⟩)]) 0x1021005A 1 =
      some (⟨0x4018000000000000, 0x41100000⟩, 0x00004000, 0) := by decide +kernel
theorem test_S1_ps_sum0 :
    after (setup 0x00000000 [(1, ⟨0x3FF8000000000000, 0x42C80000⟩), (2, ⟨0x4069000000000000, 0x40000000⟩), (3, ⟨0x4072C00000000000, 0x7FABCDEF⟩), (4, ⟨0x4059000000000000, 0x42C80000⟩)]) 0x108110D4 4 =
      some (⟨0x400C000000000000, 0x7FABCDEF⟩, 0x00004000, 0) := by decide +kernel
theorem test_S7_ps_sum0 :
    after (setup 0x00000000 [(1, ⟨0x7FF0000000000000, 0x00000000⟩), (2, ⟨0x0000000000000000, 0xFF800000⟩), (3, ⟨0x0000000000000000, 0x40E00000⟩), (4, ⟨0x4059000000000000, 0x42C80000⟩)]) 0x108110D4 4 =
      some (⟨0x7FF8000000000000, 0x40E00000⟩, 0xA0811000, 0) := by decide +kernel
theorem test_S6_ps_sum1 :
    after (setup 0x00000000 [(1, ⟨0x3FF8000000000000, 0x00000000⟩), (2, ⟨0x0000000000000000, 0x40000000⟩), (3, ⟨0x3690000000000001, 0x00000000⟩), (4, ⟨0x4059000000000000, 0x42C80000⟩)]) 0x108110D6 4 =
      some (⟨0x36A0000000000000, 0x40600000⟩, 0x88004000, 0) := by decide +kernel
theorem test_S9_ps_sum1 :
    after (setup 0x00000000 [(1, ⟨0x3FF0000000000000, 0x00000000⟩), (2, ⟨0x0000000000000000, 0x33800000⟩), (3, ⟨0xC000000000000000, 0x00000000⟩), (4, ⟨0x4059000000000000, 0x42C80000⟩)]) 0x108110D6 4 =
      some (⟨0xC000000000000000, 0x3F800000⟩, 0x82004000, 0) := by decide +kernel
theorem test_F9_ps_madd :
    after (setup 0x00000000 [(1, ⟨0x4070100000000000, 0x43808000⟩), (2, ⟨0x3F6FE02000000000, 0x3B7F0100⟩), (3, ⟨0x3C30000000000000, 0x21800000⟩), (4, ⟨0x4059000000000000, 0x42C80000⟩)]) 0x108118BA 4 =
      some (⟨0x3FF0000000000000, 0x3F800000⟩, 0x82004000, 0) := by decide +kernel
theorem test_F17_ps_madd :
    after (setup 0x00000080 [(1, ⟨0x7FF579BDE0000000, 0x3F800000⟩), (2, ⟨0x3FF0000000000000, 0x3F800000⟩), (3, ⟨0x3FF0000000000000, 0x4EFF0000⟩), (4, ⟨0x4059000000000000, 0x42C80000⟩)]) 0x108118BA 4 =
      some (⟨0x4059000000000000, 0x42C80000⟩, 0xE3000080, 0) := by decide +kernel
theorem test_F2_ps_madds0 :
    after (setup 0x00000000 [(1, ⟨0x4000000000000000, 0x40400000⟩), (2, ⟨0x4010000000000000, 0x40A00000⟩), (3, ⟨0x3FF0000000000000, 0x3F800000⟩), (4, ⟨0x4059000000000000, 0x42C80000⟩)]) 0x1081189C 4 =
      some (⟨0x4022000000000000, 0x41500000⟩, 0x00004000, 0) := by decide +kernel
theorem test_F18_ps_madds0 :
    after (setup 0x00000000 [(1, ⟨0x4000000000000000, 0x40400000⟩), (2, ⟨0x7FF0000000000000, 0x40A00000⟩), (3, ⟨0x3FF0000000000000, 0x3F800000⟩), (4, ⟨0x4059000000000000, 0x42C80000⟩)]) 0x1081189C 4 =
      some (⟨0x7FF0000000000000, 0x7F800000⟩, 0x00005000, 0) := by decide +kernel
theorem test_F3_ps_madds1 :
    after (setup 0x00000000 [(1, ⟨0x4000000000000000, 0x40400000⟩), (2, ⟨0x4010000000000000, 0x40A00000⟩), (3, ⟨0x3FF0000000000000, 0x3F800000⟩), (4, ⟨0x4059000000000000, 0x42C80000⟩)]) 0x1081189E 4 =
      some (⟨0x4026000000000000, 0x41800000⟩, 0x00004000, 0) := by decide +kernel
theorem test_F4_ps_msub :
    after (setup 0x00000000 [(1, ⟨0x4000000000000000, 0x40400000⟩), (2, ⟨0x4010000000000000, 0x40A00000⟩), (3, ⟨0x3FF0000000000000, 0x3F800000⟩), (4, ⟨0x4059000000000000, 0x42C80000⟩)]) 0x108118B8 4 =
      some (⟨0x401C000000000000, 0x41600000⟩, 0x00004000, 0) := by decide +kernel
theorem test_F10_ps_msub :
    after (setup 0x00000000 [(1, ⟨0x7FF0000000000000, 0x7F800000⟩), (2, ⟨0x4000000000000000, 0x40000000⟩), (3, ⟨0x7FF0000000000000, 0xFF800000⟩), (4, ⟨0x4059000000000000, 0x42C80000⟩)]) 0x108118B8 4 =
      some (⟨0x7FF8000000000000, 0x7F800000⟩, 0xA0811000, 0) := by decide +kernel
theorem test_F5_ps_nmadd :
    after (setup 0x00000000 [(1, ⟨0x4000000000000000, 0x40400000⟩), (2, ⟨0x4010000000000000, 0x40A00000⟩), (3, ⟨0x3FF0000000000000, 0x3F800000⟩), (4, ⟨0x4059000000000000, 0x42C80000⟩)]) 0x108118BE 4 =
      some (⟨0xC022000000000000, 0xC1800000⟩, 0x00008000, 0) := by decide +kernel
theorem test_F14_ps_nmadd :
    after (setup 0x00000000 [(1, ⟨0x3FF0000000000000, 0x3F800000⟩), (2, ⟨0x3FF0000000000000, 0x3F800000⟩), (3, ⟨0xBFF0000000000000, 0x7FC00000⟩), (4, ⟨0x4059000000000000, 0x42C80000⟩)]) 0x108118BE 4 =
      some (⟨0x8000000000000000, 0x7FC00000⟩, 0x00012000, 0) := by decide +kernel
theorem test_F6_ps_nmsub :
    after (setup 0x00000000 [(1, ⟨0x4000000000000000, 0x40400000⟩), (2, ⟨0x4010000000000000, 0x40A00000⟩), (3, ⟨0x3FF0000000000000, 0x3F800000⟩), (4, ⟨0x4059000000000000, 0x42C80000⟩)]) 0x108118BC 4 =
      some (⟨0xC01C000000000000, 0xC1600000⟩, 0x00008000, 0) := by decide +kernel
theorem test_F15_ps_nmsub :
    after (setup 0x00000003 [(1, ⟨0x3FF0000000000000, 0x3F800000⟩), (2, ⟨0x3FF0000000000000, 0x3F800000⟩), (3, ⟨0x3FF0000000000000, 0xFFC00000⟩), (4, ⟨0x4059000000000000, 0x42C80000⟩)]) 0x108118BC 4 =
      some (⟨0x0000000000000000, 0xFFC00000⟩, 0x00002003, 0) := by decide +kernel
theorem test_G6_ps_merge00 :
    after (setup 0x00000000 [(1, ⟨0x3FF00000FFFFFFFF, 0x00000000⟩), (2, ⟨0x3FF00000FFFFFFFF, 0x00000000⟩), (3, ⟨0x4059000000000000, 0x42C80000⟩)]) 0x10611420 3 =
      some (⟨0x3FF0000100000000, 0x3F800007⟩, 0x00000000, 0) := by decide +kernel
theorem test_G8_ps_merge00 :
    after (setup 0x00000000 [(1, ⟨0xFFF8000020000000, 0x00000000⟩), (2, ⟨0xB6A0000000000000, 0x00000000⟩), (3, ⟨0x4059000000000000, 0x42C80000⟩)]) 0x10611420 3 =
      some (⟨0xFFF8000020000000, 0x80000001⟩, 0x00000000, 0) := by decide +kernel
theorem test_G2_ps_merge01 :
    after (setup 0x00000000 [(1, ⟨0x3FF0000000000000, 0x40000000⟩), (2, ⟨0x4008000000000000, 0x40800000⟩), (3, ⟨0x4059000000000000, 0x42C80000⟩)]) 0x10611460 3 =
      some (⟨0x3FF0000000000000, 0x40800000⟩, 0x00000000, 0) := by decide +kernel
theorem test_G10_ps_merge01 :
    after (setup 0x00000001 [(1, ⟨0x47EFFFFFF0000000, 0x00000000⟩), (2, ⟨0x0000000000000000, 0x7FABCDEF⟩), (3, ⟨0x4059000000000000, 0x42C80000⟩)]) 0x10611461 3 =
      some (⟨0x47EFFFFFE0000000, 0x7FABCDEF⟩, 0x00000001, 0x0) := by decide +kernel
theorem test_G5_ps_merge10 :
    after (setup 0x00000000 [(1, ⟨0x7FF579BDE0000000, 0x40E00000⟩), (2, ⟨0x3FF8000000000000, 0x40000000⟩), (3, ⟨0x4059000000000000, 0x42C80000⟩)]) 0x106114A0 3 =
      some (⟨0x401C000000000000, 0x3FC00000⟩, 0x00000000, 0) := by decide +kernel
theorem test_G9_ps_merge10 :
    after (setup 0x00000000 [(1, ⟨0x3FF0000000000000, 0x40000000⟩)]) 0x10210CA0 1 =
      some (⟨0x4000000000000000, 0x3F800000⟩, 0x00000000, 0) := by decide +kernel
theorem test_G4_ps_merge11 :
    after (setup 0x00000000 [(1, ⟨0x3FF0000000000000, 0x40000000⟩), (2, ⟨0x4008000000000000, 0x40800000⟩), (3, ⟨0x4059000000000000, 0x42C80000⟩)]) 0x106114E0 3 =
      some (⟨0x4000000000000000, 0x40800000⟩, 0x00000000, 0) := by decide +kernel
theorem test_E3_ps_res :
    after (setup 0x00000010 [(2, ⟨0x0000000000000000, 0x40000000⟩), (1, ⟨0x4059000000000000, 0x42C80000⟩)]) 0x10201030 1 =
      some (⟨0x4059000000000000, 0x42C80000⟩, 0xC4000010, 0) := by decide +kernel
theorem test_E9_ps_res :
    after (setup 0x00000000 [(2, ⟨0x3690000000000000, 0x3F800000⟩), (1, ⟨0x4059000000000000, 0x42C80000⟩)]) 0x10201030 1 =
      some (⟨0x7FF0000000000000, 0x3F800000⟩, 0x8E005000, 0) := by decide +kernel
theorem test_E10_ps_rsqrte :
    after (setup 0x00000000 [(2, ⟨0xC010000000000000, 0x40800000⟩), (1, ⟨0x4059000000000000, 0x42C80000⟩)]) 0x10201034 1 =
      some (⟨0x7FF8000000000000, 0x3F000000⟩, 0xA0011200, 0) := by decide +kernel
theorem test_E14_ps_rsqrte :
    after (setup 0x00000000 [(2, ⟨0xFFF8000000000000, 0xFFABCDEF⟩), (1, ⟨0x4059000000000000, 0x42C80000⟩)]) 0x10201034 1 =
      some (⟨0xFFF8000000000000, 0xFFEBCDEF⟩, 0xA1011200, 0) := by decide +kernel
theorem test_L1_ps_sel :
    after (setup 0x00000000 [(1, ⟨0x8000000000000000, 0x00000000⟩), (2, ⟨0x4024000000000000, 0x41A00000⟩), (3, ⟨0x403E000000000000, 0x42200000⟩), (4, ⟨0x4059000000000000, 0x42C80000⟩)]) 0x108110EE 4 =
      some (⟨0x403E000000000000, 0x42200000⟩, 0x00000000, 0) := by decide +kernel
theorem test_L4_ps_sel :
    after (setup 0x00000080 [(1, ⟨0x7FF579BDE0000000, 0xBF800000⟩), (2, ⟨0x3FF00000FFFFFFFF, 0x7FABCDEF⟩), (3, ⟨0x403E000000000000, 0x42200000⟩), (4, ⟨0x4059000000000000, 0x42C80000⟩)]) 0x108110EF 4 =
      some (⟨0x3FF00000FFFFFFFF, 0x7FABCDEF⟩, 0x00000080, 0x0) := by decide +kernel

/-! ### The dispatcher and the environment -/

/-- A refused word keeps its reason (R62). -/
theorem test_step_refuses_undefined_word :
    step (State.reset.withFetchWord 32 0x10000000) =
      .refused (.undefinedEncoding 0x10000000 .unassignedExtendedOpcode) := by rfl
/-- The reset state is idle. -/
theorem test_step_idle_at_reset : step State.reset = .next State.reset := by rfl
/-- An environment write of VE gates the next addition of unlike infinities (vector A3). -/
theorem test_environment_sets_VE :
    (match runEvents [.env (.writeFpscr 0x00000080), .env (.loadPs0 1 0x7FF0000000000000),
        .env (.loadPs0 2 0xFFF0000000000000), .env (.supply [0x1061102A]), .step] State.reset with
      | .next t => some (t.reg 3, t.fpscr)
      | _ => none) = some (⟨0, 0⟩, 0xE0800080) := by decide +kernel

/-! ### Witnesses: encoding and stepping -/

theorem witness_DecodeOfEncode_formatA : Instr.wellFormed (.psMadd ⟨31, 30, 29, 28, true⟩) = true := by decide
theorem witness_DecodeOfEncode_formatX : Instr.wellFormed (.psMerge11 ⟨31, 30, 29, 0, true⟩) = true := by decide
theorem witness_EncodeOfDecode : decode 0x13FEECE1 = .ok (.psMerge11 ⟨31, 30, 29, 0, true⟩) := by rfl
/-- Both sides of the table's test are met, and both fail, by a row of the table. -/
theorem witness_DecodeFollowsMask :
    ∃ row ∈ opcodeTable, (0x1061102A : B32) &&& row.mask = row.pattern ∧ (0x10611028 : B32) &&& row.mask ≠ row.pattern :=
  ⟨opcodeTable[8]'(by decide), List.getElem_mem _, by decide, by decide⟩
theorem witness_NoWordMatchesTwoRows : ∃ w : B32, ∃ row ∈ opcodeTable, w &&& row.mask = row.pattern :=
  ⟨0x100004E1, opcodeTable[24]'(by decide), List.getElem_mem _, by decide⟩
theorem witness_UnmatchedWord :
    (State.reset.withFetchWord 32 0x10000020).program = [0x10000020] ∧
      ∀ row ∈ opcodeTable, (0x10000020 : B32) &&& row.mask ≠ row.pattern :=
  ⟨rfl, by decide⟩
theorem witness_StepRuns :
    (State.reset.withFetchWord 32 0x1061102A).program = [0x1061102A] ∧
      decode 0x1061102A = .ok (.psAdd ⟨3, 1, 2, 0, false⟩) := ⟨rfl, rfl⟩
theorem witness_Idle : State.reset.program = [] := rfl
/-- A program of two words. -/
def twoWords : State := State.reset.withProgram [0x1061102A, 0x106114A1]
theorem witness_ProgramRun :
    twoWords.program.map decode = [.psAdd ⟨3, 1, 2, 0, false⟩, .psMerge10 ⟨3, 1, 2, 0, true⟩].map .ok := by rfl
theorem witness_DecodingProgram : ProgramDecodes twoWords := by
  intro w hw
  simp only [twoWords, withProgram_program, List.mem_cons, List.not_mem_nil, or_false] at hw
  rcases hw with rfl | rfl
  · exact ⟨.psAdd ⟨3, 1, 2, 0, false⟩, rfl⟩
  · exact ⟨.psMerge10 ⟨3, 1, 2, 0, true⟩, rfl⟩

/-! ### Witnesses: the lane-0 invariant -/

/-- A state that meets the lane-0 invariant, with a word to run and a register that holds the least subnormal. -/
def laneState : State := (State.reset.writeReg 2 ⟨extendFloat 0x00000001, 0x7FABCDEF⟩).withProgram [0x10201090]

theorem witness_LaneInvariant : Lane0Inv laneState := by
  intro i
  rw [ps0_eq, laneState, reg_withProgram, reg_writeReg]
  split
  · exact ⟨0x00000001, rfl⟩
  · exact ⟨0, by rw [reset_reg]; decide⟩
theorem witness_StepKeepsLane :
    (match step laneState with | .next t => t.reg 1 == ⟨0x36A0000000000000, 0x7FABCDEF⟩ | _ => false) = true := by
  decide +kernel
theorem witness_LawfulEvents :
    LawfulEvents [.env (.loadPs0 1 (extendFloat 0x7FABCDEF)), .env (.writeFpscr 0x80), .step, .env .reset] := by
  intro a h
  simp only [List.mem_cons, List.not_mem_nil, or_false, Event.env.injEq, reduceCtorEq, false_or] at h
  rcases h with rfl | rfl | rfl
  · exact ⟨_, rfl⟩
  · trivial
  · trivial
theorem witness_EventsRun :
    (match runEvents [.env (.loadPs0 1 (extendFloat 0x7FABCDEF)), .env (.writeFpscr 0x80), .step, .env .reset] laneState with
      | .next t => t == State.reset
      | _ => false) = true := by decide +kernel
/-- The extensions come as near the free value's range as they can: exponent fields 1150 and 2047. -/
theorem witness_LaneInvariantEdges :
    exp64 (extendFloat 0x7F7FFFFF) = 1150 ∧ exp64 (extendFloat 0x7F800000) = 2047 := by decide +kernel
/-- Written and not written: the two ends of the statement on the destination's lane 0. -/
theorem witness_WrittenLane :
    endsIn (.psAdd o3) (two 0 ⟨0x3FF0000000000001, 0⟩ ⟨0x3CA0000000000000, 0⟩)
        (fun t => t.ps0 3 == extendFloat 0x3F800000) = true ∧
      endsIn (.psAdd o3) (two 0x80 ⟨0x7FF0000000000000, 0⟩ ⟨0xFFF0000000000000, 0⟩) (fun t => t.ps0 3 == 0) = true := by
  decide +kernel

/-! ### Witnesses: the FPSCR over one instruction -/

/-- All 32 bits set before a step (vector A31): every exception bit is set to begin with. -/
theorem witness_Sticky :
    (match step ((two 0xFFFFFFFF ⟨0x3FF0000000000000, 0x3F800000⟩ ⟨0x3FF0000000000000, 0x3F800000⟩).withFetchWord 32
        0x1061102A) with
      | .next t => t.fpscr == 0xFFFE4FFF
      | _ => false) = true := by decide +kernel
/-- VX and FEX fall (vector A27). -/
theorem witness_Summary :
    (Instr.psAdd o3).runsEngine = true ∧
      endsIn (.psAdd o3) (two 0x60000080 ⟨0x3FF0000000000000, 0x3F800000⟩ ⟨0x3FF0000000000000, 0x3F800000⟩)
        (fun t => t.fpscr == 0x00004080) = true := by decide +kernel
/-- FX rises on a new exception (vector A2) and does not on one already recorded (vector A26). -/
theorem witness_Fx :
    endsIn (.psAdd o3) (two 0 ⟨0x7FF0000000000000, 0x3F800000⟩ ⟨0xFFF0000000000000, 0x40000000⟩)
        (fun t => Fpscr.get t.fpscr .FX) = true ∧
      endsIn (.psAdd o3) (two 0x20800000 ⟨0x7FF0000000000000, 0x3F800000⟩ ⟨0xFFF0000000000000, 0x40000000⟩)
        (fun t => !Fpscr.get t.fpscr .FX) = true := by decide +kernel
theorem witness_QuietFamilies :
    (Instr.psMr o3).runsEngine = false ∧ (Instr.psMerge00 o3).runsEngine = false ∧
      (Instr.psSel o3).runsEngine = false ∧ (done (.psSel o3) State.reset).isSome = true := by decide +kernel
/-- The record bit clear and set, over FX FEX VX OX = 1 0 1 0 (vector K1). -/
theorem witness_RecordBit :
    endsIn (.psAdd o3) (two 0 ⟨0x7FF0000000000000, 0x3F800000⟩ ⟨0xFFF0000000000000, 0x40000000⟩)
        (fun t => t.cr1 == 0) = true ∧
      endsIn (.psAdd o3rc) (two 0 ⟨0x7FF0000000000000, 0x3F800000⟩ ⟨0xFFF0000000000000, 0x40000000⟩)
        (fun t => t.cr1 == 0xA) = true := by decide +kernel
theorem witness_ExecNext : (done (.psMerge01 o3) State.reset).isSome = true ∧
    (done (.psRes o3rc) (setup 0xFFFFFFFF [])).isSome = true := by decide +kernel
/-- A binary32 subnormal result is reported as normal, and a gated slot 0 leaves FPRF as it was, 0x18 included. -/
theorem witness_DenormalClass :
    endsIn (.psMul o3) (two 0 ⟨extendFloat 0x00800000, 0⟩ ⟨extendFloat 0x3F000000, 0⟩)
        (fun t => Fpscr.fprf t.fpscr == 0x04) = true ∧
      endsIn (.psAdd o3) (two 0x00018080 ⟨0x7FF0000000000000, 0⟩ ⟨0xFFF0000000000000, 0⟩)
        (fun t => Fpscr.fprf t.fpscr == 0x18) = true := by decide +kernel

/-! ### Witnesses: the arithmetic and sum families -/

/-- Each of the six has its operand pairs. -/
theorem witness_arith :
    (Said.arith (.psAdd o3) State.reset).isSome = true ∧ (Said.arith (.psSub o3) State.reset).isSome = true ∧
      (Said.arith (.psDiv o3) State.reset).isSome = true ∧ (Said.arith (.psMul o3) State.reset).isSome = true ∧
      (Said.arith (.psMuls0 o3) State.reset).isSome = true ∧ (Said.arith (.psMuls1 o3) State.reset).isSome = true :=
  ⟨rfl, rfl, rfl, rfl, rfl, rfl⟩
/-- The gate shut by an invalid operation, shut by a zero divide, and open: each with the enables at the edge. -/
theorem witness_gate :
    Said.shut (setup 0x80 []) .add 0x7FF0000000000000 0xFFF0000000000000 = true ∧
      Said.shut (setup 0x80 []) .mul 0x7FF0000000000001 0 = true ∧
      Said.shut (setup 0x10 []) .div 0x3FF0000000000000 0x8000000000000000 = true ∧
      Said.shut (setup 0x10 []) .div 0 0 = false ∧
      Said.shut (setup 0x6F []) .sub 0x7FF0000000000000 0x7FF0000000000000 = false := by decide +kernel
/-- The four cases of a lane's value, and the zero divide that is none of the invalid ones. -/
theorem witness_laneValue :
    isNan64 0x7FF0000000000001 = true ∧ isNan64 0x7FF0000000000000 = false ∧
      Said.invalidOp .div 0x7FF0000000000000 0xFFF0000000000000 = true ∧
      Said.invalidOp .div 0x8000000000000000 0 = true ∧ Said.invalidOp .div 0x7FF0000000000000 0 = false ∧
      Said.zeroDivide .div 0x7FF0000000000000 0 = true ∧ Said.zeroDivide .div 0x7FF8000000000000 0 = true ∧
      Said.zeroDivide .div 0x7FF0000000000001 0 = false ∧ Said.invalidOp .mul 0x8000000000000000 0x7FF0000000000000 = true ∧
      Said.infMinusInf .sub 0x7FF0000000000000 0xFFF0000000000000 = false := by decide +kernel
/-- A gate in slot 1 alone suppresses both lanes and still updates FPRF from slot 0 (vector A4). -/
theorem witness_slotOneGate :
    endsIn (.psAdd o3) (two 0x80 ⟨0x3FF0000000000000, 0x7F800000⟩ ⟨0x4000000000000000, 0xFF800000⟩)
      (fun t => t.reg 3 == ⟨0, 0⟩ && Fpscr.fprf t.fpscr == 0x04) = true := by decide +kernel
/-- Overflow, underflow and inexact signals all occur. -/
theorem witness_signals :
    (Said.laneSignals State.reset .add 0x47EFFFFFE0000000 0x47EFFFFFE0000000).of = true ∧
      (Said.laneSignals State.reset .mul 0x3810000020000000 0x3FE0000000000000).uf = true ∧
      (Said.laneSignals State.reset .add 0x3FF0000000000000 0x3E70000000000000).inx = true ∧
      Said.laneSignals State.reset .add 0x3FF0000000000000 0x3FF0000000000000 = .none := by decide +kernel
/-- The side conversion of ps_sum1: a NaN, a number, and one that underflows. -/
theorem witness_side :
    isNan64 0x7FF579BDE0000000 = true ∧ isNan64 0x3690000000000001 = false ∧
      (roundF32 0x3690000000000001 .rne).2.uf = true ∧ (roundF32 0x47EFFFFFF0000000 .rne).2.of = true := by decide +kernel

/-! ### Witnesses: the fused family -/

theorem witness_fma :
    (Said.fma (.psMadd o3) State.reset).isSome = true ∧ (Said.fma (.psMadds0 o3) State.reset).isSome = true ∧
      (Said.fma (.psMadds1 o3) State.reset).isSome = true ∧ (Said.fma (.psMsub o3) State.reset).isSome = true ∧
      (Said.fma (.psNmadd o3) State.reset).isSome = true ∧ (Said.fma (.psNmsub o3) State.reset).isSome = true :=
  ⟨rfl, rfl, rfl, rfl, rfl, rfl⟩
/-- The gate shut and open; both flags of R151 at once, vxisi beside a NaN, and Subtract turning vxisi off. -/
theorem witness_fmaGate :
    Said.fmaShut (setup 0x80 []) false 0x7FF0000000000000 0 0 = true ∧
      Said.fmaShut (setup 0x10 []) false 0x7FF0000000000000 0 0 = false ∧
      Said.fmaIsi false 0x7FF0000000000000 0xFFF0000000000000 0 = true ∧ Said.fmaImz 0x7FF0000000000000 0 = true ∧
      Said.fmaIsi true 0x7FF0000000000000 0xFFF0000000000000 0x3FF0000000000000 = false ∧
      Said.fmaIsi false 0x7FF8000000000000 0xFFF0000000000000 0x7FF0000000000000 = true := by decide +kernel
/-- An ordinary slot, with a signal (vector F9). -/
theorem witness_fmaSignals :
    (Said.fmaSignals State.reset false (extendFloat 0x43808000) (extendFloat 0x21800000) (extendFloat 0x3B7F0100)).inx =
      true := by decide +kernel

/-! ### Witnesses: the estimate family -/

theorem witness_estimateGates :
    Said.resShut (setup 0x10 []) 0x8000000000000000 = true ∧ Said.resShut (setup 0x80 []) 0x7FF0000000000001 = true ∧
      Said.resShut (setup 0x80 []) 0 = false ∧ Said.rsqrtShut (setup 0x80 []) 0xFFF0000000000000 = true ∧
      Said.rsqrtShut (setup 0x10 []) 0xFFF0000000000000 = false ∧ Said.rsqrtInvalid 0x8000000000000000 = false ∧
      Said.rsqrtInvalid 0xFFF8000000000000 = true ∧ Said.rsqrtInvalid 0x8000000000000001 = true := by decide +kernel
/-- A signal of an estimate, and the `dz` signal without a zero operand (vector E9). -/
theorem witness_estimateSignals :
    (Said.resSignals State.reset 0x4008000000000000).inx = true ∧
      (Said.resSignals State.reset 0x3690000000000000).dz = true ∧ isZero64 0x3690000000000000 = false := by decide +kernel

/-- Estimators that differ from the reference ones on finite non-zero operands only. -/
def coarseRecip : Estimator := fun x rm => if isZero32 x || isInf32 x then recipEst x rm else (0x3F800000, .none)
def coarseRsqrt : Estimator := fun x rm => if isZero32 x || isInf32 x then rsqrtEst x rm else (0x3F800000, .none)

theorem witness_specIsLawful : Params.spec.Lawful where
  layout := Layout.powerPC_lawful
  quiet := by decide
  recip rm := by cases rm <;> decide +kernel
  rsqrt rm := by cases rm <;> decide +kernel
theorem witness_coarseIsLawful : { Params.spec with recipEst := coarseRecip, rsqrtEst := coarseRsqrt }.Lawful where
  layout := Layout.powerPC_lawful
  quiet := by decide
  recip rm := by cases rm <;> decide +kernel
  rsqrt rm := by cases rm <;> decide +kernel
/-- The two choices do differ, and a register whose lanes are a zero and an infinity. -/
theorem witness_EstimateIsOpen :
    (recipEst 0x40000000 .rne).1 ≠ (coarseRecip 0x40000000 .rne).1 ∧
      isZero64 ((setup 0 [(2, ⟨0x8000000000000000, 0xFF800000⟩)]).ps0 2) = true ∧
      isInf32 ((setup 0 [(2, ⟨0x8000000000000000, 0xFF800000⟩)]).ps1 2) = true := by decide +kernel

/-! ### Witnesses: the move, merge and select families -/

theorem witness_moveOp :
    (Said.moveOp (.psMr o3)).isSome = true ∧ (Said.moveOp (.psNeg o3)).isSome = true ∧
      (Said.moveOp (.psAbs o3)).isSome = true ∧ (Said.moveOp (.psNabs o3)).isSome = true := ⟨rfl, rfl, rfl, rfl⟩
/-- A signalling NaN whose low 29 fraction bits are zero, one whose are not, and a quiet NaN. -/
theorem witness_moveOperands :
    isSnan64 0x7FF0000020000000 = true ∧ (0x7FF0000020000000 : B64).extractLsb' 0 29 = 0 ∧
      isSnan64 0x7FF0000000000001 = true ∧ isSnan64 0x7FF8000000000000 = false := by decide +kernel
/-- Lane 0 an extension: a subnormal, a signalling NaN. -/
theorem witness_MoveIsExact :
    (setup 0 [(2, ⟨extendFloat 0x00000001, 0⟩)]).ps0 2 = extendFloat 0x00000001 ∧
      (setup 0 [(2, ⟨extendFloat 0x7FABCDEF, 0⟩)]).ps0 2 = extendFloat 0x7FABCDEF := by decide +kernel
/-- States that agree on the registers and on RN only, and, with a signalling NaN, on the registers only. -/
theorem witness_MoveReads :
    (setup 0x00000002 [(2, ⟨0x3FF00000FFFFFFFF, 1⟩)]).fpr = (setup 0xFFFFFFFE [(2, ⟨0x3FF00000FFFFFFFF, 1⟩)]).fpr ∧
      (setup 0x00000002 []).rm = (setup 0xFFFFFFFE []).rm ∧ isSnan64 0x3FF00000FFFFFFFF = false ∧
      (setup 0x00000001 []).rm ≠ (setup 0x00000002 []).rm := by decide +kernel
/-- States that agree on VE, ZE and RN and on no other bit of the FPSCR. -/
theorem witness_DependsOnly :
    (setup 0x00000091 [(2, ⟨0, 1⟩)]).fpr = (setup 0xFFFFFFFD [(2, ⟨0, 1⟩)]).fpr ∧
      Said.ve (setup 0x00000091 []) = Said.ve (setup 0xFFFFFFFD []) ∧
      Said.ze (setup 0x00000091 []) = Said.ze (setup 0xFFFFFFFD []) ∧
      (setup 0x00000091 []).rm = (setup 0xFFFFFFFD []).rm := by decide +kernel
theorem witness_mergeFlags :
    Said.mergeFlags (.psMerge00 o3) = some (false, false) ∧ Said.mergeFlags (.psMerge01 o3) = some (false, true) ∧
      Said.mergeFlags (.psMerge10 o3) = some (true, false) ∧ Said.mergeFlags (.psMerge11 o3) = some (true, true) :=
  ⟨rfl, rfl, rfl, rfl⟩
/-- Both lanes 0 extensions, and lanes 0 that ps_merge11 does not read and that are none. -/
theorem witness_MergeIsExact :
    (two 0 ⟨extendFloat 0x80000001, 0⟩ ⟨extendFloat 0x7F800001, 0⟩).ps0 1 = extendFloat 0x80000001 ∧
      (two 0 ⟨extendFloat 0x80000001, 0⟩ ⟨extendFloat 0x7F800001, 0⟩).ps0 2 = extendFloat 0x7F800001 ∧
      endsIn (.psMerge11 o3) (two 0 ⟨0x3FF0000000000001, 5⟩ ⟨0x3FF0000000000001, 7⟩)
        (fun t => t.reg 3 == ⟨extendFloat 5, 7⟩) = true := by decide +kernel
/-- The three cases of a selecting lane, at the least values on either side of zero. -/
theorem witness_select :
    isNan64 0xFFF0000000000001 = true ∧ isZero64 0x8000000000000000 = true ∧
      (isNan64 0x8000000000000001 = false ∧ isZero64 0x8000000000000001 = false ∧ sign64 0x8000000000000001 = true) ∧
      (isZero64 0x0000000000000001 = false ∧ sign64 0x0000000000000001 = false) ∧
      isNan32 0x7F800001 = true ∧ isZero32 0x80000000 = true ∧
      (isNan32 0x80000001 = false ∧ isZero32 0x80000001 = false ∧ sign32 0x80000001 = true) := by decide +kernel

/-! ### Witnesses: the value model -/

/-- What finite patterns denote: the least subnormal and the largest number of each format, and a minus zero. -/
theorem witness_Val64 :
    Said.Val64 0x0000000000000001 (2 ^ (-1074 : ℤ)) ∧
      Said.Val64 0xFFEFFFFFFFFFFFFF (-((2 ^ 53 - 1) * 2 ^ (971 : ℤ))) ∧ Said.Val64 0x8000000000000000 0 := by
  refine ⟨⟨by decide, by decide, ?_⟩, ⟨by decide, by decide, ?_⟩, ⟨by decide, by decide, ?_⟩⟩
  · rw [if_neg (by decide), if_pos (by decide), show (frac64 0x0000000000000001).toNat = 1 by decide]
    norm_num
  · rw [if_pos (by decide), if_neg (by decide), show (frac64 0xFFEFFFFFFFFFFFFF).toNat = 0xFFFFFFFFFFFFF by decide,
      show (exp64 0xFFEFFFFFFFFFFFFF).toNat = 2046 by decide]
    norm_num
  · rw [if_pos (by decide), if_pos (by decide), show (frac64 0x8000000000000000).toNat = 0 by decide]
    norm_num
theorem witness_Val32 :
    Said.Val32 0x00000001 (2 ^ (-149 : ℤ)) ∧ Said.Val32 0xFF7FFFFF (-((2 ^ 24 - 1) * 2 ^ (104 : ℤ))) ∧
      Said.Val32 0x80000000 0 := by
  refine ⟨⟨by decide, by decide, ?_⟩, ⟨by decide, by decide, ?_⟩, ⟨by decide, by decide, ?_⟩⟩
  · rw [if_neg (by decide), if_pos (by decide), show (frac32 0x00000001).toNat = 1 by decide]
    norm_num
  · rw [if_pos (by decide), if_neg (by decide), show (frac32 0xFF7FFFFF).toNat = 0x7FFFFF by decide,
      show (exp32 0xFF7FFFFF).toNat = 254 by decide]
    norm_num
  · rw [if_pos (by decide), if_pos (by decide), show (frac32 0x80000000).toNat = 0 by decide]
    norm_num
/-- The arms of the conversion: an infinity, a zero, a quiet NaN, and numbers at both ends of the range. -/
theorem witness_RoundF32 :
    isInf64 0xFFF0000000000000 = true ∧ isZero64 0x8000000000000000 = true ∧
      (isNan64 0x7FF8000000000001 = true ∧ isSnan64 0x7FF8000000000001 = false) ∧
      roundF32 0x0000000000000001 .rup .before = (0x00000001, { Signals.none with inx := true, uf := true }) ∧
      roundF32 0xFFEFFFFFFFFFFFFF .rup .before =
        (0xFF7FFFFF, { Signals.none with of := true, inx := true }) := by decide +kernel
theorem witness_RoundingUndoesWidening : isSnan32 0x7FC00000 = false ∧ isSnan32 0x00000001 = false ∧
    isSnan32 0xFF800000 = false ∧ isSnan32 0x7F7FFFFF = false := by decide +kernel
theorem witness_WideningDenotes : (isNan32 0x00000001 = false ∧ isInf32 0x00000001 = false) ∧
    (isNan32 0x7F7FFFFF = false ∧ isInf32 0x7F7FFFFF = false) ∧ isNan32 0x80000000 = false := by decide +kernel
/-- Numbers at each edge of the arms of `trunc_bits`, and an infinity. -/
theorem witness_TruncationIsRounding :
    (isNan64 0x47EFFFFFFFFFFFFF = false ∧ (exp64 0x47EFFFFFFFFFFFFF).toNat = 1150) ∧
      (exp64 0x3810000000000000).toNat = 897 ∧ (exp64 0x380FFFFFFFFFFFFF).toNat = 896 ∧
      (exp64 0x36A0000000000000).toNat = 874 ∧ (exp64 0x369FFFFFFFFFFFFF).toNat = 873 ∧
      (isNan64 0xFFF0000000000000 = false ∧ isInf64 0xFFF0000000000000 = true) := by decide +kernel
theorem witness_quotient : Said.Positive (.quotient 1 3) ∧ Said.IsReal (.quotient 1 3) ((1 : ℕ) / (3 : ℕ) : ℝ) :=
  ⟨⟨by decide, by decide⟩, rfl⟩
theorem witness_root : Said.Positive (.root 2 1) ∧ Said.IsReal (.root 2 1) (Real.sqrt ((2 : ℕ) / (1 : ℕ) : ℝ)) :=
  ⟨⟨by decide, by decide⟩, rfl⟩
/-- Rounding to a format with and without overflow, and into the subnormal range. -/
theorem witness_round :
    (round binary32 .after .rne false (.quotient (2 ^ 128) 1)).2.of = true ∧
      (round binary64 .after .rtz true (.quotient 1 3)).2.of = false ∧
      (round binary32 .before .rup false (.quotient 1 (2 ^ 150))).2 = { Signals.none with inx := true, uf := true } := by
  decide +kernel
/-- Each special arm of the five operations, at operands on its edge. -/
theorem witness_Binary64 :
    (add64 0x7FF0000000000000 0xFFF0000000000000 .rne = Said.unreached ∧
      add64 0x7FF0000000000000 0x7FF0000000000000 .rne = (0x7FF0000000000000, .none) ∧
      add64 0x8000000000000000 0x8000000000000000 .rne = (0x8000000000000000, .none) ∧
      add64 0x8000000000000000 0x0000000000000000 .rdn = (0x8000000000000000, .none) ∧
      add64 0x3FF0000000000000 0xBFF0000000000000 .rup = (0x0000000000000000, .none) ∧
      sub64 0x3FF0000000000000 0x4000000000000000 .rne = (0xBFF0000000000000, .none)) ∧
    (mul64 0x7FF0000000000000 0x8000000000000000 .rne = Said.unreached ∧
      mul64 0x7FF0000000000000 0x8000000000000001 .rne = (0xFFF0000000000000, .none) ∧
      mul64 0x8000000000000000 0x0000000000000001 .rne = (0x8000000000000000, .none)) ∧
    (div64 0x8000000000000000 0x0000000000000000 .rne = Said.unreached ∧
      div64 0x7FF0000000000000 0x8000000000000000 .rne = (0xFFF0000000000000, .none) ∧
      div64 0x0000000000000001 0x8000000000000000 .rne = (0xFFF0000000000000, { Signals.none with dz := true }) ∧
      div64 0x8000000000000000 0x7FF0000000000000 .rne = (0x8000000000000000, .none)) ∧
    (fma64 0x7FF0000000000000 0x3FF0000000000000 0xFFF0000000000000 .rne = Said.unreached ∧
      fma64 0x7FF0000000000000 0x3FF0000000000000 0xFFEFFFFFFFFFFFFF .rne = (0x7FF0000000000000, .none) ∧
      fma64 0x8000000000000000 0x3FF0000000000000 0x8000000000000000 .rne = (0x8000000000000000, .none) ∧
      fma64 0x3FF0000000000000 0x3FF0000000000000 0xBFF0000000000000 .rdn = (0x8000000000000000, .none)) := by
  decide +kernel
theorem witness_ProductOfWidened :
    (isNan32 0x00000001 = false ∧ isNan32 0x7F7FFFFF = false) ∧
      ¬ ((isInf32 0x00000001 = true ∧ isZero32 0x7F7FFFFF = true) ∨
        (isZero32 0x00000001 = true ∧ isInf32 0x7F7FFFFF = true)) ∧
      ¬ ((isInf32 0x7F800000 = true ∧ isZero32 0x00000001 = true) ∨
        (isZero32 0x7F800000 = true ∧ isInf32 0x00000001 = true)) := by decide +kernel

/-! ### Other parameters (00_scope.md R8) -/

/-- A layout with the fields the other way round. -/
def mirrored : Layout := { bit := fun b => 31 - b.pos, fprf := 15, rn := 30 }

theorem witness_mirroredIsLawful : mirrored.Lawful where
  bit_inj b c := by cases b <;> cases c <;> decide
  bit_lt b := by cases b <;> decide
  fprf_le := by decide
  rn_le := by decide
  bit_fprf b := by cases b <;> decide
  bit_rn b := by cases b <;> decide
  fprf_rn := by decide
/-- States with VE set, FPRF 0x11 and RN toward zero, the one in the spec's layout and the other mirrored. -/
theorem witness_LayoutIsOnlyNames :
    (setup 0x00011081 [(1, ⟨0x7FF0000000000000, 1⟩)]).fpr = (setup 0x41088000 [(1, ⟨0x7FF0000000000000, 1⟩)]).fpr ∧
      Said.SameFields Params.spec.layout (setup 0x00011081 [(1, ⟨0x7FF0000000000000, 1⟩)]).fpscr
        mirrored (setup 0x41088000 [(1, ⟨0x7FF0000000000000, 1⟩)]).fpscr :=
  ⟨rfl, fun b => by cases b <;> decide, by decide, by decide⟩

/-- The state after an instruction at other parameters has a property. -/
def endsWith (P : Params) (i : Instr) (s : State) (p : State → Bool) : Bool :=
  match execWith P i s with
  | .next t => p t
  | .fault _ => false
  | .refused _ => false

/-- QNAN32: another constant is what an invalid operation gives (vector A2 with a negative NaN). -/
theorem test_other_qnan32 :
    endsWith { Params.spec with qnan32 := 0xFFC00001 } (.psAdd o3)
      (two 0 ⟨0x7FF0000000000000, 0x3F800000⟩ ⟨0xFFF0000000000000, 0x40000000⟩)
      (fun t => t.reg 3 == ⟨0xFFF8000020000000, 0x40400000⟩) = true := by decide +kernel
/-- TRUNC_OVERFLOW: what a merge takes from a lane 0 above the binary32 range (R90, last arm). -/
theorem test_other_truncOverflow :
    endsWith { Params.spec with truncOverflow := fun _ => 0x12345678 } (.psMerge10 o3)
      (two 0 ⟨0, 0x40000000⟩ ⟨0x7FE0000000000000, 0⟩) (fun t => t.ps1 3 == 0x12345678) = true := by decide +kernel
/-- TININESS: 2^-126 minus half an ulp, tiny before rounding only (R93; 95_test_vectors.md section 3). -/
theorem test_other_tininess :
    endsWith { Params.spec with tininess := .before } (.psSum1 ⟨3, 1, 2, 4, false⟩)
      (setup 0 [(4, ⟨0x380FFFFFF0000000, 0⟩)]) (fun t => Fpscr.get t.fpscr .UX) = true ∧
    endsWith .spec (.psSum1 ⟨3, 1, 2, 4, false⟩)
      (setup 0 [(4, ⟨0x380FFFFFF0000000, 0⟩)]) (fun t => !Fpscr.get t.fpscr .UX) = true := by decide +kernel
/-- RECIP_EST: the result of ps_res is the parameter's. -/
theorem test_other_recipEst :
    endsWith { Params.spec with recipEst := coarseRecip } (.psRes o3)
      (setup 0 [(2, ⟨0x4000000000000000, 0x00000000⟩)]) (fun t => t.reg 3 == ⟨0x3FF0000000000000, 0x7F800000⟩) = true := by
  decide +kernel
/-- FPSCR_LAYOUT: vector A3 with VE at its mirrored place raises VXISI, VX, FEX and FX at theirs. -/
theorem test_other_layout :
    endsWith { Params.spec with layout := mirrored } (.psAdd o3)
      (two 0x01000000 ⟨0x7FF0000000000000, 0x3F800000⟩ ⟨0xFFF0000000000000, 0x40000000⟩)
      (fun t => t.reg 3 == ⟨0, 0⟩ && t.fpscr == 0x01000107) = true := by decide +kernel
/-- FPSCR_RESET and CR1 at reset. -/
theorem test_other_reset :
    (State.resetWith { Params.spec with fpscrReset := 0x80, cr1Reset := 5 }).fpscr = 0x80 ∧
      (State.resetWith { Params.spec with fpscrReset := 0x80, cr1Reset := 5 }).cr1 = 5 := by decide

end Sys2Proof.Tests
end

section
/-!
PROOFS. The layout of the FPSCR is only names (92_eei_decisions.md D3): every operation on two words with the same
fields, each word in its own layout, leaves the same fields, and so does every instruction on two states that differ in
the layout alone.
-/

namespace Sys2Proof.Machine

theorem fprf_write {L : Layout} (hL : L.Lawful) (w : B32) (b : FpscrBit) (v : Bool) :
    Fpscr.fprf (Fpscr.write L w b v) L = Fpscr.fprf w L :=
  fprf_congr fun _ h1 h2 => getLsbD_write_wide hL w b v (Or.inl ⟨h1, h2⟩)

theorem rn_write {L : Layout} (hL : L.Lawful) (w : B32) (b : FpscrBit) (v : Bool) :
    Fpscr.rn (Fpscr.write L w b v) L = Fpscr.rn w L :=
  rn_congr fun _ h1 h2 => getLsbD_write_wide hL w b v (Or.inr ⟨h1, h2⟩)

/-- The parameters with another layout. -/
abbrev Params.withLayout (P : Params) (L : Layout) : Params := { P with layout := L }

end Sys2Proof.Machine

namespace Sys2Proof.Said

open Sys2Proof.Machine

/-! ### Two words with the same fields -/

namespace SameFields

variable {L L' : Layout} {w w' old old' : B32}

theorem get_eq (h : SameFields L w L' w') (b : FpscrBit) : Fpscr.get w b L = Fpscr.get w' b L' := h.1 b

theorem fprf_eq (h : SameFields L w L' w') : Fpscr.fprf w L = Fpscr.fprf w' L' := h.2.1

theorem rn_eq (h : SameFields L w L' w') : Fpscr.rn w L = Fpscr.rn w' L' := h.2.2

theorem vxFormula_eq (h : SameFields L w L' w') : vxFormula L w = vxFormula L' w' := by
  simp only [vxFormula, h.get_eq]

theorem fexFormula_eq (h : SameFields L w L' w') : fexFormula L w = fexFormula L' w' := by
  simp only [fexFormula, h.get_eq]

theorem gated_eq (h : SameFields L w L' w') (f : SlotFlags) : gated L w f = gated L' w' f := by
  simp only [gated, h.get_eq]

section Lawful

variable (hL : L.Lawful) (hL' : L'.Lawful)
include hL hL'

theorem write (h : SameFields L w L' w') (b : FpscrBit) (v : Bool) :
    SameFields L (Fpscr.write L w b v) L' (Fpscr.write L' w' b v) := by
  refine ⟨fun c => ?_, ?_, ?_⟩
  · rw [get_write hL, get_write hL', h.get_eq]
  · rw [fprf_write hL, fprf_write hL', h.fprf_eq]
  · rw [rn_write hL, rn_write hL', h.rn_eq]

theorem raise (h : SameFields L w L' w') (b : FpscrBit) (v : Bool) :
    SameFields L (Fpscr.raise L w b v) L' (Fpscr.raise L' w' b v) := by
  unfold Fpscr.raise
  rw [h.get_eq]
  exact h.write hL hL' b _

theorem raiseFlags (h : SameFields L w L' w') (f : SlotFlags) :
    SameFields L (raiseFlags L w f) L' (raiseFlags L' w' f) := by
  unfold Machine.raiseFlags
  iterate 7 apply raise hL hL'
  exact h

theorem writeFprf (h : SameFields L w L' w') (c : BitVec 5) :
    SameFields L (writeFprf L w c) L' (writeFprf L' w' c) := by
  refine ⟨fun b => ?_, ?_, ?_⟩
  · rw [get_writeFprf hL, get_writeFprf hL', h.get_eq]
  · rw [fprf_writeFprf hL, fprf_writeFprf hL']
  · rw [rn_writeFprf hL, rn_writeFprf hL', h.rn_eq]

/-! The four steps of the update engine (48_fpscr_update.md R197 to R200). -/

theorem accumulateSignals (h : SameFields L w L' w') (s : Signals) :
    SameFields L (accumulateSignals L w s) L' (accumulateSignals L' w' s) := by
  unfold Machine.accumulateSignals
  iterate 4 apply raise hL hL'
  exact h

theorem recomputeVx (h : SameFields L w L' w') : SameFields L (recomputeVx L w) L' (recomputeVx L' w') := by
  unfold Machine.recomputeVx
  rw [h.vxFormula_eq]
  exact h.write hL hL' .VX _

theorem recomputeFex (h : SameFields L w L' w') : SameFields L (recomputeFex L w) L' (recomputeFex L' w') := by
  unfold Machine.recomputeFex
  rw [h.fexFormula_eq]
  exact h.write hL hL' .FEX _

/-- The test of R200 is made on masked words; `newException_iff` turns it into one on fields. -/
theorem accumulateFx (hold : SameFields L old L' old') (h : SameFields L w L' w') :
    SameFields L (accumulateFx L old w) L' (accumulateFx L' old' w') := by
  simp only [Machine.accumulateFx, newException_iff hL, newException_iff hL', hold.get_eq, h.get_eq]
  exact h.raise hL hL' .FX _

theorem updateFpscr (hold : SameFields L old L' old') (h : SameFields L w L' w') (s : Signals) :
    SameFields L (updateFpscr L old w s) L' (updateFpscr L' old' w' s) :=
  hold.accumulateFx hL hL' (((h.accumulateSignals hL hL' s).recomputeVx hL hL').recomputeFex hL hL')

end Lawful

/-! What a slot computes and what it leaves in the word. -/

section Slots

variable {P : Params}

theorem rm_eq (h : SameFields P.layout w L w') : Fpscr.rm w P = Fpscr.rm w' (P.withLayout L) :=
  congrArg P.rnEncoding h.rn_eq

theorem slotMake_eq (h : SameFields P.layout w L w') (f : SlotFlags) (r : B32 × Signals) :
    Slot.make P w f r = Slot.make (P.withLayout L) w' f r := by
  unfold Slot.make
  rw [h.gated_eq]

theorem arithSlot_eq (h : SameFields P.layout w L w') (op : ArithOp) (a b : B64) :
    arithSlot P w op a b = arithSlot (P.withLayout L) w' op a b := by
  unfold arithSlot
  rw [h.rm_eq]
  exact h.slotMake_eq _ _

theorem fmaSlot_eq (h : SameFields P.layout w L w') (subtract negate : Bool) (a b c : B64) :
    fmaSlot P w subtract negate a b c = fmaSlot (P.withLayout L) w' subtract negate a b c := by
  unfold fmaSlot
  rw [h.rm_eq]
  exact h.slotMake_eq _ _

theorem resSlot_eq (h : SameFields P.layout w L w') (b : B64) : resSlot P w b = resSlot (P.withLayout L) w' b := by
  unfold resSlot
  rw [h.rm_eq]
  exact h.slotMake_eq _ _

theorem rsqrtSlot_eq (h : SameFields P.layout w L w') (b : B64) :
    rsqrtSlot P w b = rsqrtSlot (P.withLayout L) w' b := by
  unfold rsqrtSlot
  rw [h.rm_eq]
  exact h.slotMake_eq _ _

variable (hP : P.layout.Lawful) (hL : L.Lawful)
include hP hL

theorem fprfOfSlot (h : SameFields P.layout w L w') (x : Slot) :
    SameFields P.layout (fprfOfSlot P w x) L (fprfOfSlot (P.withLayout L) w' x) := by
  unfold Machine.fprfOfSlot
  cases x.result with
  | none => exact h
  | some r => exact h.writeFprf hP hL _

theorem fpscrAfterSlots (h : SameFields P.layout w L w') (x0 x1 : Slot) :
    SameFields P.layout (fpscrAfterSlots P w x0 x1) L (fpscrAfterSlots (P.withLayout L) w' x0 x1) :=
  h.updateFpscr hP hL
    (((h.raiseFlags hP hL x0.flags).raiseFlags hP hL x1.flags).fprfOfSlot hP hL x0) (x0.sig.union x1.sig)

theorem fpscrAfterSum (h : SameFields P.layout w L w') (x : Slot) (sig : Signals) :
    SameFields P.layout (fpscrAfterSum P w x sig) L (fpscrAfterSum (P.withLayout L) w' x sig) :=
  h.updateFpscr hP hL ((h.raiseFlags hP hL x.flags).fprfOfSlot hP hL x) sig

end Slots

end SameFields

/-! ### Two states that differ in the layout alone -/

/-- The hypothesis and the conclusion of `Obligations.LayoutIsOnlyNames`: the registers are the same, and so are the
FPSCR fields, those of `s` in the layout `L` and those of `u` in `L'`. CR1 and the dispatcher's list are left open. -/
structure SameUpToLayout (L : Layout) (s : State) (L' : Layout) (u : State) : Prop where
  fpr    : s.fpr = u.fpr
  fields : SameFields L s.fpscr L' u.fpscr

namespace SameUpToLayout

variable {P : Params} {L L' : Layout} {s u : State}

/-! What the instructions read is the same. -/

theorem reg_eq (h : SameUpToLayout L s L' u) : s.reg = u.reg := by
  funext i
  unfold State.reg
  rw [h.fpr]

theorem ps0_eq (h : SameUpToLayout L s L' u) : s.ps0 = u.ps0 := by
  funext i
  rw [Machine.ps0_eq, Machine.ps0_eq, h.reg_eq]

theorem ps1_eq (h : SameUpToLayout L s L' u) : s.ps1 = u.ps1 := by
  funext i
  rw [Machine.ps1_eq, Machine.ps1_eq, h.reg_eq]

theorem opnd0_eq (h : SameUpToLayout L s L' u) : s.opnd0 = u.opnd0 := h.ps0_eq

theorem opnd1_eq (h : SameUpToLayout L s L' u) : s.opnd1 = u.opnd1 := by
  funext i
  unfold State.opnd1
  rw [h.ps1_eq]

theorem rm_eq (h : SameUpToLayout P.layout s L u) : s.rm P = u.rm (P.withLayout L) := h.fields.rm_eq

theorem sumSlot_eq (h : SameUpToLayout P.layout s L u) (o : Operands) :
    sumSlot P o s = sumSlot (P.withLayout L) o u := by
  unfold sumSlot
  rw [h.opnd0_eq, h.opnd1_eq]
  exact h.fields.arithSlot_eq _ _ _

/-! The two ways an instruction ends, as in Laws/Exec.lean: with the FPSCR kept, or with the engine's word. -/

theorem quiet (h : SameUpToLayout L s L' u) (d : RegIdx) (y : Fpr) (rc : Bool) :
    SameUpToLayout L ((s.writeReg d y).mirror rc) L' ((u.writeReg d y).mirror rc) where
  fpr := by simp only [mirror_fpr, State.writeReg, h.fpr]
  fields := by simpa only [mirror_fpscr, writeReg_fpscr] using h.fields

theorem engine (h : SameUpToLayout L s L' u) (d : RegIdx) (x : Option Fpr) {w w' : B32} (hw : SameFields L w L' w')
    (rc : Bool) :
    SameUpToLayout L (((s.maybeWrite d x).setFpscr w).mirror rc) L' (((u.maybeWrite d x).setFpscr w').mirror rc) where
  fpr := by
    simp only [mirror_fpr, setFpscr_fpr]
    cases x with
    | none => exact h.fpr
    | some y => simp only [maybeWrite_some, State.writeReg, h.fpr]
  fields := by simpa only [mirror_fpscr, setFpscr_fpscr] using hw

/-! Each family of instructions. -/

theorem moveGeneric (h : SameUpToLayout P.layout s L u) (sop : B32 → B32) (o : Operands) :
    SameUpToLayout P.layout (moveGeneric P sop o s) L (moveGeneric (P.withLayout L) sop o u) := by
  unfold Machine.moveGeneric
  rw [h.ps0_eq, h.ps1_eq, h.rm_eq]
  exact h.quiet _ _ _

theorem mergeGeneric (h : SameUpToLayout P.layout s L u) (m0 m1 : Bool) (o : Operands) :
    SameUpToLayout P.layout (mergeGeneric P m0 m1 o s) L (mergeGeneric (P.withLayout L) m0 m1 o u) := by
  unfold Machine.mergeGeneric mergeLane0 mergeLane1
  rw [h.ps0_eq, h.ps1_eq, h.rm_eq]
  exact h.quiet _ _ _

theorem psSel (h : SameUpToLayout L s L' u) (o : Operands) : SameUpToLayout L (psSel o s) L' (psSel o u) := by
  unfold Machine.psSel
  rw [h.ps0_eq, h.ps1_eq]
  exact h.quiet _ _ _

section Lawful

variable (hP : P.layout.Lawful) (hL : L.Lawful)
include hP hL

theorem commitSlots (h : SameUpToLayout P.layout s L u) (d : RegIdx) (rc : Bool) (x0 x1 : Slot) :
    SameUpToLayout P.layout (s.commitSlots P d rc x0 x1) L (u.commitSlots (P.withLayout L) d rc x0 x1) := by
  simp only [State.commitSlots, commitLanes_eq]
  exact h.engine d _ (h.fields.fpscrAfterSlots hP hL x0 x1) rc

theorem psArith (h : SameUpToLayout P.layout s L u) (op : ArithOp) (a0 b0 a1 b1 : B64) (o : Operands) :
    SameUpToLayout P.layout (psArith P op a0 b0 a1 b1 o s) L (psArith (P.withLayout L) op a0 b0 a1 b1 o u) := by
  unfold Machine.psArith
  rw [h.fields.arithSlot_eq, h.fields.arithSlot_eq]
  exact h.commitSlots hP hL _ _ _ _

theorem psFma (h : SameUpToLayout P.layout s L u) (subtract negate : Bool) (c0 c1 : B64) (o : Operands) :
    SameUpToLayout P.layout (psFma P subtract negate c0 c1 o s) L
      (psFma (P.withLayout L) subtract negate c0 c1 o u) := by
  unfold Machine.psFma
  rw [h.opnd0_eq, h.opnd1_eq, h.fields.fmaSlot_eq, h.fields.fmaSlot_eq]
  exact h.commitSlots hP hL _ _ _ _

theorem psEst (h : SameUpToLayout P.layout s L u) {slot slot' : B32 → B64 → Slot}
    (hslot : ∀ b, slot s.fpscr b = slot' u.fpscr b) (o : Operands) :
    SameUpToLayout P.layout (psEst P slot o s) L (psEst (P.withLayout L) slot' o u) := by
  unfold Machine.psEst
  rw [h.opnd0_eq, h.opnd1_eq, hslot, hslot]
  exact h.commitSlots hP hL _ _ _ _

theorem psSum0 (h : SameUpToLayout P.layout s L u) (o : Operands) :
    SameUpToLayout P.layout (psSum0 P o s) L (psSum0 (P.withLayout L) o u) := by
  unfold Machine.psSum0
  rw [h.sumSlot_eq, h.ps1_eq]
  obtain ⟨flags, result⟩ := sumSlot (P.withLayout L) o u
  cases result with
  | none => exact h.engine o.frD none (h.fields.fpscrAfterSum hP hL _ _) o.rc
  | some r => exact h.engine o.frD (some _) (h.fields.fpscrAfterSum hP hL _ _) o.rc

theorem psSum1 (h : SameUpToLayout P.layout s L u) (o : Operands) :
    SameUpToLayout P.layout (psSum1 P o s) L (psSum1 (P.withLayout L) o u) := by
  unfold Machine.psSum1
  rw [h.sumSlot_eq, h.ps0_eq, h.rm_eq]
  obtain ⟨flags, result⟩ := sumSlot (P.withLayout L) o u
  cases result with
  | none => exact h.engine o.frD none (h.fields.fpscrAfterSum hP hL _ _) o.rc
  | some r => exact h.engine o.frD (some _) (h.fields.fpscrAfterSum hP hL _ _) o.rc

/-- Every instruction ends, and keeps two states the same up to the layout. Once the register files are one term, the
operands that the two runs read agree by unfolding, so each arm is its family's lemma. -/
theorem execWith (h : SameUpToLayout P.layout s L u) (i : Instr) :
    ∃ t v, execWith P i s = .next t ∧ execWith (P.withLayout L) i u = .next v ∧ SameUpToLayout P.layout t L v := by
  obtain ⟨regs, _, _, _⟩ := s
  obtain ⟨_, _, _, _⟩ := u
  obtain rfl := h.fpr
  cases i with
  | psSum0 o => exact ⟨_, _, rfl, rfl, h.psSum0 hP hL o⟩
  | psSum1 o => exact ⟨_, _, rfl, rfl, h.psSum1 hP hL o⟩
  | psMuls0 o => exact ⟨_, _, rfl, rfl, h.psArith hP hL .mul _ _ _ _ o⟩
  | psMuls1 o => exact ⟨_, _, rfl, rfl, h.psArith hP hL .mul _ _ _ _ o⟩
  | psMadds0 o => exact ⟨_, _, rfl, rfl, h.psFma hP hL false false _ _ o⟩
  | psMadds1 o => exact ⟨_, _, rfl, rfl, h.psFma hP hL false false _ _ o⟩
  | psDiv o => exact ⟨_, _, rfl, rfl, h.psArith hP hL .div _ _ _ _ o⟩
  | psSub o => exact ⟨_, _, rfl, rfl, h.psArith hP hL .sub _ _ _ _ o⟩
  | psAdd o => exact ⟨_, _, rfl, rfl, h.psArith hP hL .add _ _ _ _ o⟩
  | psSel o => exact ⟨_, _, rfl, rfl, h.psSel o⟩
  | psRes o => exact ⟨_, _, rfl, rfl, h.psEst hP hL h.fields.resSlot_eq o⟩
  | psMul o => exact ⟨_, _, rfl, rfl, h.psArith hP hL .mul _ _ _ _ o⟩
  | psRsqrte o => exact ⟨_, _, rfl, rfl, h.psEst hP hL h.fields.rsqrtSlot_eq o⟩
  | psMsub o => exact ⟨_, _, rfl, rfl, h.psFma hP hL true false _ _ o⟩
  | psMadd o => exact ⟨_, _, rfl, rfl, h.psFma hP hL false false _ _ o⟩
  | psNmsub o => exact ⟨_, _, rfl, rfl, h.psFma hP hL true true _ _ o⟩
  | psNmadd o => exact ⟨_, _, rfl, rfl, h.psFma hP hL false true _ _ o⟩
  | psNeg o => exact ⟨_, _, rfl, rfl, h.moveGeneric _ o⟩
  | psMr o => exact ⟨_, _, rfl, rfl, h.moveGeneric _ o⟩
  | psNabs o => exact ⟨_, _, rfl, rfl, h.moveGeneric _ o⟩
  | psAbs o => exact ⟨_, _, rfl, rfl, h.moveGeneric _ o⟩
  | psMerge00 o => exact ⟨_, _, rfl, rfl, h.mergeGeneric false false o⟩
  | psMerge01 o => exact ⟨_, _, rfl, rfl, h.mergeGeneric false true o⟩
  | psMerge10 o => exact ⟨_, _, rfl, rfl, h.mergeGeneric true false o⟩
  | psMerge11 o => exact ⟨_, _, rfl, rfl, h.mergeGeneric true true o⟩

end Lawful

end SameUpToLayout

/-- Settles O60, by `SameUpToLayout.execWith`: the layout enters an instruction's meaning only through the fields. -/
theorem layoutIsOnlyNames : Obligations.LayoutIsOnlyNames := by
  intro P L hP hL i s u hfpr hfields
  obtain ⟨t, v, ht, hv, h⟩ := SameUpToLayout.execWith hP hL ⟨hfpr, hfields⟩ i
  exact ⟨t, v, ht, hv, h.fpr, h.fields⟩

end Sys2Proof.Said
end

section
/-!
PROOFS. The state over one instruction and one step (10_state.md): what an outcome of `exec` or `step` can be, the two
kinds of instruction in one statement; from it the frame of the register file, and the one-bit FPSCR fields outside the
summary, which an instruction can only raise.
-/

namespace Sys2Proof.Machine

/-! ### Outcomes -/

/-- Inversion of `exec`, in one form for both kinds of instruction: the destination may be written, and the FPSCR is
kept or is the engine's word, by the instruction's kind. -/
theorem exec_next_cases {i : Instr} {s t : State} (h : exec i s = .next t) :
    (i.runsEngine = false ∧ ∃ y, t = (s.writeReg i.operands.frD y).mirror i.operands.rc) ∨
      (i.runsEngine = true ∧ ∃ x fs v sig, t = EngineEffect .spec i.operands s x fs v sig ∧
        (∀ y, x = some y → IsExtended y.ps0) ∧ (∀ u, v = some u → IsExtended u)) := by
  cases hr : i.runsEngine with
  | false =>
    obtain ⟨y, hy⟩ := exec_quiet i s hr
    exact .inl ⟨rfl, y, Host.Outcome.next.inj (h.symm.trans hy)⟩
  | true =>
    obtain ⟨x, fs, v, sig, he, hx, hv⟩ := exec_engine i s hr
    exact .inr ⟨rfl, x, fs, v, sig, Host.Outcome.next.inj (h.symm.trans he), hx, hv⟩

/-- Inversion of `step`: idle, or one instruction on the state without its word. -/
theorem step_next_cases {s t : State} (h : step s = .next t) :
    (s.program = [] ∧ t = s) ∨
      ∃ word rest i, s.program = word :: rest ∧ decode word = .ok i ∧ exec i (s.withProgram rest) = .next t := by
  unfold step runNext at h
  split at h
  · next hp => exact .inl ⟨hp, (Host.Outcome.next.inj h).symm⟩
  · next word rest hp =>
    unfold runWord at h
    split at h
    · next i hi => exact .inr ⟨word, rest, i, hp, hi, h⟩
    · contradiction

/-! ### One-bit FPSCR fields over an instruction -/

/-- A one-bit field outside the summary VX, FEX, FX is or-ed with the flags and the signals of one list and one value
that do not depend on the field. -/
theorem get_exec {i : Instr} {s t : State} (h : exec i s = .next t) :
    ∃ (fs : List SlotFlags) (sig : Signals), ∀ b : FpscrBit, b ≠ .VX → b ≠ .FEX → b ≠ .FX →
      Fpscr.get t.fpscr b = (Fpscr.get s.fpscr b || fs.any (fun f => f.bit b) || sig.bit b) := by
  obtain ⟨-, y, rfl⟩ | ⟨-, x, fs, v, sig, rfl, -, -⟩ := exec_next_cases h
  · refine ⟨[], .none, fun b _ _ _ => ?_⟩
    have hsig : Signals.none.bit b = false := by cases b <;> rfl
    simp [hsig]
  · refine ⟨fs, sig, fun b hVX hFEX hFX => ?_⟩
    rw [engineEffect_fpscr]
    exact get_engineWord (P := .spec) Layout.powerPC_lawful _ fs v sig b hVX hFEX hFX

/-- The fields that an instruction may raise and never clears. -/
theorem exec_get_sticky {i : Instr} {s t : State} (h : exec i s = .next t) {b : FpscrBit} (hVX : b ≠ .VX)
    (hFEX : b ≠ .FEX) (hFX : b ≠ .FX) (hb : Fpscr.get s.fpscr b = true) : Fpscr.get t.fpscr b = true := by
  obtain ⟨fs, sig, hget⟩ := get_exec h
  simp [hget b hVX hFEX hFX, hb]

/-- The fields that no flag of a slot and no signal reaches are kept. -/
theorem exec_get_kept {i : Instr} {s t : State} (h : exec i s = .next t) {b : FpscrBit} (hVX : b ≠ .VX)
    (hFEX : b ≠ .FEX) (hFX : b ≠ .FX) (hflag : ∀ f : SlotFlags, f.bit b = false)
    (hsig : ∀ sig : Signals, sig.bit b = false) : Said.BitKept s t b := by
  obtain ⟨fs, sig, hget⟩ := get_exec h
  unfold Said.BitKept
  simp [hget b hVX hFEX hFX, hflag, hsig]

end Sys2Proof.Machine

namespace Sys2Proof.Said

open Sys2Proof.Machine

/-- Settles O20: an idle step changes nothing, and an instruction raises the ten bits or keeps them (`exec_get_sticky`)
and keeps the other three (`exec_get_kept`). -/
theorem exceptionBitsAreSticky : Obligations.ExceptionBitsAreSticky := by
  intro s t h
  obtain ⟨-, rfl⟩ | ⟨word, rest, i, -, -, hexec⟩ := step_next_cases h
  · exact ⟨fun _ _ => id, fun _ _ => rfl⟩
  · refine ⟨fun b hb => ?_, fun b hb => ?_⟩
    · have hsummary : b ≠ .VX ∧ b ≠ .FEX ∧ b ≠ .FX := by
        revert b
        decide
      obtain ⟨hVX, hFEX, hFX⟩ := hsummary
      exact exec_get_sticky hexec hVX hFEX hFX
    · simp only [List.mem_cons, List.not_mem_nil, or_false] at hb
      obtain rfl | rfl | rfl := hb <;>
        exact exec_get_kept hexec nofun nofun nofun (fun _ => rfl) (fun _ => rfl)

/-- Settles O27, by `exec_next_cases`: either way the only register written is frD. -/
theorem onlyTheDestinationChanges : Obligations.OnlyTheDestinationChanges := by
  intro i s t h
  obtain ⟨-, y, rfl⟩ | ⟨-, x, fs, v, sig, rfl, -, -⟩ := exec_next_cases h
  · exact ⟨fun r hr => (reg_mirror _ _ r).trans (reg_writeReg_ne s y hr), mirror_program _ _⟩
  · exact ⟨fun r hr => (reg_engineEffect ..).trans (reg_maybeWrite_ne s x hr), engineEffect_program ..⟩

/-- Settles O14, by `reset_reg`. -/
theorem resetZeroesTheRegisterFile : Obligations.ResetZeroesTheRegisterFile := by
  intro i
  rw [ps0_eq, ps1_eq, reset_reg]
  exact ⟨rfl, rfl⟩

end Sys2Proof.Said
end

section
/-!
PROOFS. Words and programs (20_memory.md): the four bytes of an instruction word (R51), and the run of a list of words
as the left fold of its instructions (R56). No instruction reads or changes the dispatcher's list, so it does the same
whatever words are left.
-/

namespace Sys2Proof

/-! ### The bytes of an instruction word -/

/-- The converse of `wordOfBytes_bytesOfWord`. The library's lemmas read a piece of an append only when the width of the
word is spelled as the sum of the widths. -/
theorem bytesOfWord_wordOfBytes (b0 b1 b2 b3 : Byte) : bytesOfWord (wordOfBytes b0 b1 b2 b3) = [b0, b1, b2, b3] := by
  have hword : wordOfBytes b0 b1 b2 b3 = (b0 ++ b1 ++ b2 ++ b3 : BitVec (8 + 8 + 8 + 8)) := rfl
  simp (disch := omega) only [bytesOfWord, hword, BitVec.extractLsb'_append_eq_of_le,
    BitVec.extractLsb'_append_eq_of_add_le, Nat.reduceSub, BitVec.extractLsb'_eq_self]

/-- With four bytes or more the byte decoder is the decoder on the word of the first four. -/
theorem decodeBytes_eq_ok_iff (b0 b1 b2 b3 : Byte) (rest : List Byte) (i : Instr) :
    decodeBytes (b0 :: b1 :: b2 :: b3 :: rest) = .ok (i, rest) ↔ decode (wordOfBytes b0 b1 b2 b3) = .ok i := by
  cases h : decode (wordOfBytes b0 b1 b2 b3) with
  | ok j => simp [decodeBytes, h]
  | error e => simp [decodeBytes, h]

/-- Settles O6, by `bytesOfWord_wordOfBytes` and `decodeBytes_eq_ok_iff`. -/
theorem instructionWordIsBigEndian : Obligations.InstructionWordIsBigEndian := by
  intro b0 b1 b2 b3 rest
  have hbytes := bytesOfWord_wordOfBytes b0 b1 b2 b3
  simp only [bytesOfWord, List.cons.injEq, and_true] at hbytes
  obtain ⟨h0, h1, h2, h3⟩ := hbytes
  exact ⟨h0, h1, h2, h3, decodeBytes_eq_ok_iff b0 b1 b2 b3 rest⟩

end Sys2Proof

namespace Sys2Proof.Machine

/-! ### The dispatcher's list over one instruction

The two ways an instruction ends, as in Laws/Exec.lean, leave the list as they found it. -/

theorem quiet_withProgram (s : State) (p : List B32) (d : RegIdx) (y : Fpr) (rc : Bool) :
    ((s.withProgram p).writeReg d y).mirror rc = ((s.writeReg d y).mirror rc).withProgram p := by
  cases rc <;> rfl

theorem engine_withProgram (s : State) (p : List B32) (d : RegIdx) (x : Option Fpr) (w : B32) (rc : Bool) :
    (((s.withProgram p).maybeWrite d x).setFpscr w).mirror rc =
      (((s.maybeWrite d x).setFpscr w).mirror rc).withProgram p := by
  cases x <;> cases rc <;> rfl

theorem commitSlots_withProgram (s : State) (p : List B32) (P : Params) (d : RegIdx) (rc : Bool) (x0 x1 : Slot) :
    (s.withProgram p).commitSlots P d rc x0 x1 = (s.commitSlots P d rc x0 x1).withProgram p := by
  simp only [commitSlots_eq]
  exact engine_withProgram ..

theorem sumSlot_withProgram (s : State) (p : List B32) (P : Params) (o : Operands) :
    sumSlot P o (s.withProgram p) = sumSlot P o s := rfl

theorem psSum0_withProgram (s : State) (p : List B32) (P : Params) (o : Operands) :
    psSum0 P o (s.withProgram p) = (psSum0 P o s).withProgram p := by
  unfold psSum0
  rw [sumSlot_withProgram]
  obtain ⟨flags, result⟩ := sumSlot P o s
  cases result with
  | none => exact engine_withProgram s p o.frD none _ o.rc
  | some r => exact engine_withProgram s p o.frD (some _) _ o.rc

theorem psSum1_withProgram (s : State) (p : List B32) (P : Params) (o : Operands) :
    psSum1 P o (s.withProgram p) = (psSum1 P o s).withProgram p := by
  unfold psSum1
  rw [sumSlot_withProgram]
  obtain ⟨flags, result⟩ := sumSlot P o s
  cases result with
  | none => exact engine_withProgram s p o.frD none _ o.rc
  | some r => exact engine_withProgram s p o.frD (some _) _ o.rc

/-- Every instruction answers a next state, and with other words left the same next state with those words left. -/
theorem exec_withProgram (i : Instr) (s : State) :
    ∃ t, exec i s = .next t ∧ ∀ p, exec i (s.withProgram p) = .next (t.withProgram p) := by
  cases i with
  | psSum0 o => exact ⟨_, rfl, fun p => congrArg _ (psSum0_withProgram ..)⟩
  | psSum1 o => exact ⟨_, rfl, fun p => congrArg _ (psSum1_withProgram ..)⟩
  | psMuls0 o => exact ⟨_, rfl, fun p => congrArg _ (commitSlots_withProgram ..)⟩
  | psMuls1 o => exact ⟨_, rfl, fun p => congrArg _ (commitSlots_withProgram ..)⟩
  | psMadds0 o => exact ⟨_, rfl, fun p => congrArg _ (commitSlots_withProgram ..)⟩
  | psMadds1 o => exact ⟨_, rfl, fun p => congrArg _ (commitSlots_withProgram ..)⟩
  | psDiv o => exact ⟨_, rfl, fun p => congrArg _ (commitSlots_withProgram ..)⟩
  | psSub o => exact ⟨_, rfl, fun p => congrArg _ (commitSlots_withProgram ..)⟩
  | psAdd o => exact ⟨_, rfl, fun p => congrArg _ (commitSlots_withProgram ..)⟩
  | psSel o => exact ⟨_, rfl, fun p => congrArg _ (quiet_withProgram ..)⟩
  | psRes o => exact ⟨_, rfl, fun p => congrArg _ (commitSlots_withProgram ..)⟩
  | psMul o => exact ⟨_, rfl, fun p => congrArg _ (commitSlots_withProgram ..)⟩
  | psRsqrte o => exact ⟨_, rfl, fun p => congrArg _ (commitSlots_withProgram ..)⟩
  | psMsub o => exact ⟨_, rfl, fun p => congrArg _ (commitSlots_withProgram ..)⟩
  | psMadd o => exact ⟨_, rfl, fun p => congrArg _ (commitSlots_withProgram ..)⟩
  | psNmsub o => exact ⟨_, rfl, fun p => congrArg _ (commitSlots_withProgram ..)⟩
  | psNmadd o => exact ⟨_, rfl, fun p => congrArg _ (commitSlots_withProgram ..)⟩
  | psNeg o => exact ⟨_, rfl, fun p => congrArg _ (quiet_withProgram ..)⟩
  | psMr o => exact ⟨_, rfl, fun p => congrArg _ (quiet_withProgram ..)⟩
  | psNabs o => exact ⟨_, rfl, fun p => congrArg _ (quiet_withProgram ..)⟩
  | psAbs o => exact ⟨_, rfl, fun p => congrArg _ (quiet_withProgram ..)⟩
  | psMerge00 o => exact ⟨_, rfl, fun p => congrArg _ (quiet_withProgram ..)⟩
  | psMerge01 o => exact ⟨_, rfl, fun p => congrArg _ (quiet_withProgram ..)⟩
  | psMerge10 o => exact ⟨_, rfl, fun p => congrArg _ (quiet_withProgram ..)⟩
  | psMerge11 o => exact ⟨_, rfl, fun p => congrArg _ (quiet_withProgram ..)⟩

/-! ### Runs -/

/-- A step with a word that decodes is its instruction on the state without it. -/
theorem step_of_decode {s : State} {word : B32} {rest : List B32} {i : Instr} (hs : s.program = word :: rest)
    (hi : decode word = .ok i) : step s = exec i (s.withProgram rest) := by
  simp only [step, runNext, hs, runWord, hi, State.withProgram]

theorem run_succ_of_next {s t : State} (n : Nat) (h : step s = .next t) :
    Host.Core.run core (n + 1) s = Host.Core.run core n t := by
  simp only [Host.Core.run, core, h]

end Sys2Proof.Machine

namespace Sys2Proof.Said

open Sys2Proof.Machine

theorem leftFold_cons_of_next {i : Instr} {s t : State} (is : List Instr) (h : exec i s = .next t) :
    leftFold (i :: is) s = leftFold is t := by
  simp only [leftFold, h]

/-- The run of a list of words that decode, from any state: the fold starts with no word left, which by
`exec_withProgram` makes no difference to what its instructions do. -/
theorem run_eq_leftFold (is : List Instr) (s : State) (h : s.program.map decode = is.map .ok) :
    Host.Core.run core s.program.length s = leftFold is (s.withProgram []) := by
  induction is generalizing s with
  | nil =>
    have hnil : s.program = [] := List.map_eq_nil_iff.mp h
    have hs : s.withProgram [] = s := by rw [← hnil]; rfl
    rw [hnil, hs]
    rfl
  | cons i is ih =>
    obtain ⟨word, rest, hp, hi, hrest⟩ := List.map_eq_cons_iff.mp h
    obtain ⟨t, -, ht⟩ := exec_withProgram i s
    have hstep : step s = .next (t.withProgram rest) := (step_of_decode hp hi).trans (ht rest)
    rw [hp, List.length_cons, run_succ_of_next _ hstep, leftFold_cons_of_next is (ht [])]
    exact ih (t.withProgram rest) hrest

/-- Settles O12, by `run_eq_leftFold`. -/
theorem programRunIsTheLeftFold : Obligations.ProgramRunIsTheLeftFold :=
  fun s is h => run_eq_leftFold is s h

end Sys2Proof.Said
end

section
/-!
PROOFS. Records as operands (30_encoding.md): which fields of its record each family reads (R70), and that every record
has an effect, whatever the state and the parameters (R60).
-/

namespace Sys2Proof.Machine

/-! ### The fields of the record that a family reads

A family with a field it does not read answers the same for two records that agree on the others. -/

section ReadFields

variable {o o' : Operands} (s : State) (P : Params) (hd : o'.frD = o.frD) (hrc : o'.rc = o.rc)
include hd hrc

/-- Besides the operands it is given, the arithmetic skeleton reads frD and rc. -/
theorem psArith_congr (op : ArithOp) (a0 b0 a1 b1 : B64) :
    psArith P op a0 b0 a1 b1 o' s = psArith P op a0 b0 a1 b1 o s := by
  simp only [psArith, hd, hrc]

variable (hb : o'.frB = o.frB)
include hb

theorem psEst_congr (slot : B32 → B64 → Slot) : psEst P slot o' s = psEst P slot o s := by
  simp only [psEst, hd, hrc, hb]

theorem moveGeneric_congr (sop : B32 → B32) : moveGeneric P sop o' s = moveGeneric P sop o s := by
  simp only [moveGeneric, hd, hrc, hb]

theorem mergeGeneric_congr (ha : o'.frA = o.frA) (m0 m1 : Bool) :
    mergeGeneric P m0 m1 o' s = mergeGeneric P m0 m1 o s := by
  simp only [mergeGeneric, mergeLane0, mergeLane1, hd, hrc, hb, ha]

end ReadFields

/-! ### Completion and frame, at any parameters -/

/-- Every record answers a next state, with the dispatcher's list and all registers but frD as they were: in the two
forms of Laws/Exec.lean the only register write is to frD. -/
theorem execWith_completes (P : Params) (i : Instr) (s : State) :
    ∃ t, execWith P i s = .next t ∧ t.program = s.program ∧ Said.OthersKept s t i.operands.frD := by
  cases hr : i.runsEngine with
  | false =>
    obtain ⟨y, hy⟩ := execWith_quiet P i s hr
    exact ⟨_, hy, mirror_program _ _, fun r hne => (reg_mirror _ _ r).trans (reg_writeReg_ne s y hne)⟩
  | true =>
    obtain ⟨x, fs, v, sig, he, -, -⟩ := execWith_engine P i s hr
    exact ⟨_, he, engineEffect_program .., fun r hne => (reg_engineEffect ..).trans (reg_maybeWrite_ne s x hne)⟩

/-- `execWith_completes` at the spec's parameters, without the registers. -/
theorem exec_completes (i : Instr) (s : State) : ∃ t, exec i s = .next t ∧ t.program = s.program := by
  obtain ⟨t, ht, hprogram, -⟩ := execWith_completes .spec i s
  exact ⟨t, (exec_eq_execWith i s).trans ht, hprogram⟩

end Sys2Proof.Machine

namespace Sys2Proof.Said

open Sys2Proof.Machine

/-- Settles O8: each instruction is its family's skeleton on lanes of the fields it reads, and the skeleton reads none
of the others. -/
theorem unreadFieldsAreIgnored : Obligations.UnreadFieldsAreIgnored := by
  intro o x y s
  refine ⟨?psAdd, ?psSub, ?psDiv, ?psMul, ?psMuls0, ?psMuls1, ?psRes, ?psRsqrte, ?psMr, ?psNeg, ?psAbs, ?psNabs,
    ?psMerge00, ?psMerge01, ?psMerge10, ?psMerge11⟩
  case psAdd | psSub | psDiv | psMul | psMuls0 | psMuls1 =>
    exact congrArg Host.Outcome.next (psArith_congr s .spec rfl rfl ..)
  case psRes | psRsqrte => exact congrArg Host.Outcome.next (psEst_congr s .spec rfl rfl rfl _)
  case psMr | psNeg | psAbs | psNabs => exact congrArg Host.Outcome.next (moveGeneric_congr s .spec rfl rfl rfl _)
  case psMerge00 | psMerge01 | psMerge10 | psMerge11 =>
    exact congrArg Host.Outcome.next (mergeGeneric_congr s .spec rfl rfl rfl rfl _ _)

/-- Settles O11, by `execWith_completes`; exec, step and the reset state are their parametric forms at the spec's
choice, by Laws/Exec.lean. -/
theorem everyRecordExecutes : Obligations.EveryRecordExecutes :=
  ⟨exec_completes, execWith_completes, exec_eq_execWith, step_eq_stepWith, reset_eq_resetWith⟩

end Sys2Proof.Said
end

section
/-!
PROOFS. Widening and narrowing a lane by its bits (40_fp_value_model.md R89 to R91): the four shapes of a widened
binary32, the predicates on it, and that bit truncation undoes it.
-/

namespace Sys2Proof.Machine

/-! ### The predicates by the fields (R81 to R84) -/

theorem isNan32_iff_fields {v : B32} : isNan32 v = true ↔ exp32 v = 0xFF ∧ frac32 v ≠ 0 := by simp [isNan32]
theorem isInf32_iff_fields {v : B32} : isInf32 v = true ↔ exp32 v = 0xFF ∧ frac32 v = 0 := by simp [isInf32]
theorem isZero32_iff_fields {v : B32} : isZero32 v = true ↔ exp32 v = 0 ∧ frac32 v = 0 := by simp [isZero32]
theorem isNan64_iff_fields {v : B64} : isNan64 v = true ↔ exp64 v = 0x7FF ∧ frac64 v ≠ 0 := by simp [isNan64]
theorem isInf64_iff_fields {v : B64} : isInf64 v = true ↔ exp64 v = 0x7FF ∧ frac64 v = 0 := by simp [isInf64]
theorem isZero64_iff_fields {v : B64} : isZero64 v = true ↔ exp64 v = 0 ∧ frac64 v = 0 := by simp [isZero64]

/-! ### The four shapes of a widened binary32 (R89) -/

/-- A subnormal's fraction, shifted until its highest set bit falls off the top, is that fraction scaled, less the
hidden bit. -/
theorem toNat_normalizedFrac {f : BitVec 23} (hf : f ≠ 0) :
    2 ^ 52 + (f.setWidth 52 <<< (52 - f.toNat.log2)).toNat = f.toNat * 2 ^ (52 - f.toNat.log2) := by
  have hf0 : f.toNat ≠ 0 := fun h => hf (BitVec.toNat_inj.mp h)
  have hlo := Nat.log2_self_le hf0
  have hhi := Nat.lt_log2_self (n := f.toNat)
  have hk : f.toNat.log2 < 23 := (Nat.log2_lt hf0).mpr f.isLt
  rw [BitVec.toNat_shiftLeft, BitVec.toNat_setWidth_of_le (by omega), Nat.shiftLeft_eq]
  generalize f.toNat = n at *
  generalize n.log2 = k at *
  have hpow : 2 ^ k * 2 ^ (52 - k) = 2 ^ 52 := by rw [← pow_add]; congr 1; omega
  have hge : 2 ^ 52 ≤ n * 2 ^ (52 - k) := hpow ▸ Nat.mul_le_mul_right _ hlo
  have hlt : n * 2 ^ (52 - k) < 2 * 2 ^ 52 := by
    rw [← hpow, ← mul_assoc, ← pow_succ']
    exact Nat.mul_lt_mul_of_pos_right hhi (by positivity)
  omega

/-- The bits below a subnormal's hidden bit, cut to 23 and shifted back under it, are its fraction. -/
theorem denormalized_frac {f : BitVec 23} {k : Nat} (hk : k < 23) {g : BitVec 52}
    (hg : 2 ^ 52 + g.toNat = f.toNat * 2 ^ (52 - k)) :
    (((1 : BitVec 1) ++ g.extractLsb' 29 23) >>> (23 - k)).setWidth 23 = f := by
  have hsplit : 2 ^ (52 - k) = 2 ^ (23 - k) * 2 ^ 29 := by rw [← pow_add]; congr 1; omega
  have hhigh : 2 ^ 23 + g.toNat / 2 ^ 29 = f.toNat * 2 ^ (23 - k) := by
    rw [hsplit, ← mul_assoc] at hg
    omega
  have hlt := g.isLt
  have happend : ((1 : BitVec 1) ++ g.extractLsb' 29 23).toNat = f.toNat * 2 ^ (23 - k) := by
    rw [BitVec.toNat_append, BitVec.extractLsb'_toNat, Nat.shiftRight_eq_div_pow,
      Nat.mod_eq_of_lt (by omega), ← hhigh, ← Nat.shiftLeft_add_eq_or_of_lt (by omega)]
    simp [Nat.shiftLeft_eq]
  rw [← BitVec.toNat_inj, BitVec.toNat_setWidth, BitVec.toNat_ushiftRight, happend, Nat.shiftRight_eq_div_pow,
    Nat.mul_div_cancel _ (by positivity), Nat.mod_eq_of_lt f.isLt]

/-- `v` is `x` widened: its shape, by the exponent field and the fraction of `x`. -/
inductive Widened (x : B32) : B64 → Prop
  | special (he : exp32 x = 0xFF) : Widened x (pack64 (sign32 x) 0x7FF (frac32 x ++ (0 : BitVec 29)))
  | normal (hpos : 0 < (exp32 x).toNat) (hlt : (exp32 x).toNat < 255) (e : BitVec 11)
      (he : e.toNat = (exp32 x).toNat + 896) : Widened x (pack64 (sign32 x) e (frac32 x ++ (0 : BitVec 29)))
  | zero (he : exp32 x = 0) (hf : frac32 x = 0) : Widened x (pack64 (sign32 x) 0 0)
  | subnormal (he : exp32 x = 0) (hf : frac32 x ≠ 0) (k : Nat) (hk : k < 23) (e : BitVec 11) (hke : e.toNat = k + 874)
      (f : BitVec 52) (hkf : 2 ^ 52 + f.toNat = (frac32 x).toNat * 2 ^ (52 - k)) : Widened x (pack64 (sign32 x) e f)

theorem widened_extendFloat (x : B32) : Widened x (extendFloat x) := by
  simp only [extendFloat]
  split_ifs with hspecial hnormal hzero
  · exact .special hspecial
  · have hlt : (exp32 x).toNat ≠ 255 := fun h => hspecial (BitVec.toNat_inj.mp h)
    have hpos : (exp32 x).toNat ≠ 0 := fun h => hnormal (BitVec.toNat_inj.mp h)
    refine .normal (by omega) (by omega) _ ?_
    rw [BitVec.toNat_ofNat, Nat.mod_eq_of_lt (by omega)]
  · exact .zero (not_not.mp hnormal) hzero
  · have hk : (frac32 x).toNat.log2 < 23 :=
      (Nat.log2_lt fun h => hzero (BitVec.toNat_inj.mp h)).mpr (frac32 x).isLt
    refine .subnormal (not_not.mp hnormal) hzero _ hk _ ?_ _ (toNat_normalizedFrac hzero)
    rw [BitVec.toNat_ofNat, Nat.mod_eq_of_lt (by omega)]

namespace Widened

variable {x : B32} {v : B64}

/-! ### The predicates on a widened binary32 (R103) -/

theorem sign (h : Widened x v) : sign64 v = sign32 x := by
  cases h <;> exact sign64_pack64 ..

/-- The exponent field is all ones together with that of `x`, and otherwise in the range that `truncBits` covers. -/
theorem exp (h : Widened x v) :
    (exp64 v).toNat = 2047 ∧ exp32 x = 0xFF ∨ (exp64 v).toNat ≤ 1150 ∧ exp32 x ≠ 0xFF := by
  cases h with
  | special he => exact .inl ⟨by simp, he⟩
  | normal hpos hlt e he =>
    have hne : exp32 x ≠ 0xFF := fun h => by simp [h] at hlt
    exact .inr ⟨by rw [exp64_pack64]; omega, hne⟩
  | zero he hf => exact .inr ⟨by simp, by simp [he]⟩
  | subnormal he hf k hk e hke f hkf => exact .inr ⟨by rw [exp64_pack64]; omega, by simp [he]⟩

theorem exp_eq_iff (h : Widened x v) : exp64 v = 0x7FF ↔ exp32 x = 0xFF := by
  rw [← BitVec.toNat_inj]
  obtain ⟨hv, hx⟩ | ⟨hv, hx⟩ := h.exp
  · simp [hv, hx]
  · exact iff_of_false (fun h' => by simp [h'] at hv) hx

/-- Of a special value the fraction is widened by zeros. -/
theorem frac_of_special (h : Widened x v) (he : exp32 x = 0xFF) : frac64 v = frac32 x ++ (0 : BitVec 29) := by
  cases h with
  | special _ => exact frac64_pack64 ..
  | normal hpos hlt e _ => exact frac64_pack64 ..
  | zero h0 _ => simp [he] at h0
  | subnormal h0 => simp [he] at h0

theorem isNan (h : Widened x v) : isNan64 v = isNan32 x := by
  rw [Bool.eq_iff_iff, isNan64_iff_fields, isNan32_iff_fields, h.exp_eq_iff]
  refine and_congr_right fun he => ?_
  rw [h.frac_of_special he, ne_eq, widened_frac_eq_zero]

theorem isInf (h : Widened x v) : isInf64 v = isInf32 x := by
  rw [Bool.eq_iff_iff, isInf64_iff_fields, isInf32_iff_fields, h.exp_eq_iff]
  refine and_congr_right fun he => ?_
  rw [h.frac_of_special he, widened_frac_eq_zero]

/-- The quiet bit is kept. -/
theorem isSnan (h : Widened x v) : isSnan64 v = isSnan32 x := by
  rw [isSnan64, isSnan32, h.isNan]
  cases hn : isNan32 x with
  | false => rfl
  | true =>
    rw [quietBit64, quietBit32, h.frac_of_special (isNan32_iff_fields.mp hn).1, BitVec.getLsbD_append]
    rfl

theorem isZero (h : Widened x v) : isZero64 v = isZero32 x := by
  cases h with
  | special he => simp [isZero64, isZero32, he]
  | normal hpos hlt e he =>
    have h1 : e ≠ 0 := fun h => by simp [h] at he
    have h2 : exp32 x ≠ 0 := fun h => by simp [h] at hpos
    simp only [isZero64, isZero32, exp64_pack64, beq_false_of_ne h1, beq_false_of_ne h2, Bool.false_and]
  | zero he hf => simp [isZero64, isZero32, he, hf]
  | subnormal he hf k hk e hke f hkf =>
    have h1 : e ≠ 0 := fun h => by simp [h] at hke
    simp only [isZero64, isZero32, exp64_pack64, beq_false_of_ne h1, beq_false_of_ne hf, Bool.false_and, Bool.and_false]

/-! ### Truncation undoes widening (R90, R103) -/

theorem truncBits (h : Widened x v) : truncBits v = x := by
  rw [← pack32_fields x]
  cases h with
  | special he =>
    simp only [Machine.truncBits, exp64_pack64, sign64_pack64, fracHigh_pack64, extract_widened_frac, he]
    rfl
  | normal hpos hlt e he =>
    simp only [Machine.truncBits, exp64_pack64, sign64_pack64, fracHigh_pack64, extract_widened_frac, he]
    rw [if_neg (by omega), if_pos (by omega), Nat.add_sub_cancel, BitVec.ofNat_toNat, BitVec.setWidth_eq]
  | zero he hf => simp [Machine.truncBits, he, hf]
  | subnormal he hf k hk e hke f hkf =>
    simp only [Machine.truncBits, exp64_pack64, sign64_pack64, fracHigh_pack64, hke]
    rw [if_neg (by omega), if_neg (by omega), if_pos (by omega), show 897 - (k + 874) = 23 - k by omega,
      denormalized_frac hk hkf, he]

end Widened

/-- R89 and R91 widen alike where the exponent field is all ones. -/
theorem extendFloat_of_special {x : B32} (he : exp32 x = 0xFF) : extendFloat x = extendFloatNanBits x := by
  simp [extendFloat, extendFloatNanBits, he]

end Sys2Proof.Machine

namespace Sys2Proof.Said

open Sys2Proof.Machine

/-- Settles O50, by `Widened.truncBits`. -/
theorem truncationUndoesWidening : Obligations.TruncationUndoesWidening :=
  fun x => (widened_extendFloat x).truncBits

/-- Settles O52, predicate by predicate on the shapes of a widened binary32. -/
theorem predicatesAgreeAcrossWidening : Obligations.PredicatesAgreeAcrossWidening := by
  intro x
  have h := widened_extendFloat x
  exact ⟨h.isNan, h.isSnan, h.isInf, h.isZero, h.sign⟩

/-- Settles O18, by `Widened.exp`: a lane 0 is some binary32, widened. -/
theorem laneInvariantExcludesTheFreeValue : Obligations.LaneInvariantExcludesTheFreeValue := by
  intro s hs i
  obtain ⟨x, hx⟩ := hs i
  rw [hx]
  obtain ⟨h, -⟩ | ⟨h, -⟩ := (widened_extendFloat x).exp <;> omega

end Sys2Proof.Said
end

section
/-!
PROOFS. Rounding is IEEE rounding of the real value (40_fp_value_model.md R92, R93): the exponent that it starts from,
the rounding to a multiple of a power of two, and the rounding to a format with its signals.
-/

namespace Sys2Proof.Machine

/-! ### A magnitude and its real -/

theorem two_zpow_pos (k : ℤ) : (0 : ℝ) < 2 ^ k := by positivity

theorem two_zpow_sq (k : ℤ) : ((2 : ℝ) ^ k) ^ 2 = 2 ^ (2 * k) := by
  rw [← zpow_natCast, ← zpow_mul, mul_comm]
  rfl

/-- The floor of a scaled magnitude, for quotients and roots at once. -/
theorem Magnitude.isFloor_floorAt {m : Magnitude} {x : ℝ} (hm : Said.Positive m) (hx : Said.IsReal m x) (k : ℤ) :
    IsFloor (m.floorAt k) (x * 2 ^ k) := by
  cases m with
  | quotient num den => exact hx ▸ floorAt_quotient num den hm.2 k
  | root num den => exact hx ▸ floorAt_root num den hm.2 k

theorem quotientLog_spec {num den : Nat} (hn : 0 < num) (hd : 0 < den) :
    (2 : ℝ) ^ quotientLog num den ≤ (num : ℝ) / den ∧ (num : ℝ) / den < 2 ^ (quotientLog num den + 1) := by
  have hdR : (0 : ℝ) < den := by exact_mod_cast hd
  have hnlo : (2 : ℝ) ^ (num.log2 : ℤ) ≤ num := by exact_mod_cast Nat.log2_self_le hn.ne'
  have hnhi : (num : ℝ) < 2 ^ ((num.log2 : ℤ) + 1) := by exact_mod_cast Nat.lt_log2_self (n := num)
  have hdlo : (2 : ℝ) ^ (den.log2 : ℤ) ≤ den := by exact_mod_cast Nat.log2_self_le hd.ne'
  have hdhi : (den : ℝ) < 2 ^ ((den.log2 : ℤ) + 1) := by exact_mod_cast Nat.lt_log2_self (n := den)
  have hval := scaleBy_value num den (-((num.log2 : ℤ) - den.log2))
  have hpos := scaleBy_den_pos (num := num) hd (-((num.log2 : ℤ) - den.log2))
  simp only [quotientLog]
  generalize scaleBy num den (-((num.log2 : ℤ) - den.log2)) = ab at *
  obtain ⟨a, b⟩ := ab
  generalize (num.log2 : ℤ) = i at *
  generalize (den.log2 : ℤ) = j at *
  have hb : (0 : ℝ) < b := by exact_mod_cast hpos
  rw [zpow_neg, ← div_eq_mul_inv] at hval
  have hcmp : b ≤ a ↔ (2 : ℝ) ^ (i - j) ≤ num / den := by
    rw [← one_le_div (two_zpow_pos _), ← hval, one_le_div hb]
    exact Nat.cast_le.symm
  have hlo : (2 : ℝ) ^ (i - j - 1) ≤ num / den := by
    rw [le_div_iff₀ hdR]
    calc (2 : ℝ) ^ (i - j - 1) * den ≤ 2 ^ (i - j - 1) * 2 ^ (j + 1) := by gcongr
      _ = 2 ^ i := by rw [← zpow_add₀ (by norm_num)]; congr 1; ring
      _ ≤ num := hnlo
  have hhi : (num : ℝ) / den < 2 ^ (i - j + 1) := by
    rw [div_lt_iff₀ hdR]
    calc (num : ℝ) < 2 ^ (i + 1) := hnhi
      _ = 2 ^ (i - j + 1) * 2 ^ j := by rw [← zpow_add₀ (by norm_num)]; congr 1; ring
      _ ≤ 2 ^ (i - j + 1) * den := by gcongr
  split
  · exact ⟨hcmp.mp ‹_›, hhi⟩
  · rw [sub_add_cancel]
    exact ⟨hlo, not_le.mp (mt hcmp.mpr ‹_›)⟩

/-- The exponent that R93 starts from is the floor of the base-2 logarithm. -/
theorem Magnitude.log_spec {m : Magnitude} {x : ℝ} (hm : Said.Positive m) (hx : Said.IsReal m x) :
    (2 : ℝ) ^ m.log ≤ x ∧ x < (2 : ℝ) ^ (m.log + 1) := by
  cases m with
  | quotient num den => exact hx ▸ quotientLog_spec hm.1 hm.2
  | root num den =>
    obtain ⟨hlo, hhi⟩ := quotientLog_spec hm.1 hm.2
    obtain rfl : x = Real.sqrt ((num : ℝ) / den) := hx
    simp only [Magnitude.log]
    constructor
    · apply Real.le_sqrt_of_sq_le
      rw [two_zpow_sq]
      exact (zpow_le_zpow_right₀ (by norm_num) (by omega)).trans hlo
    · rw [Real.sqrt_lt' (two_zpow_pos _), two_zpow_sq]
      exact hhi.trans_le (zpow_le_zpow_right₀ (by norm_num) (by omega))

end Sys2Proof.Machine

namespace Sys2Proof.Said

open Sys2Proof.Machine

/-! ### Rounding to a multiple (R92) -/

section Rounded

variable {z x u : ℝ} {k : ℕ} {rm : RoundMode} {neg : Bool}

/-- Rounding to an integer, scaled to rounding to a multiple of `u`. -/
theorem Rounded.scale (hu : 0 < u) (h : Rounded z 1 k rm neg) : Rounded (z * u) u k rm neg := by
  have habs : |z * u - k * u| = |z - k * 1| * u := by rw [← sub_mul, abs_mul, abs_of_pos hu, mul_one]
  have hdown : k * 1 ≤ z ∧ z < (k + 1) * 1 → k * u ≤ z * u ∧ z * u < (k + 1) * u := by
    rintro ⟨h1, h2⟩
    constructor <;> nlinarith
  have hup : z ≤ k * 1 ∧ k * 1 < z + 1 → z * u ≤ k * u ∧ k * u < z * u + u := by
    rintro ⟨h1, h2⟩
    constructor <;> nlinarith
  match rm, neg, h with
  | .rne, _, ⟨hle, htie⟩ =>
    refine ⟨?_, fun h => htie ?_⟩
    · rw [habs]
      nlinarith
    · rw [habs] at h
      exact mul_right_cancel₀ hu.ne' (h.trans (by ring : u / 2 = 1 / 2 * u))
  | .rtz, _, h => exact hdown h
  | .rup, true, h => exact hdown h
  | .rup, false, h => exact hup h
  | .rdn, true, h => exact hup h
  | .rdn, false, h => exact hdown h

/-- Whatever the mode, a rounded value is less than one unit away. -/
theorem Rounded.dist_lt (hu : 0 < u) (h : Rounded x u k rm neg) : |x - k * u| < u := by
  have hdown : k * u ≤ x ∧ x < (k + 1) * u → |x - k * u| < u := by
    rintro ⟨h1, h2⟩
    rw [abs_lt]
    constructor <;> linarith
  have hup : x ≤ k * u ∧ k * u < x + u → |x - k * u| < u := by
    rintro ⟨h1, h2⟩
    rw [abs_lt]
    constructor <;> linarith
  match rm, neg, h with
  | .rne, _, ⟨hle, _⟩ => exact hle.trans_lt (by linarith)
  | .rtz, _, h => exact hdown h
  | .rup, true, h => exact hdown h
  | .rup, false, h => exact hup h
  | .rdn, true, h => exact hup h
  | .rdn, false, h => exact hdown h

/-- Rounding does not pass a multiple of the unit, from above or from below. -/
theorem Rounded.le_of_le (hu : 0 < u) (h : Rounded x u k rm neg) {n : ℕ} (hn : n * u ≤ x) : n ≤ k := by
  have habs := abs_lt.mp (h.dist_lt hu)
  have : (n : ℝ) < k + 1 := by nlinarith [habs.2]
  exact Nat.lt_succ_iff.mp (by exact_mod_cast this)

theorem Rounded.le_of_ge (hu : 0 < u) (h : Rounded x u k rm neg) {n : ℕ} (hn : x ≤ n * u) : k ≤ n := by
  have habs := abs_lt.mp (h.dist_lt hu)
  have : (k : ℝ) < n + 1 := by nlinarith [habs.1]
  exact Nat.lt_succ_iff.mp (by exact_mod_cast this)

/-- A multiple of the unit is rounded to itself. -/
theorem Rounded.eq_of_multiple (hu : 0 < u) (h : Rounded x u k rm neg) {n : ℕ} (hn : x = n * u) : k = n :=
  le_antisymm (h.le_of_ge hu hn.le) (h.le_of_le hu hn.ge)

end Rounded

end Sys2Proof.Said

namespace Sys2Proof.Machine

/-- The decision of `Magnitude.roundTo` on the floor of twice the value. -/
def roundHalves (f : Nat × Bool) (rm : RoundMode) (s : Bool) : Nat × Bool :=
  let half := f.1 % 2 == 1
  let up := match rm with
    | .rne => half && (f.2 || f.1 / 2 % 2 == 1)
    | .rtz => false
    | .rup => (half || f.2) && !s
    | .rdn => (half || f.2) && s
  (if up then f.1 / 2 + 1 else f.1 / 2, half || f.2)

theorem Magnitude.roundTo_eq (m : Magnitude) (q : ℤ) (rm : RoundMode) (s : Bool) :
    m.roundTo q rm s = roundHalves (m.floorAt (1 - q)) rm s := rfl

/-- Where rounding down to `k` is right. -/
theorem rounded_down {z : ℝ} {k : ℕ} {rm : RoundMode} {s : Bool} (hlo : k ≤ z) (hhi : z < k + 1)
    (hrne : rm = .rne → z ≤ k + 1 / 2 ∧ (z = k + 1 / 2 → k % 2 = 0)) (hrup : rm = .rup → s = false → z = k)
    (hrdn : rm = .rdn → s = true → z = k) : Said.Rounded z 1 k rm s := by
  have habs : |z - k * 1| = z - k := by rw [mul_one, abs_of_nonneg (by linarith)]
  have hdown : k * 1 ≤ z ∧ z < (k + 1) * 1 := ⟨by linarith, by linarith⟩
  match rm, s with
  | .rne, _ =>
    obtain ⟨hle, htie⟩ := hrne rfl
    exact ⟨by rw [habs]; linarith, fun h => htie (by rw [habs] at h; linarith)⟩
  | .rtz, _ => exact hdown
  | .rup, true => exact hdown
  | .rup, false => exact ⟨by linarith [hrup rfl rfl], by linarith⟩
  | .rdn, true => exact ⟨by linarith [hrdn rfl rfl], by linarith⟩
  | .rdn, false => exact hdown

/-- Where rounding up to `k + 1` is right. -/
theorem rounded_up {z : ℝ} {k : ℕ} {rm : RoundMode} {s : Bool} (hlo : k < z) (hhi : z < k + 1)
    (hrne : rm = .rne → k + 1 / 2 ≤ z ∧ (z = k + 1 / 2 → k % 2 = 1)) (hrtz : rm ≠ .rtz) (hrup : rm = .rup → s = false)
    (hrdn : rm = .rdn → s = true) : Said.Rounded z 1 (k + 1) rm s := by
  have habs : |z - (k + 1 : ℕ) * 1| = k + 1 - z := by
    rw [mul_one, abs_sub_comm, Nat.cast_succ, abs_of_nonneg (by linarith)]
  have hup : z ≤ (k + 1 : ℕ) * 1 ∧ (k + 1 : ℕ) * 1 < z + 1 := by
    push_cast
    constructor <;> linarith
  cases rm with
  | rne =>
    obtain ⟨hle, htie⟩ := hrne rfl
    refine ⟨by rw [habs]; linarith, fun h => ?_⟩
    have := htie (by rw [habs] at h; linarith)
    omega
  | rtz => exact absurd rfl hrtz
  | rup => exact hrup rfl ▸ hup
  | rdn => exact hrdn rfl ▸ hup

/-- Where the value stands between `k` and `k + 1`, by the bit below the last kept one and the rest. -/
theorem halves_spec {k : ℕ} {half sticky : Bool} {z : ℝ} (hf : IsFloor (2 * k + half.toNat, sticky) (2 * z)) :
    k ≤ z ∧ z < k + 1 ∧ (half = true → k + 1 / 2 ≤ z) ∧ (half = false → z < k + 1 / 2) ∧
      ((half || sticky) = false ↔ (k : ℝ) = z) ∧ (half = true → (sticky = false ↔ z = k + 1 / 2)) := by
  obtain ⟨hlo, hhi, hsticky⟩ := hf
  push_cast at hlo hhi hsticky
  cases half with
  | false =>
    simp only [Bool.toNat_false, Nat.cast_zero] at hlo hhi hsticky
    refine ⟨by linarith, by linarith, nofun, fun _ => by linarith, ?_, nofun⟩
    rw [Bool.false_or, hsticky]
    constructor <;> intro h <;> linarith
  | true =>
    simp only [Bool.toNat_true, Nat.cast_one] at hlo hhi hsticky
    refine ⟨by linarith, by linarith, fun _ => by linarith, nofun, ?_, fun _ => ?_⟩
    · exact iff_of_false nofun (by intro h; linarith)
    · rw [hsticky]
      constructor <;> intro h <;> linarith

/-- Rounding to an integer, from the floor of twice the value. -/
theorem roundHalves_spec {f : Nat × Bool} {z : ℝ} (hf : IsFloor f (2 * z)) (rm : RoundMode) (s : Bool) :
    Said.Rounded z 1 (roundHalves f rm s).1 rm s ∧
      ((roundHalves f rm s).2 = false ↔ ((roundHalves f rm s).1 : ℝ) = z) := by
  obtain ⟨t, sticky⟩ := f
  obtain ⟨k, half, rfl⟩ : ∃ (k : ℕ) (half : Bool), t = 2 * k + half.toNat := by
    obtain ⟨k, h | h⟩ := Nat.even_or_odd' t
    · exact ⟨k, false, h⟩
    · exact ⟨k, true, h⟩
  have hk : (2 * k + half.toNat) / 2 = k := by cases half <;> simp; omega
  have hhalf : ((2 * k + half.toNat) % 2 == 1) = half := by cases half <;> simp
  obtain ⟨hlo, hhi, hge, hlt, hexact, htie⟩ := halves_spec hf
  simp only [roundHalves, hk, hhalf, hexact]
  split_ifs with hup
  · have hne : (k : ℝ) ≠ z := mt hexact.mpr (by cases rm <;> cases half <;> simp_all)
    refine ⟨rounded_up (lt_of_le_of_ne hlo hne) hhi ?nearest ?towardZero ?upward ?downward,
      iff_of_false hne (by push_cast; linarith)⟩
    case nearest =>
      rintro rfl
      obtain ⟨hh, hsk⟩ : half = true ∧ (sticky = true ∨ k % 2 = 1) := by simpa using hup
      exact ⟨hge hh, fun h => hsk.resolve_left (by simp [(htie hh).mpr h])⟩
    case towardZero =>
      rintro rfl
      simp at hup
    case upward | downward =>
      rintro rfl
      exact (by simpa using hup : _ ∧ _).2
  · refine ⟨rounded_down hlo hhi ?nearest ?upward ?downward, Iff.rfl⟩
    case nearest =>
      rintro rfl
      cases hh : half with
      | false => exact ⟨(hlt hh).le, fun h => absurd h (hlt hh).ne⟩
      | true =>
        obtain ⟨rfl, hpar⟩ : sticky = false ∧ k % 2 = 0 := by simpa [hh] using hup
        exact ⟨((htie hh).mp rfl).le, fun _ => hpar⟩
    case upward | downward =>
      rintro rfl rfl
      exact (hexact.mp (by simpa using hup)).symm

/-- R92: rounding to a multiple of `2^q` is right in every mode, and the flag says whether the value changed. -/
theorem Magnitude.roundTo_spec {m : Magnitude} {x : ℝ} (hm : Said.Positive m) (hx : Said.IsReal m x) (q : ℤ)
    (rm : RoundMode) (s : Bool) :
    Said.Rounded x (2 ^ q) (m.roundTo q rm s).1 rm s ∧
      ((m.roundTo q rm s).2 = false ↔ ((m.roundTo q rm s).1 : ℝ) * 2 ^ q = x) := by
  have hq := two_zpow_pos q
  have hscale : x * 2 ^ (1 - q) = 2 * (x / 2 ^ q) := by
    rw [zpow_sub₀ (by norm_num), zpow_one]
    ring
  have hx' : x / 2 ^ q * 2 ^ q = x := div_mul_cancel₀ x hq.ne'
  obtain ⟨hround, hexact⟩ := roundHalves_spec (hscale ▸ m.isFloor_floorAt hm hx (1 - q)) rm s
  rw [m.roundTo_eq]
  exact ⟨hx' ▸ hround.scale hq, hexact.trans (eq_div_iff hq.ne')⟩

/-! ### Rounding to a format (R93) -/

theorem pow_mul_two_zpow (n : ℕ) (k : ℤ) : ((2 ^ n : ℕ) : ℝ) * 2 ^ k = 2 ^ (n + k) := by
  rw [zpow_add₀ (by norm_num), zpow_natCast]
  push_cast
  rfl

/-! Of less than `2^n` units, and of at least as many. -/

theorem mul_two_zpow_lt {i n : ℕ} (h : i < 2 ^ n) (k : ℤ) : (i : ℝ) * 2 ^ k < 2 ^ (n + k) := by
  rw [← pow_mul_two_zpow]
  exact mul_lt_mul_of_pos_right (Nat.cast_lt.mpr h) (two_zpow_pos k)

theorem le_mul_two_zpow {i n : ℕ} (h : 2 ^ n ≤ i) (k : ℤ) : (2 : ℝ) ^ (n + k) ≤ i * 2 ^ k := by
  rw [← pow_mul_two_zpow]
  exact mul_le_mul_of_nonneg_right (Nat.cast_le.mpr h) (two_zpow_pos k).le

theorem two_zpow_le_iff {i j : ℤ} : (2 : ℝ) ^ i ≤ 2 ^ j ↔ i ≤ j := zpow_le_zpow_iff_right₀ (by norm_num)

/-- A value whose logarithm has floor `t` is below `2^n` exactly when `t` is below `n`. -/
theorem lt_two_zpow_iff {y : ℝ} {t n : ℤ} (hlo : (2 : ℝ) ^ t ≤ y) (hhi : y < 2 ^ (t + 1)) : y < 2 ^ n ↔ t < n :=
  ⟨fun h => (zpow_lt_zpow_iff_right₀ (by norm_num : (1 : ℝ) < 2)).mp (hlo.trans_lt h),
    fun h => hhi.trans_le (two_zpow_le_iff.mpr h)⟩

/-- What R93 needs of a format; both formats have it. -/
structure FpFormat.Regular (fmt : FpFormat) : Prop where
  p_pos    : 1 ≤ fmt.p
  emax_pos : 1 ≤ fmt.emax
  emin_eq  : fmt.emin = 1 - fmt.emax

theorem binary32_regular : binary32.Regular := ⟨by decide, by decide, by decide⟩
theorem binary64_regular : binary64.Regular := ⟨by decide, by decide, by decide⟩

/-- A value rounded to `p` bits has `p` bits or is `2^p`. -/
theorem rounded_bits {x : ℝ} {e : ℤ} {p k : ℕ} {rm : RoundMode} {s : Bool} (hp : 1 ≤ p) (hlo : (2 : ℝ) ^ e ≤ x)
    (hhi : x < 2 ^ (e + 1)) (hk : Said.Rounded x (2 ^ (e - p + 1)) k rm s) : 2 ^ (p - 1) ≤ k ∧ k ≤ 2 ^ p := by
  have hu := two_zpow_pos (e - p + 1)
  constructor
  · refine hk.le_of_le hu ?_
    rw [pow_mul_two_zpow, show ((p - 1 : ℕ) : ℤ) + (e - p + 1) = e by omega]
    exact hlo
  · refine hk.le_of_ge hu ?_
    rw [pow_mul_two_zpow, show (p : ℤ) + (e - p + 1) = e + 1 by ring]
    exact hhi.le

/-- The exponent of the value rounded with unbounded exponent, where `ru` counts units of `2^(e - p + 1)`. -/
def roundedTop (p : Nat) (e : Int) (ru : Nat) : Int := if ru = 2 ^ p then e + 1 else e

theorem roundedTop_spec {e : ℤ} {p k : ℕ} (hp : 1 ≤ p) (hlo : 2 ^ (p - 1) ≤ k) (hhi : k ≤ 2 ^ p) :
    (2 : ℝ) ^ roundedTop p e k ≤ k * 2 ^ (e - p + 1) ∧ k * 2 ^ (e - p + 1) < (2 : ℝ) ^ (roundedTop p e k + 1) := by
  unfold roundedTop
  split_ifs with h
  · rw [h, pow_mul_two_zpow, show (p : ℤ) + (e - p + 1) = e + 1 by ring]
    exact ⟨le_rfl, zpow_lt_zpow_right₀ (by norm_num) (by omega)⟩
  · constructor
    · exact (le_mul_two_zpow hlo _).trans_eq' (by congr 1; omega)
    · exact (mul_two_zpow_lt (lt_of_le_of_ne hhi h) _).trans_eq (by congr 1; ring)

section Round

variable (fmt : FpFormat) (tin : Tininess) (rm : RoundMode) (s : Bool) (m : Magnitude)

/-- The value rounded with unbounded exponent, in units of `2^(e - p + 1)`, and whether it changed. -/
def Magnitude.unbounded : Nat × Bool := m.roundTo (m.log - fmt.p + 1) rm s

/-- The value rounded to a multiple of the least subnormal, in units of it, and whether it changed. -/
def Magnitude.denormalized : Nat × Bool := m.roundTo (fmt.emin - fmt.p + 1) rm s

/-- The parts of a multiple of the least subnormal, not above the least normal number. -/
def FpFormat.subnormalParts (rd : Nat) : FpParts :=
  if rd = 2 ^ (fmt.p - 1) then { sign := s, exp := 1, frac := 0 } else { sign := s, exp := 0, frac := rd }

/-- The parts of `ru` units of `2^(e - p + 1)`, a number in the normal range. -/
def FpFormat.normalParts (e : Int) (ru : Nat) : FpParts where
  sign := s
  exp  := (roundedTop fmt.p e ru + fmt.emax).toNat
  frac := if ru = 2 ^ fmt.p then 0 else ru - 2 ^ (fmt.p - 1)

/-- `tiny` of R93 under the least normal number. -/
def tiny (tin : Tininess) (top : Int) : Bool :=
  match tin with
  | .after => decide (top < fmt.emin)
  | .before => true

/-- The three branches of R93. -/
theorem round_eq : round fmt tin rm s m =
    if fmt.emax < roundedTop fmt.p m.log (m.unbounded fmt rm s).1 then
      (fmt.overflowed rm s, { Signals.none with of := true, inx := true })
    else if m.log < fmt.emin then
      (fmt.subnormalParts s (m.denormalized fmt rm s).1,
        { Signals.none with
          inx := (m.denormalized fmt rm s).2
          uf := tiny fmt tin (roundedTop fmt.p m.log (m.unbounded fmt rm s).1) && (m.denormalized fmt rm s).2 })
    else (fmt.normalParts s m.log (m.unbounded fmt rm s).1, { Signals.none with inx := (m.unbounded fmt rm s).2 }) :=
  rfl

theorem overflowed_sign : (fmt.overflowed rm s).sign = s := by
  cases rm <;> cases s <;> rfl

theorem subnormalParts_sign (rd : Nat) : (fmt.subnormalParts s rd).sign = s := by
  unfold FpFormat.subnormalParts
  split <;> rfl

variable {fmt} (hfmt : fmt.Regular)
include hfmt

theorem overflowed_overflowResult : Said.OverflowResult fmt rm s (fmt.overflowed rm s) := by
  have hpos := hfmt.emax_pos
  have hinf : (((2 * fmt.emax + 1).toNat : ℕ) : ℤ) = 2 * fmt.emax + 1 := Int.toNat_of_nonneg (by omega)
  have hmax : (((2 * fmt.emax).toNat : ℕ) : ℤ) = 2 * fmt.emax := Int.toNat_of_nonneg (by omega)
  cases rm <;> cases s <;>
    simp only [Said.OverflowResult, FpFormat.overflowed, FpFormat.infinity, FpFormat.largest, reduceCtorEq, hinf, hmax,
      and_self, and_true, or_true, or_false, and_false, if_true, if_false, Bool.false_eq_true]

theorem denotes_subnormalParts {rd : Nat} (hrd : rd ≤ 2 ^ (fmt.p - 1)) :
    Said.Denotes fmt (fmt.subnormalParts s rd) (rd * 2 ^ (fmt.emin - fmt.p + 1)) := by
  have hpos := hfmt.emax_pos
  have hp : 0 < 2 ^ (fmt.p - 1) := by positivity
  unfold FpFormat.subnormalParts
  split_ifs with h
  · refine ⟨by simp; omega, hp, ?_⟩
    simp only [one_ne_zero, if_false, add_zero, h, hfmt.emin_eq, Nat.cast_one]
  · exact ⟨by simp; omega, lt_of_le_of_ne hrd h, by simp⟩

theorem denotes_normalParts {e : ℤ} {ru : ℕ} (hlo : 2 ^ (fmt.p - 1) ≤ ru) (hhi : ru ≤ 2 ^ fmt.p) (he : fmt.emin ≤ e)
    (htop : roundedTop fmt.p e ru ≤ fmt.emax) :
    Said.Denotes fmt (fmt.normalParts s e ru) (ru * 2 ^ (e - fmt.p + 1)) := by
  have hpos := hfmt.emax_pos
  have hemin := hfmt.emin_eq
  have hge : e ≤ roundedTop fmt.p e ru := by unfold roundedTop; split <;> omega
  have hexp : (((roundedTop fmt.p e ru + fmt.emax).toNat : ℕ) : ℤ) = roundedTop fmt.p e ru + fmt.emax :=
    Int.toNat_of_nonneg (by omega)
  have hexp0 : (roundedTop fmt.p e ru + fmt.emax).toNat ≠ 0 := by omega
  have hpow : 2 ^ fmt.p = 2 * 2 ^ (fmt.p - 1) := by
    rw [← pow_succ', Nat.sub_add_cancel hfmt.p_pos]
  refine ⟨hexp.trans_le (by omega), ?_, ?_⟩
  · have : 0 < 2 ^ (fmt.p - 1) := by positivity
    simp only [FpFormat.normalParts]
    split_ifs <;> omega
  · simp only [FpFormat.normalParts, if_neg hexp0, hexp]
    unfold roundedTop
    split_ifs with h
    · rw [h, add_zero, pow_mul_two_zpow, pow_mul_two_zpow]
      congr 1
      have := hfmt.p_pos
      omega
    · rw [Nat.add_sub_cancel' hlo]
      congr 2
      ring

end Round

end Sys2Proof.Machine

namespace Sys2Proof.Said

open Sys2Proof.Machine

/-- R93: `round` rounds the real of its magnitude to the format. -/
theorem roundsTo_round {fmt : FpFormat} (hfmt : fmt.Regular) (tin : Tininess) (rm : RoundMode) (neg : Bool)
    {m : Magnitude} {x : ℝ} (hm : Positive m) (hx : IsReal m x) :
    RoundsTo fmt tin rm neg x (round fmt tin rm neg m).1 (round fmt tin rm neg m).2 := by
  obtain ⟨hlo, hhi⟩ := m.log_spec hm hx
  obtain ⟨hru, hruInx⟩ := m.roundTo_spec hm hx (m.log - fmt.p + 1) rm neg
  obtain ⟨hrd, hrdInx⟩ := m.roundTo_spec hm hx (fmt.emin - fmt.p + 1) rm neg
  obtain ⟨hbitsLo, hbitsHi⟩ := rounded_bits hfmt.p_pos hlo hhi hru
  obtain ⟨htopLo, htopHi⟩ := roundedTop_spec (e := m.log) hfmt.p_pos hbitsLo hbitsHi
  have hfits := lt_two_zpow_iff (n := fmt.emax + 1) htopLo htopHi
  have htiny := lt_two_zpow_iff (n := fmt.emin) htopLo htopHi
  have hsub := lt_two_zpow_iff (n := fmt.emin) hlo hhi
  rw [round_eq, Magnitude.unbounded, Magnitude.denormalized]
  refine ⟨m.log, _, _, _, _, hlo, hhi, hru, rfl, hrd, rfl, ?_⟩
  generalize m.roundTo (m.log - fmt.p + 1) rm neg = ru at *
  generalize m.roundTo (fmt.emin - fmt.p + 1) rm neg = rd at *
  rw [← not_lt, ← not_lt (a := x), hfits, hsub]
  split_ifs with hover hlow
  · have : ¬ roundedTop fmt.p m.log ru.1 < fmt.emax + 1 := by omega
    exact ⟨overflowed_sign .., rfl, rfl, iff_of_true rfl this,
      fun _ => ⟨overflowed_overflowResult rm neg hfmt, rfl, rfl⟩, fun h => absurd h this, fun h => absurd h this⟩
  · have : roundedTop fmt.p m.log ru.1 < fmt.emax + 1 := by omega
    have hrdLe : rd.1 ≤ 2 ^ (fmt.p - 1) := by
      refine hrd.le_of_ge (two_zpow_pos _) ?_
      have hp := hfmt.p_pos
      rw [pow_mul_two_zpow, show ((fmt.p - 1 : ℕ) : ℤ) + (fmt.emin - fmt.p + 1) = fmt.emin by omega]
      exact (hsub.mpr hlow).le
    have hinx : rd.2 = true ↔ (rd.1 : ℝ) * 2 ^ (fmt.emin - fmt.p + 1) ≠ x := by
      rw [ne_eq, ← hrdInx, Bool.not_eq_false]
    refine ⟨subnormalParts_sign .., rfl, rfl, iff_of_false nofun (not_not.mpr this), fun h => absurd this h,
      fun _ _ => ⟨denotes_subnormalParts neg hfmt hrdLe, hinx, ?_⟩, fun _ h => absurd hlow h⟩
    rw [Bool.and_eq_true, hinx, htiny]
    refine and_congr_left fun _ => ?_
    cases tin with
    | before => exact iff_of_true rfl nofun
    | after => simp [tiny]
  · have : roundedTop fmt.p m.log ru.1 < fmt.emax + 1 := by omega
    have hinx : ru.2 = true ↔ (ru.1 : ℝ) * 2 ^ (m.log - fmt.p + 1) ≠ x := by
      rw [ne_eq, ← hruInx, Bool.not_eq_false]
    exact ⟨rfl, rfl, rfl, iff_of_false nofun (not_not.mpr this), fun h => absurd this h, fun _ h => absurd h hlow,
      fun _ _ => ⟨denotes_normalParts neg hfmt hbitsLo hbitsHi (by omega) (by omega), hinx, rfl⟩⟩

/-- Settles O57, by `roundsTo_round`, which asks of a format only what both formats have. -/
theorem roundingToAFormatIsCorrect : Obligations.RoundingToAFormatIsCorrect := by
  intro fmt hfmt tin rm neg m x hm hx
  have hregular : fmt.Regular := by
    simp only [List.mem_cons, List.not_mem_nil, or_false] at hfmt
    obtain rfl | rfl := hfmt
    · exact binary32_regular
    · exact binary64_regular
  exact roundsTo_round hregular tin rm neg hm hx

end Sys2Proof.Said
end

section
/-!
PROOFS. The numbers of a format as reals (40_fp_value_model.md R80): the parts of a number are its value's only ones,
and R93 rounds a number of the format to itself, without a signal.
-/

namespace Sys2Proof.Said

open Sys2Proof.Machine

/-! ### Values with a sign -/

/-- `y` with the sign `s`, true for negative. -/
noncomputable def signed (s : Bool) (y : ℝ) : ℝ := (if s then -1 else 1) * y

theorem abs_signed {s : Bool} {y : ℝ} (hy : 0 ≤ y) : |signed s y| = y := by
  cases s <;> simp [signed, abs_of_nonneg hy]

theorem signed_abs {s : Bool} {x : ℝ} (hs : s = true ↔ x < 0) : signed s |x| = x := by
  cases s with
  | true => simp [signed, abs_of_neg (hs.mp rfl)]
  | false => simp [signed, abs_of_nonneg (not_lt.mp fun h => nomatch hs.mpr h)]

theorem signed_lt_zero_iff {s : Bool} {y : ℝ} (hy : 0 < y) : s = true ↔ signed s y < 0 := by
  cases s with
  | true => simpa [signed] using hy
  | false => simpa [signed] using hy.le

theorem signed_mul (s t : Bool) (x y : ℝ) : signed s x * signed t y = signed (s != t) (x * y) := by
  cases s <;> cases t <;> simp [signed]

theorem signed_div (s t : Bool) (x y : ℝ) : signed s x / signed t y = signed (s != t) (x / y) := by
  cases s <;> cases t <;> simp [signed, neg_div, div_neg]

/-! ### What the parts of a number denote -/

namespace Denotes

variable {fmt : FpFormat} {r r' : FpParts} {y : ℝ}

/-- A number of the format is below `2^p` units, the unit being in the range of the format. -/
theorem units (hfmt : fmt.Regular) (h : Denotes fmt r y) :
    ∃ (n : ℕ) (g : ℤ), y = n * 2 ^ g ∧ n < 2 ^ fmt.p ∧ fmt.emin - fmt.p + 1 ≤ g ∧ g + fmt.p ≤ fmt.emax + 1 := by
  obtain ⟨hexp, hfrac, rfl⟩ := h
  have hp : 2 ^ fmt.p = 2 * 2 ^ (fmt.p - 1) := by rw [← pow_succ', Nat.sub_add_cancel hfmt.p_pos]
  have hemin := hfmt.emin_eq
  have hemax := hfmt.emax_pos
  split_ifs with h0
  · exact ⟨_, _, rfl, by omega, le_rfl, by omega⟩
  · exact ⟨_, _, rfl, by omega, by omega, by omega⟩

theorem nonneg (h : Denotes fmt r y) : 0 ≤ y := by
  obtain ⟨-, -, rfl⟩ := h
  split_ifs <;> positivity

/-- The numbers with exponent field 0 are those below the least normal number. -/
theorem lt_of_exp_eq_zero (hfmt : fmt.Regular) (h : Denotes fmt r y) (h0 : r.exp = 0) : y < 2 ^ fmt.emin := by
  obtain ⟨-, hfrac, rfl⟩ := h
  have hp := hfmt.p_pos
  rw [if_pos h0]
  exact (mul_two_zpow_lt hfrac _).trans_eq (by congr 1; omega)

/-- The exponent field of a normal number is the floor of its logarithm, biased. -/
theorem log_of_exp_ne_zero (hfmt : fmt.Regular) (h : Denotes fmt r y) (h0 : r.exp ≠ 0) :
    (2 : ℝ) ^ (r.exp - fmt.emax) ≤ y ∧ y < 2 ^ (r.exp - fmt.emax + 1) := by
  obtain ⟨-, hfrac, rfl⟩ := h
  have hpow : 2 ^ fmt.p = 2 * 2 ^ (fmt.p - 1) := by rw [← pow_succ', Nat.sub_add_cancel hfmt.p_pos]
  have hp := hfmt.p_pos
  rw [if_neg h0]
  constructor
  · exact (le_mul_two_zpow (Nat.le_add_right _ r.frac) _).trans_eq' (by congr 1; omega)
  · exact (mul_two_zpow_lt (show 2 ^ (fmt.p - 1) + r.frac < 2 ^ fmt.p by omega) _).trans_eq (by congr 1; ring)

/-- A value has one exponent field and one fraction field. -/
theorem unique (hfmt : fmt.Regular) (h : Denotes fmt r y) (h' : Denotes fmt r' y) :
    r.exp = r'.exp ∧ r.frac = r'.frac := by
  have hzero : ∀ {r r' : FpParts}, Denotes fmt r y → Denotes fmt r' y → r.exp = 0 → r'.exp = 0 := by
    intro r r' h h' h0
    by_contra hne
    have hlo := (h'.log_of_exp_ne_zero hfmt hne).1.trans_lt (h.lt_of_exp_eq_zero hfmt h0)
    rw [zpow_lt_zpow_iff_right₀ (by norm_num), hfmt.emin_eq] at hlo
    omega
  have hexp : r.exp = r'.exp := by
    by_cases h0 : r.exp = 0
    · rw [h0, hzero h h' h0]
    · obtain ⟨hlo, hhi⟩ := h.log_of_exp_ne_zero hfmt h0
      obtain ⟨hlo', hhi'⟩ := h'.log_of_exp_ne_zero hfmt (mt (hzero h' h) h0)
      have := (lt_two_zpow_iff hlo hhi).mp hhi'
      have := (lt_two_zpow_iff hlo' hhi').mp hhi
      omega
  refine ⟨hexp, ?_⟩
  obtain ⟨-, -, hy⟩ := h
  obtain ⟨-, -, hy'⟩ := h'
  rw [hy, ← hexp] at hy'
  split_ifs at hy'
  · exact_mod_cast mul_right_cancel₀ (two_zpow_pos _).ne' hy'
  · have := mul_right_cancel₀ (two_zpow_pos _).ne' hy'
    exact Nat.add_left_cancel (by exact_mod_cast this)

end Denotes

/-- The parts `r` are those of the finite number `x`. -/
def DenotesSigned (fmt : FpFormat) (r : FpParts) (x : ℝ) : Prop := ∃ y, Denotes fmt r y ∧ x = signed r.sign y

namespace DenotesSigned

variable {fmt : FpFormat} {r r' : FpParts} {x : ℝ}

theorem abs (h : DenotesSigned fmt r x) : Denotes fmt r |x| := by
  obtain ⟨y, hy, rfl⟩ := h
  rwa [abs_signed hy.nonneg]

theorem sign_iff (h : DenotesSigned fmt r x) (hx : x ≠ 0) : r.sign = true ↔ x < 0 := by
  obtain ⟨y, hy, rfl⟩ := h
  exact signed_lt_zero_iff (lt_of_le_of_ne hy.nonneg fun h0 => hx (by simp [signed, ← h0]))

/-- A number other than zero has one triple of parts. -/
theorem unique (hfmt : fmt.Regular) (h : DenotesSigned fmt r x) (h' : DenotesSigned fmt r' x) (hx : x ≠ 0) :
    r = r' := by
  obtain ⟨s, e, f⟩ := r
  obtain ⟨s', e', f'⟩ := r'
  obtain ⟨rfl, rfl⟩ : e = e' ∧ f = f' := h.abs.unique hfmt h'.abs
  obtain rfl : s = s' := Bool.eq_iff_iff.mpr ((h.sign_iff hx).trans (h'.sign_iff hx).symm)
  rfl

end DenotesSigned

/-! ### Exact rounding -/

/-- A value of less than `2^p` units, the unit in the range of the format, is rounded to itself, without a signal. -/
theorem RoundsTo.exact {fmt : FpFormat} {tin : Tininess} {rm : RoundMode} {neg : Bool} {x : ℝ} {r : FpParts}
    {sig : Signals} (h : RoundsTo fmt tin rm neg x r sig) {n : ℕ} {g : ℤ} (hx : x = n * 2 ^ g) (hn : n < 2 ^ fmt.p)
    (hg : fmt.emin - fmt.p + 1 ≤ g) (hmax : g + fmt.p ≤ fmt.emax + 1) :
    r.sign = neg ∧ Denotes fmt r x ∧ sig = .none := by
  obtain ⟨e, k, kd, ru, rd, hlo, hhi, hk, rfl, hkd, rfl, hsign, hinv, hdz, hof, hover, hsub, hnormal⟩ := h
  have hlt : x < 2 ^ (fmt.p + g) := hx ▸ mul_two_zpow_lt hn g
  have hfit : x < 2 ^ (fmt.emax + 1) := hlt.trans_le (two_zpow_le_iff.mpr (by omega))
  have heg : e < fmt.p + g := (lt_two_zpow_iff hlo hhi).mp hlt
  have multiple : ∀ {q : ℤ} {j : ℕ}, q ≤ g → Rounded x (2 ^ q) j rm neg → j * 2 ^ q = x := by
    intro q j hq hj
    have hx' : x = (n * 2 ^ (g - q).toNat : ℕ) * 2 ^ q := by
      rw [hx, Nat.cast_mul, mul_assoc, pow_mul_two_zpow, Int.toNat_of_nonneg (by omega), sub_add_cancel]
    rw [hj.eq_of_multiple (two_zpow_pos q) hx', ← hx']
  rw [multiple (by omega) hk, multiple hg hkd] at *
  have hof' : sig.of = false := by
    rw [← Bool.not_eq_true, hof]
    exact not_le.mpr hfit
  obtain ⟨hden, hinx, huf⟩ : Denotes fmt r x ∧ sig.inx = false ∧ sig.uf = false := by
    obtain hlow | hhigh := lt_or_ge x (2 ^ fmt.emin)
    · obtain ⟨hden, hinx, huf⟩ := hsub hfit hlow
      exact ⟨hden, by simpa using hinx, by simpa using huf⟩
    · obtain ⟨hden, hinx, huf⟩ := hnormal hfit hhigh
      exact ⟨hden, by simpa using hinx, huf⟩
  obtain ⟨inv, dz, of, uf, inx⟩ := sig
  simp only at *
  subst hinv hdz hof' hinx huf
  exact ⟨hsign, hden, rfl⟩

end Sys2Proof.Said
end

section
/-!
PROOFS. The value of a pattern (00_scope.md R10, 40_fp_value_model.md R80): it is that of the parts the pattern is
packed from and that of the model's exact value, and widening keeps it (R89).
-/

namespace Sys2Proof.Machine

/-! ### A pattern taken apart -/

/-- The parts that a binary32 is packed from. -/
def parts32 (v : B32) : FpParts := { sign := sign32 v, exp := (exp32 v).toNat, frac := (frac32 v).toNat }

/-- The parts that a binary64 is packed from. -/
def parts64 (v : B64) : FpParts := { sign := sign64 v, exp := (exp64 v).toNat, frac := (frac64 v).toNat }

theorem to32_parts32 (v : B32) : (parts32 v).to32 = v := by
  simp only [FpParts.to32, parts32, BitVec.ofNat_toNat, BitVec.setWidth_eq, pack32_fields]

theorem parts32_to32 {r : FpParts} (he : r.exp < 2 ^ 8) (hf : r.frac < 2 ^ 23) : parts32 r.to32 = r := by
  simp only [FpParts.to32, parts32, sign32_pack32, exp32_pack32, frac32_pack32, BitVec.toNat_ofNat, Nat.mod_eq_of_lt he,
    Nat.mod_eq_of_lt hf]

theorem parts64_to64 {r : FpParts} (he : r.exp < 2 ^ 11) (hf : r.frac < 2 ^ 52) : parts64 r.to64 = r := by
  simp only [FpParts.to64, parts64, sign64_pack64, exp64_pack64, frac64_pack64, BitVec.toNat_ofNat, Nat.mod_eq_of_lt he,
    Nat.mod_eq_of_lt hf]

/-- A binary32 is neither a NaN nor an infinity when its exponent field is not all ones. -/
theorem finite32_iff (v : B32) : (isNan32 v = false ∧ isInf32 v = false) ↔ (exp32 v).toNat ≤ 254 := by
  have hlt : (exp32 v).toNat < 256 := (exp32 v).isLt
  rw [isNan32, isInf32]
  by_cases h : exp32 v = 0xFF
  · by_cases hf : frac32 v = 0 <;> simp [h, hf]
  · have : (exp32 v).toNat ≠ 255 := fun h' => h (BitVec.toNat_inj.mp h')
    simp only [beq_false_of_ne h, Bool.false_and, and_self, true_iff]
    omega

/-- The same of a binary64. -/
theorem finite64_iff (v : B64) : (isNan64 v = false ∧ isInf64 v = false) ↔ (exp64 v).toNat ≤ 2046 := by
  have hlt : (exp64 v).toNat < 2048 := (exp64 v).isLt
  rw [isNan64, isInf64]
  by_cases h : exp64 v = 0x7FF
  · by_cases hf : frac64 v = 0 <;> simp [h, hf]
  · have : (exp64 v).toNat ≠ 2047 := fun h' => h (BitVec.toNat_inj.mp h')
    simp only [beq_false_of_ne h, Bool.false_and, and_self, true_iff]
    omega

end Sys2Proof.Machine

namespace Sys2Proof.Said

open Sys2Proof.Machine

/-! ### The value of a pattern is that of its parts -/

/-- The magnitude that the parts of a finite number denote (R80). -/
noncomputable def magnitudeOf (fmt : FpFormat) (r : FpParts) : ℝ :=
  if r.exp = 0 then (r.frac : ℝ) * 2 ^ (fmt.emin - fmt.p + 1)
  else ((2 ^ (fmt.p - 1) + r.frac : ℕ) : ℝ) * 2 ^ ((r.exp : ℤ) - fmt.emax - fmt.p + 1)

theorem denotesSigned_iff {fmt : FpFormat} {r : FpParts} {x : ℝ} : DenotesSigned fmt r x ↔
    (r.exp : ℤ) ≤ 2 * fmt.emax ∧ r.frac < 2 ^ (fmt.p - 1) ∧ x = signed r.sign (magnitudeOf fmt r) :=
  ⟨fun ⟨_, ⟨hexp, hfrac, hy⟩, hx⟩ => ⟨hexp, hfrac, hx.trans (congrArg _ hy)⟩,
    fun ⟨hexp, hfrac, hx⟩ => ⟨_, ⟨hexp, hfrac, rfl⟩, hx⟩⟩

theorem magnitudeOf_parts32 (v : B32) : magnitudeOf binary32 (parts32 v) =
    if exp32 v = 0 then ((frac32 v).toNat : ℝ) * 2 ^ (-149 : ℤ)
    else ((2 ^ 23 + (frac32 v).toNat : ℕ) : ℝ) * 2 ^ (((exp32 v).toNat : ℤ) - 150) := by
  have h0 : (parts32 v).exp = 0 ↔ exp32 v = 0 := BitVec.toNat_inj (y := 0)
  have hunit : (parts32 v).exp - binary32.emax - binary32.p + 1 = ((exp32 v).toNat : ℤ) - 150 := by
    simp only [parts32, binary32]
    omega
  rw [magnitudeOf, hunit]
  simp only [h0]
  rfl

theorem magnitudeOf_parts64 (v : B64) : magnitudeOf binary64 (parts64 v) =
    if exp64 v = 0 then ((frac64 v).toNat : ℝ) * 2 ^ (-1074 : ℤ)
    else ((2 ^ 52 + (frac64 v).toNat : ℕ) : ℝ) * 2 ^ (((exp64 v).toNat : ℤ) - 1075) := by
  have h0 : (parts64 v).exp = 0 ↔ exp64 v = 0 := BitVec.toNat_inj (y := 0)
  have hunit : (parts64 v).exp - binary64.emax - binary64.p + 1 = ((exp64 v).toNat : ℤ) - 1075 := by
    simp only [parts64, binary64]
    omega
  rw [magnitudeOf, hunit]
  simp only [h0]
  rfl

theorem val32_iff {v : B32} {x : ℝ} : Val32 v x ↔ DenotesSigned binary32 (parts32 v) x := by
  rw [Val32, denotesSigned_iff, ← and_assoc, finite32_iff, magnitudeOf_parts32]
  refine and_congr ?_ (and_iff_right (frac32 v).isLt).symm
  simp only [parts32, binary32]
  omega

theorem val64_iff {v : B64} {x : ℝ} : Val64 v x ↔ DenotesSigned binary64 (parts64 v) x := by
  rw [Val64, denotesSigned_iff, ← and_assoc, finite64_iff, magnitudeOf_parts64]
  refine and_congr ?_ (and_iff_right (frac64 v).isLt).symm
  simp only [parts64, binary64]
  omega

/-- Packing the parts of a number gives a pattern of that value. -/
theorem DenotesSigned.val32 {r : FpParts} {x : ℝ} (h : DenotesSigned binary32 r x) : Val32 r.to32 x := by
  obtain ⟨hexp, hfrac, -⟩ := denotesSigned_iff.mp h
  rw [val32_iff, parts32_to32 ?_ hfrac]
  · exact h
  · simp only [binary32] at hexp
    omega

theorem DenotesSigned.val64 {r : FpParts} {x : ℝ} (h : DenotesSigned binary64 r x) : Val64 r.to64 x := by
  obtain ⟨hexp, hfrac, -⟩ := denotesSigned_iff.mp h
  rw [val64_iff, parts64_to64 ?_ hfrac]
  · exact h
  · simp only [binary64] at hexp
    omega

theorem Val32.isInf {v : B32} {x : ℝ} (h : Val32 v x) : isInf32 v = false := h.2.1
theorem Val64.isNan {v : B64} {x : ℝ} (h : Val64 v x) : isNan64 v = false := h.1
theorem Val64.isInf {v : B64} {x : ℝ} (h : Val64 v x) : isInf64 v = false := h.2.1

/-- The sign bit of a number other than zero. -/
theorem Val32.sign_iff {v : B32} {x : ℝ} (h : Val32 v x) (hx : x ≠ 0) : sign32 v = true ↔ x < 0 :=
  (val32_iff.mp h).sign_iff hx

theorem Val64.sign_iff {v : B64} {x : ℝ} (h : Val64 v x) (hx : x ≠ 0) : sign64 v = true ↔ x < 0 :=
  (val64_iff.mp h).sign_iff hx

/-- A value other than zero has one binary32. -/
theorem Val32.unique {v w : B32} {x : ℝ} (hv : Val32 v x) (hw : Val32 w x) (hx : x ≠ 0) : v = w := by
  rw [← to32_parts32 v, (val32_iff.mp hv).unique binary32_regular (val32_iff.mp hw) hx, to32_parts32]

/-! ### The exact value of a pattern is its value -/

theorem cast_ite_neg (s : Bool) (n : ℕ) : ((if s then -(n : ℤ) else n : ℤ) : ℝ) = (if s then -1 else 1) * n := by
  cases s <;> simp

theorem Val32.real {v : B32} {x : ℝ} (h : Val32 v x) : (val32 v).real = x := by
  obtain ⟨-, -, rfl⟩ := h
  unfold Exact.real val32
  simp only [cast_ite_neg, mul_assoc]
  split_ifs <;> rfl

theorem Val64.real {v : B64} {x : ℝ} (h : Val64 v x) : (val64 v).real = x := by
  obtain ⟨-, -, rfl⟩ := h
  unfold Exact.real val64
  simp only [cast_ite_neg, mul_assoc]
  split_ifs <;> rfl

/-- Every pattern that is neither a NaN nor an infinity has a value. -/
theorem val32_exists {v : B32} (hnan : isNan32 v = false) (hinf : isInf32 v = false) : ∃ x, Val32 v x :=
  ⟨_, hnan, hinf, rfl⟩

theorem Val32.isZero_iff {v : B32} {x : ℝ} (h : Val32 v x) : isZero32 v = true ↔ x = 0 := by
  rw [isZero32_iff, ← Exact.real_eq_zero, h.real]

theorem Val64.isZero_iff {v : B64} {x : ℝ} (h : Val64 v x) : isZero64 v = true ↔ x = 0 := by
  rw [isZero64_iff, ← Exact.real_eq_zero, h.real]

theorem Val32.isZero_of_ne {v : B32} {x : ℝ} (h : Val32 v x) (hx : x ≠ 0) : isZero32 v = false :=
  Bool.eq_false_iff.mpr (mt h.isZero_iff.mp hx)

theorem Val64.isZero_of_ne {v : B64} {x : ℝ} (h : Val64 v x) (hx : x ≠ 0) : isZero64 v = false :=
  Bool.eq_false_iff.mpr (mt h.isZero_iff.mp hx)

/-- The same number in two units. -/
theorem units_eq {m n k : ℕ} {g g' : ℤ} (hm : m = n * 2 ^ k) (hg : g' = k + g) : (n : ℝ) * 2 ^ g' = m * 2 ^ g := by
  rw [hm, hg, Nat.cast_mul, mul_assoc, pow_mul_two_zpow]

/-- Widening keeps the value (R89). -/
theorem Val32.extendFloat {v : B32} {x : ℝ} (h : Val32 v x) : Val64 (extendFloat v) x := by
  have hw := widened_extendFloat v
  obtain ⟨hnan, hinf, rfl⟩ := h
  have hfin := (finite32_iff v).mp ⟨hnan, hinf⟩
  refine ⟨hw.isNan.trans hnan, hw.isInf.trans hinf, ?_⟩
  rw [hw.sign]
  congr 1
  generalize Machine.extendFloat v = w at hw
  cases hw with
  | special he => simp [he] at hfin
  | normal hpos hlt e he =>
    have h32 : exp32 v ≠ 0 := fun h => by simp [h] at hpos
    have h64 : e ≠ 0 := fun h => by simp [h] at he
    have hfrac : (2 ^ 52 + (frac32 v ++ (0 : BitVec 29)).toNat : ℕ) = (2 ^ 23 + (frac32 v).toNat) * 2 ^ 29 := by
      rw [BitVec.toNat_append, Nat.shiftLeft_eq, show (0 : BitVec 29).toNat = 0 from rfl, Nat.or_zero]
      ring
    rw [exp64_pack64, frac64_pack64, if_neg h32, if_neg h64]
    exact units_eq hfrac (by omega)
  | zero he hf => simp [he, hf]
  | subnormal he hf k hk e hke f hkf =>
    have h64 : e ≠ 0 := fun h => by simp [h] at hke
    rw [exp64_pack64, frac64_pack64, if_pos he, if_neg h64]
    exact units_eq hkf (by omega)

end Sys2Proof.Said
end

section
/-!
PROOFS. The rounding conversion to binary32 (40_fp_value_model.md R94): its arms, that it rounds the value, and that it
undoes widening (R103); so moves and merges of extended lanes are exact (41_ps_move.md, 45_ps_merge.md).
-/

namespace Sys2Proof.Machine

/-! ### NaN, infinity and zero exclude each other -/

theorem isZero64_of_isInf64 {v : B64} (h : isInf64 v = true) : isZero64 v = false := by
  simp [isZero64, (isInf64_iff_fields.mp h).1]

theorem isZero64_of_isNan64 {v : B64} (h : isNan64 v = true) : isZero64 v = false := by
  simp [isZero64, (isNan64_iff_fields.mp h).1]

theorem isInf64_of_isNan64 {v : B64} (h : isNan64 v = true) : isInf64 v = false := by
  rw [isInf64, beq_false_of_ne (isNan64_iff_fields.mp h).2, Bool.and_false]

theorem isInf64_of_isZero64 {v : B64} (h : isZero64 v = true) : isInf64 v = false := by
  simp [isInf64, (isZero64_iff_fields.mp h).1]

/-! ### The arms of R94 -/

section Arms

variable {v : B64} (rm : RoundMode) (tin : Tininess)

theorem roundF32_of_isInf (h : isInf64 v = true) : roundF32 v rm tin = (pack32 (sign64 v) 0xFF 0, .none) := by
  rw [roundF32, if_pos h]

theorem roundF32_of_isZero (h : isZero64 v = true) : roundF32 v rm tin = (pack32 (sign64 v) 0 0, .none) := by
  rw [roundF32, isInf64_of_isZero64 h, if_neg Bool.false_ne_true, if_pos h]

theorem roundF32_of_quiet (h : isNan64 v = true) (hq : isSnan64 v = false) :
    roundF32 v rm tin = (pack32 (sign64 v) 0xFF (fracHigh v), .none) := by
  simp [roundF32, isInf64_of_isNan64 h, isZero64_of_isNan64 h, h, hq]

theorem roundF32_of_finite (hinf : isInf64 v = false) (hzero : isZero64 v = false) (hnan : isNan64 v = false) :
    roundF32 v rm tin = ((round binary32 tin rm (sign64 v) (val64 v).magnitude).1.to32,
      (round binary32 tin rm (sign64 v) (val64 v).magnitude).2) := by
  simp [roundF32, hinf, hzero, hnan]

end Arms

/-- The top bits of a binary64 fraction, as bits of the fraction. -/
theorem fracHigh_eq (v : B64) : fracHigh v = (frac64 v).extractLsb' 29 23 := by
  conv_lhs => rw [← pack64_fields v, fracHigh_pack64]

end Sys2Proof.Machine

namespace Sys2Proof.Said

open Sys2Proof.Machine

/-! ### The magnitudes that are rounded, as reals -/

theorem isReal_magnitude {X : Exact} (hX : X.real ≠ 0) : Positive X.magnitude ∧ IsReal X.magnitude |X.real| := by
  obtain ⟨num, den, hm, hden, hnum, hval⟩ := X.magnitude_value
  rw [hm]
  exact ⟨⟨hnum (mt X.real_eq_zero.mpr hX), hden⟩, hval.symm⟩

theorem isReal_quotient {X Y : Exact} (hX : X.real ≠ 0) (hY : Y.real ≠ 0) :
    Positive (X.quotient Y) ∧ IsReal (X.quotient Y) |X.real / Y.real| := by
  obtain ⟨num, den, hm, hden, hnum, hval⟩ := X.quotient_value Y (mt Y.real_eq_zero.mpr hY)
  rw [hm]
  exact ⟨⟨hnum (mt X.real_eq_zero.mpr hX), hden⟩, hval.symm⟩

/-- R94: a finite number other than zero is rounded. -/
theorem roundsTo32_roundF32 {v : B64} {x : ℝ} (rm : RoundMode) (tin : Tininess) (h : Val64 v x) (hx : x ≠ 0) :
    RoundsTo32 tin rm x (roundF32 v rm tin) := by
  obtain ⟨hpos, hreal⟩ := isReal_magnitude (X := val64 v) (h.real.symm ▸ hx)
  rw [roundF32_of_finite rm tin h.isInf (h.isZero_of_ne hx) h.isNan]
  rw [h.real] at hreal
  exact ⟨_, _, h.sign_iff hx, rfl, roundsTo_round binary32_regular tin rm _ hpos hreal⟩

/-- A number that a binary32 denotes is rounded to that binary32, without a signal. -/
theorem RoundsTo32.exact {tin : Tininess} {rm : RoundMode} {x : ℝ} {r : B32 × Signals} (h : RoundsTo32 tin rm x r)
    {v : B32} (hv : Val32 v x) (hx : x ≠ 0) : r = (v, .none) := by
  obtain ⟨p, neg, hneg, hr, hround⟩ := h
  obtain ⟨n, g, hunits, hn, hg, hmax⟩ := (val32_iff.mp hv).abs.units binary32_regular
  obtain ⟨hsign, hden, hsig⟩ := hround.exact hunits hn hg hmax
  have hp : DenotesSigned binary32 p x := ⟨|x|, hden, by rw [hsign, signed_abs hneg]⟩
  exact Prod.ext (hr.trans (hp.val32.unique hv hx)) hsig

/-- R103: the rounding conversion undoes widening, without a signal. -/
theorem roundF32_extendFloat {x : B32} (hx : isSnan32 x = false) (rm : RoundMode) (tin : Tininess) :
    roundF32 (extendFloat x) rm tin = (x, .none) := by
  have hw := widened_extendFloat x
  have hpack : ∀ {e f}, exp32 x = e → frac32 x = f →
      (pack32 (sign64 (extendFloat x)) e f, Signals.none) = (x, .none) := by
    rintro _ _ rfl rfl
    rw [hw.sign, pack32_fields]
  cases hnan : isNan32 x with
  | true =>
    obtain ⟨he, -⟩ := isNan32_iff_fields.mp hnan
    rw [roundF32_of_quiet rm tin (hw.isNan.trans hnan) (hw.isSnan.trans hx)]
    exact hpack he (by rw [fracHigh_eq, hw.frac_of_special he, extract_widened_frac])
  | false =>
    cases hinf : isInf32 x with
    | true =>
      obtain ⟨he, hf⟩ := isInf32_iff_fields.mp hinf
      rw [roundF32_of_isInf rm tin (hw.isInf.trans hinf)]
      exact hpack he hf
    | false =>
      obtain ⟨y, hy⟩ := val32_exists hnan hinf
      by_cases hy0 : y = 0
      · have hzero := hy.isZero_iff.mpr hy0
        obtain ⟨he, hf⟩ := isZero32_iff_fields.mp hzero
        rw [roundF32_of_isZero rm tin (hw.isZero.trans hzero)]
        exact hpack he hf
      · exact (roundsTo32_roundF32 rm tin hy.extendFloat hy0).exact hy hy0

/-- Settles O51, arm by arm of R94; the last two clauses are `roundsTo32_roundF32` and `roundF32_extendFloat`. -/
theorem roundF32FollowsItsRule : Obligations.RoundF32FollowsItsRule := by
  refine ⟨fun v rm tin => ⟨fun h => ?inf, fun h => ?zero, fun h hq => ?quiet, fun x h hx => ?number⟩,
    fun x rm hx => roundF32_extendFloat hx rm _⟩
  case inf =>
    rw [roundF32_of_isInf rm tin h]
    cases sign64 v <;> rfl
  case zero =>
    rw [roundF32_of_isZero rm tin h]
    cases sign64 v <;> rfl
  case quiet =>
    rw [roundF32_of_quiet rm tin h hq, ← fracHigh_eq]
    exact ⟨sign32_pack32 .., exp32_pack32 .., frac32_pack32 .., rfl⟩
  case number => exact roundsTo32_roundF32 rm tin h hx

end Sys2Proof.Said

namespace Sys2Proof.Machine

/-! ### Moves and merges of extended lanes -/

/-- Narrowing a widened binary32 gives it back: a signalling NaN by its bits, anything else by rounding. -/
theorem narrowLane0_extendFloat (x : B32) (rm : RoundMode) : narrowLane0 .spec (extendFloat x) rm = x := by
  have hw := widened_extendFloat x
  unfold narrowLane0
  rw [hw.isSnan]
  split
  · exact hw.truncBits
  · next h => exact congrArg Prod.fst (Said.roundF32_extendFloat (Bool.eq_false_iff.mpr h) rm _)

/-- A sign operation that leaves the exponent field alone is exact on a widened binary32. -/
theorem reg_moveGeneric_of_extended {sop : B32 → B32} (hsop : ∀ w, exp32 (sop w) = exp32 w) (o : Operands) {s : State}
    {x : B32} (hx : s.ps0 o.frB = extendFloat x) :
    (moveGeneric .spec sop o s).reg o.frD = { ps0 := extendFloat (sop x), ps1 := sop (s.ps1 o.frB) } := by
  have hnan : isSnan64 (extendFloat x) = true → extendFloatNanBits (sop x) = extendFloat (sop x) := by
    rw [(widened_extendFloat x).isSnan]
    intro h
    obtain ⟨he, -⟩ := isNan32_iff_fields.mp (Bool.and_eq_true_iff.mp h).1
    exact (extendFloat_of_special ((hsop x).trans he)).symm
  rw [moveGeneric, reg_mirror, reg_writeReg_same, hx, narrowLane0_extendFloat]
  split
  · next h => rw [hnan h]
  · rfl

theorem reg_mergeGeneric_of_extended (mv0 mv1 : Bool) (o : Operands) {s : State} {a b : B32}
    (ha : mv0 = false → s.ps0 o.frA = extendFloat a) (hb : mv1 = false → s.ps0 o.frB = extendFloat b) :
    (mergeGeneric .spec mv0 mv1 o s).reg o.frD =
      { ps0 := extendFloat (if mv0 then s.ps1 o.frA else a), ps1 := if mv1 then s.ps1 o.frB else b } := by
  have h0 : mergeLane0 .spec mv0 o s = if mv0 then s.ps1 o.frA else a := by
    cases mv0 with
    | true => rfl
    | false => exact (congrArg (narrowLane0 .spec · _) (ha rfl)).trans (narrowLane0_extendFloat a _)
  have h1 : mergeLane1 .spec mv1 o s = if mv1 then s.ps1 o.frB else b := by
    cases mv1 with
    | true => rfl
    | false => exact (congrArg truncBits (hb rfl)).trans (widened_extendFloat b).truncBits
  rw [mergeGeneric, reg_mirror, reg_writeReg_same, h0, h1]

end Sys2Proof.Machine

namespace Sys2Proof.Said

open Sys2Proof.Machine

/-- The sign operations leave the exponent field alone. -/
theorem exp32_flipSign (w : B32) : exp32 (w ^^^ 0x80000000) = exp32 w :=
  BitVec.extractLsb'_xor.trans BitVec.xor_zero

theorem exp32_clearSign (w : B32) : exp32 (w &&& 0x7FFFFFFF) = exp32 w :=
  BitVec.extractLsb'_and.trans BitVec.and_allOnes

theorem exp32_setSign (w : B32) : exp32 (w ||| 0x80000000) = exp32 w :=
  BitVec.extractLsb'_or.trans BitVec.or_zero

/-- A move is `moveGeneric` of its sign operation, which leaves the exponent field alone. -/
theorem exec_of_moveOp {i : Instr} {sop : B32 → B32} (h : moveOp i = some sop) (s : State) :
    exec i s = .next (moveGeneric .spec sop i.operands s) ∧ ∀ w, exp32 (sop w) = exp32 w := by
  cases i with
  | psMr o => exact Option.some.inj h ▸ ⟨rfl, fun _ => rfl⟩
  | psNeg o => exact Option.some.inj h ▸ ⟨rfl, exp32_flipSign⟩
  | psAbs o => exact Option.some.inj h ▸ ⟨rfl, exp32_clearSign⟩
  | psNabs o => exact Option.some.inj h ▸ ⟨rfl, exp32_setSign⟩
  | _ => exact nomatch h

/-- Settles O45, by `reg_moveGeneric_of_extended`. -/
theorem moveIsExactOnExtendedLanes : Obligations.MoveIsExactOnExtendedLanes := by
  intro i s sop x hsop hx
  obtain ⟨hexec, hexp⟩ := exec_of_moveOp hsop s
  exact ⟨_, hexec, reg_moveGeneric_of_extended hexp i.operands hx⟩

/-- A merge is `mergeGeneric` of its lane-selecting flags. -/
theorem exec_of_mergeFlags {i : Instr} {mv0 mv1 : Bool} (h : mergeFlags i = some (mv0, mv1)) (s : State) :
    exec i s = .next (mergeGeneric .spec mv0 mv1 i.operands s) := by
  cases i with
  | psMerge00 o => cases h; rfl
  | psMerge01 o => cases h; rfl
  | psMerge10 o => cases h; rfl
  | psMerge11 o => cases h; rfl
  | _ => exact nomatch h

/-- Settles O48, by `reg_mergeGeneric_of_extended`. -/
theorem mergeIsExactOnExtendedLanes : Obligations.MergeIsExactOnExtendedLanes :=
  fun i s mv0 mv1 _ _ hflags ha hb =>
    ⟨_, exec_of_mergeFlags hflags s, reg_mergeGeneric_of_extended mv0 mv1 i.operands ha hb⟩

end Sys2Proof.Said
end

section
/-!
PROOFS. The binary64 operations (40_fp_value_model.md R95 to R98): their special values and signed zeros arm by arm, and
one rounding of the exact result elsewhere; the product of two widened binary32 values needs no rounding (R96).
-/

namespace Sys2Proof.Said

open Sys2Proof.Machine

/-! ### Constants -/

theorem zero64_eq (s : Bool) : zero64 s = signedZero s := by cases s <;> rfl
theorem inf64_eq (s : Bool) : inf64 s = signedInf s := by cases s <;> rfl
theorem zeroSumSign_eq (rm : RoundMode) : (rm == .rdn) = zeroSumSign rm := by cases rm <;> rfl

theorem val64_signedZero (s : Bool) : Val64 (signedZero s) 0 := by
  have hz : exp64 (signedZero s) = 0 ∧ frac64 (signedZero s) = 0 := by cases s <;> decide
  refine ⟨?_, ?_, ?_⟩ <;> simp [isNan64, isInf64, hz]

/-! ### Rounding an exact value -/

theorem roundsTo64_roundExact64 {X : Exact} {x : ℝ} (rm : RoundMode) (tin : Tininess) (hX : X.real = x) (hx : x ≠ 0) :
    RoundsTo64 tin rm x (roundExact64 rm X tin) := by
  subst hX
  obtain ⟨hpos, hreal⟩ := isReal_magnitude hx
  exact ⟨_, _, X.neg_iff, rfl, roundsTo_round binary64_regular tin rm _ hpos hreal⟩

/-- The sign of a quotient of numbers other than zero. -/
theorem xor_sign_iff {s t : Bool} {x y : ℝ} (hs : s = true ↔ x < 0) (ht : t = true ↔ y < 0) (hx : x ≠ 0) (hy : y ≠ 0) :
    (s != t) = true ↔ x / y < 0 := by
  rw [← signed_abs hs, ← signed_abs ht, signed_div]
  exact signed_lt_zero_iff (div_pos (abs_pos.mpr hx) (abs_pos.mpr hy))

/-! ### The rules -/

section Rules

variable (a b : B64) (rm : RoundMode) (tin : Tininess)

/-- R95. -/
theorem addRule_add64 : AddRule a b rm tin (add64 a b rm tin) := by
  refine ⟨fun ha hb hs => ?opposite, fun ha hb => ?infA, fun ha hb => ?infB, fun x y hx hy => ?finite⟩
  case opposite =>
    simp only [add64, ha, hb, Bool.and_self, bne_iff_ne.mpr hs, if_true]
    rfl
  case infA =>
    have hsame : (isInf64 a && isInf64 b && (sign64 a != sign64 b)) = false := by
      cases hb' : isInf64 b with
      | true => simp [hb hb']
      | false => simp
    rw [add64, hsame, if_neg Bool.false_ne_true, if_pos ha]
  case infB => simp only [add64, ha, hb, Bool.false_and, Bool.false_eq_true, if_false, if_true]
  case finite =>
    have hreal : ((val64 a).add (val64 b)).real = x + y := by rw [Exact.real_add, hx.real, hy.real]
    have hm : ((val64 a).add (val64 b)).m = 0 ↔ x + y = 0 := by rw [← Exact.real_eq_zero, hreal]
    simp only [add64, hx.isInf, hy.isInf, Bool.false_and, Bool.false_eq_true, if_false, hm]
    refine ⟨fun hne => ?_, fun h0 ha hb hs => ?_, fun h0 hzeros => ?_⟩
    · rw [if_neg hne]
      exact roundsTo64_roundExact64 rm tin hreal hne
    · rw [if_pos h0, ha, hb, hs, beq_self_eq_true]
      rfl
    · rw [if_pos h0, if_neg (by simpa [and_assoc] using hzeros), zeroSumSign_eq, zero64_eq]

/-- R96. -/
theorem mulRule_mul64 : MulRule a b rm tin (mul64 a b rm tin) := by
  refine ⟨fun h => ?invalid, ?inf, ?zero, fun x y hx hy hne => ?finite⟩
  case invalid =>
    rw [mul64, if_pos (by simpa using h)]
    rfl
  case inf =>
    rintro (⟨ha, hb⟩ | ⟨ha, hb⟩)
    · simp [mul64, ha, hb, isZero64_of_isInf64 ha, inf64_eq]
    · simp [mul64, ha, hb, isZero64_of_isInf64 hb, inf64_eq]
  case zero =>
    rintro (⟨ha, hb⟩ | ⟨ha, hb⟩)
    · simp [mul64, ha, hb, isInf64_of_isZero64 ha, zero64_eq]
    · simp [mul64, ha, hb, isInf64_of_isZero64 hb, zero64_eq]
  case finite =>
    have ha := hx.isZero_of_ne (left_ne_zero_of_mul hne)
    have hb := hy.isZero_of_ne (right_ne_zero_of_mul hne)
    simp only [mul64, hx.isInf, hy.isInf, ha, hb, Bool.or_self, Bool.and_self, Bool.false_eq_true, if_false]
    exact roundsTo64_roundExact64 rm tin (by rw [Exact.real_mul, hx.real, hy.real]) hne

/-- R97. -/
theorem divRule_div64 : DivRule a b rm tin (div64 a b rm tin) := by
  refine ⟨?invalid, fun ha hb => ?infA, fun ha hza hb => ?zeroB, ?zero, fun x y hx hy hx0 hy0 => ?finite⟩
  case invalid =>
    rintro (⟨ha, hb⟩ | ⟨ha, hb⟩)
    · simp only [div64, ha, hb, Bool.and_self, if_true]
      rfl
    · simp only [div64, ha, hb, isInf64_of_isZero64 ha, Bool.and_self, Bool.false_and, ite_self, if_true]
      rfl
  case infA => simp [div64, ha, hb, isZero64_of_isInf64 ha, inf64_eq]
  case zeroB => simp [div64, ha, hza, hb, inf64_eq]
  case zero =>
    rintro (⟨ha, hb⟩ | ⟨ha, hb⟩)
    · simp [div64, ha, hb, isZero64_of_isInf64 hb, zero64_eq]
    · simp [div64, ha, hb, isInf64_of_isZero64 ha, zero64_eq]
  case finite =>
    have ha := hx.isZero_of_ne hx0
    have hb := hy.isZero_of_ne hy0
    obtain ⟨hpos, hreal⟩ := isReal_quotient (X := val64 a) (Y := val64 b) (hx.real.symm ▸ hx0) (hy.real.symm ▸ hy0)
    simp only [div64, hx.isInf, hy.isInf, ha, hb, Bool.or_self, Bool.and_self, Bool.false_eq_true, if_false]
    rw [hx.real, hy.real] at hreal
    exact ⟨_, _, xor_sign_iff (hx.sign_iff hx0) (hy.sign_iff hy0) hx0 hy0, rfl,
      roundsTo_round binary64_regular tin rm _ hpos hreal⟩

/-- R98. -/
theorem fmaRule_fma64 (c : B64) : FmaRule a c b rm tin (fma64 a c b rm tin) := by
  refine ⟨fun himz => ?invalid, fun himz hinf => ⟨fun hb hs => ?opposite, fun hb => ?infProduct⟩, fun hinf hb => ?infB,
    fun x z y hx hz hy => ?finite⟩
  case invalid =>
    rw [fmaImz] at himz
    simp only [fma64, himz, if_true]
    rfl
  case opposite =>
    rw [fmaImz] at himz
    simp only [fma64, himz, hinf, hb, bne_iff_ne.mpr hs, Bool.and_self, Bool.false_eq_true, if_false, if_true]
    rfl
  case infProduct =>
    have hsame : (isInf64 b && (sign64 b != (sign64 a != sign64 c))) = false := by
      cases hb' : isInf64 b with
      | true => rw [hb hb', bne_self_eq_false, Bool.and_false]
      | false => rfl
    rw [fmaImz] at himz
    simp only [fma64, himz, hinf, hsame, Bool.false_eq_true, if_false, if_true, inf64_eq]
  case infB =>
    obtain ⟨ha, hc⟩ := Bool.or_eq_false_iff.mp hinf
    simp only [fma64, ha, hc, hb, Bool.false_and, Bool.and_false, Bool.or_self, Bool.false_eq_true, if_false, if_true]
  case finite =>
    have hreal : (((val64 a).mul (val64 c)).add (val64 b)).real = x * z + y := by
      rw [Exact.real_add, Exact.real_mul, hx.real, hz.real, hy.real]
    have hm : (((val64 a).mul (val64 c)).add (val64 b)).m = 0 ↔ x * z + y = 0 := by rw [← Exact.real_eq_zero, hreal]
    have hprod : (isZero64 a || isZero64 c) = true ↔ x * z = 0 := by
      rw [Bool.or_eq_true, hx.isZero_iff, hz.isZero_iff, mul_eq_zero]
    simp only [fma64, hx.isInf, hz.isInf, hy.isInf, Bool.false_and, Bool.and_false, Bool.or_self, Bool.false_eq_true,
      if_false, hm, Bool.and_eq_true, hprod, beq_iff_eq]
    refine ⟨fun hne => ?_, fun h0 hp hb hs => ?_, fun h0 hzeros => ?_⟩
    · rw [if_neg hne]
      exact roundsTo64_roundExact64 rm tin hreal hne
    · rw [if_pos h0, if_pos ⟨⟨hp, hb⟩, hs⟩]
    · rw [if_pos h0, if_neg (by rwa [and_assoc]), zeroSumSign_eq, zero64_eq]

end Rules

/-- Flipping the sign bit negates the value. -/
theorem Val64.flipSign {b : B64} {y : ℝ} (h : Val64 b y) : Val64 (b ^^^ 0x8000000000000000) (-y) := by
  have hexp : exp64 (b ^^^ 0x8000000000000000) = exp64 b := BitVec.extractLsb'_xor.trans BitVec.xor_zero
  have hfrac : frac64 (b ^^^ 0x8000000000000000) = frac64 b := BitVec.extractLsb'_xor.trans BitVec.xor_zero
  have hsign : sign64 (b ^^^ 0x8000000000000000) = !sign64 b := by simp [sign64]
  obtain ⟨hnan, hinf, rfl⟩ := h
  refine ⟨?_, ?_, ?_⟩
  · simpa only [isNan64, hexp, hfrac] using hnan
  · simpa only [isInf64, hexp, hfrac] using hinf
  · rw [hsign, hexp, hfrac, ← neg_mul]
    cases sign64 b <;> simp

/-- Settles O59, rule by rule; a subtraction is the addition of the negated value. -/
theorem binary64OperationsFollowTheirRules : Obligations.Binary64OperationsFollowTheirRules := by
  intro rm tin a b _ _
  refine ⟨addRule_add64 a b rm tin, addRule_add64 a _ rm tin, fun x y hx hy hne => ?sub, mulRule_mul64 a b rm tin,
    divRule_div64 a b rm tin, fun c _ => fmaRule_fma64 a b rm tin c⟩
  case sub =>
    obtain ⟨-, -, -, hfinite⟩ := addRule_add64 a (b ^^^ 0x8000000000000000) rm tin
    rw [sub_eq_add_neg] at hne ⊢
    exact (hfinite x (-y) hx hy.flipSign).1 hne

/-! ### The product of widened values -/

/-- A value of less than `2^53` units in the range of binary64 is rounded to itself, without a signal. -/
theorem RoundsTo64.exact {tin : Tininess} {rm : RoundMode} {x : ℝ} {r : B64 × Signals} (h : RoundsTo64 tin rm x r)
    {n : ℕ} {g : ℤ} (hx : |x| = n * 2 ^ g) (hn : n < 2 ^ binary64.p) (hg : binary64.emin - binary64.p + 1 ≤ g)
    (hmax : g + binary64.p ≤ binary64.emax + 1) : Val64 r.1 x ∧ r.2 = .none := by
  obtain ⟨p, neg, hneg, hr, hround⟩ := h
  obtain ⟨hsign, hden, hsig⟩ := hround.exact hx hn hg hmax
  have hp : DenotesSigned binary64 p x := ⟨|x|, hden, by rw [hsign, signed_abs hneg]⟩
  exact ⟨hr ▸ hp.val64, hsig⟩

/-- The product of two binary32 numbers has at most 48 bits, in the range of binary64. -/
theorem units_mul {x y : B32} {p q : ℝ} (hx : Val32 x p) (hy : Val32 y q) :
    ∃ (n : ℕ) (g : ℤ), |p * q| = n * 2 ^ g ∧ n < 2 ^ binary64.p ∧ binary64.emin - binary64.p + 1 ≤ g ∧
      g + binary64.p ≤ binary64.emax + 1 := by
  obtain ⟨n, g, hp, hn, hg, hgmax⟩ := (val32_iff.mp hx).abs.units binary32_regular
  obtain ⟨n', g', hq, hn', hg', hgmax'⟩ := (val32_iff.mp hy).abs.units binary32_regular
  simp only [binary32, binary64] at *
  refine ⟨n * n', g + g', ?_, ?_, by omega, by omega⟩
  · rw [abs_mul, hp, hq, zpow_add₀ (by norm_num)]
    push_cast
    ring
  · calc n * n' < 2 ^ 24 * 2 ^ 24 := Nat.mul_lt_mul'' hn hn'
      _ < 2 ^ 53 := by norm_num

/-- On numbers the product is exact: a zero by its arm of R96, otherwise because rounding changes nothing. -/
theorem mul64_extendFloat {x y : B32} {p q : ℝ} (hx : Val32 x p) (hy : Val32 y q) (rm : RoundMode) (tin : Tininess) :
    Val64 (mul64 (extendFloat x) (extendFloat y) rm tin).1 (p * q) ∧
      (mul64 (extendFloat x) (extendFloat y) rm tin).2 = .none := by
  obtain ⟨-, -, hzero, hfinite⟩ := mulRule_mul64 (extendFloat x) (extendFloat y) rm tin
  by_cases h0 : p * q = 0
  · have hzeros : (isZero64 (extendFloat x) = true ∧ isInf64 (extendFloat y) = false) ∨
        (isInf64 (extendFloat x) = false ∧ isZero64 (extendFloat y) = true) := by
      rw [hx.extendFloat.isZero_iff, hy.extendFloat.isZero_iff, and_iff_left hy.extendFloat.isInf,
        and_iff_right hx.extendFloat.isInf]
      exact mul_eq_zero.mp h0
    rw [hzero hzeros, h0]
    exact ⟨val64_signedZero _, rfl⟩
  · obtain ⟨n, g, hunits, hn, hg, hmax⟩ := units_mul hx hy
    exact (hfinite p q hx.extendFloat hy.extendFloat h0).exact hunits hn hg hmax

/-- Settles O58: an infinity times a value other than zero is an infinity without a signal, and numbers are
`mul64_extendFloat`. -/
theorem productOfWidenedIsExact : Obligations.ProductOfWidenedIsExact := by
  intro x y rm hx hy hvalid
  refine ⟨?signals, fun p q hp hq => (mul64_extendFloat hp hq rm _).1⟩
  have hwx := widened_extendFloat x
  have hwy := widened_extendFloat y
  obtain ⟨-, hinf, -, -⟩ := mulRule_mul64 (extendFloat x) (extendFloat y) rm Config.tininess
  rw [hwx.isInf, hwy.isInf, hwx.isZero, hwy.isZero] at hinf
  cases hix : isInf32 x with
  | true => rw [hinf (.inl ⟨hix, Bool.eq_false_iff.mpr fun h => hvalid (.inl ⟨hix, h⟩)⟩)]
  | false =>
    cases hiy : isInf32 y with
    | true => rw [hinf (.inr ⟨Bool.eq_false_iff.mpr fun h => hvalid (.inr ⟨h, hiy⟩), hiy⟩)]
    | false =>
      obtain ⟨p, hp⟩ := val32_exists hx hix
      obtain ⟨q, hq⟩ := val32_exists hy hiy
      exact (mul64_extendFloat hp hq rm _).2

end Sys2Proof.Said
end

section
/-!
PROOFS. ps_rsqrte (46_ps_estimate.md): the reference estimate as two roundings of real numbers (40_fp_value_model.md
R99, R100), and the instruction slot by slot (R178, R180).
-/

namespace Sys2Proof.Said

open Sys2Proof.Machine

/-! ### The binary32 operations under the estimate -/

/-- R99: a quotient of numbers is rounded to binary32. -/
theorem roundsTo32_div32 {a b : B32} {x y : ℝ} (rm : RoundMode) (tin : Tininess) (ha : Val32 a x) (hb : Val32 b y)
    (hx : x ≠ 0) (hy : y ≠ 0) : RoundsTo32 tin rm (x / y) (div32 a b rm tin) := by
  have hza := ha.isZero_of_ne hx
  have hzb := hb.isZero_of_ne hy
  obtain ⟨hpos, hreal⟩ := isReal_quotient (X := val32 a) (Y := val32 b) (ha.real.symm ▸ hx) (hb.real.symm ▸ hy)
  simp only [div32, ha.isInf, hb.isInf, hza, hzb, Bool.or_self, Bool.and_self, Bool.false_eq_true, if_false]
  rw [ha.real, hb.real] at hreal
  exact ⟨_, _, xor_sign_iff (ha.sign_iff hx) (hb.sign_iff hy) hx hy, rfl,
    roundsTo_round binary32_regular tin rm _ hpos hreal⟩

theorem isReal_root {X : Exact} (hX : X.real ≠ 0) : Positive X.root ∧ IsReal X.root (Real.sqrt |X.real|) := by
  have hm : X.m ≠ 0 := mt X.real_eq_zero.mpr hX
  refine ⟨⟨scaleBy_num_pos (Int.natAbs_pos.mpr hm) _, scaleBy_den_pos one_pos _⟩, ?_⟩
  rw [Exact.root, IsReal, scaleBy_value, X.abs_real, Nat.cast_one, div_one]

/-- R100: the square root of a positive number is rounded to binary32. -/
theorem roundsTo32_sqrt32 {a : B32} {y : ℝ} (rm : RoundMode) (tin : Tininess) (ha : Val32 a y) (hy : 0 < y) :
    RoundsTo32 tin rm (Real.sqrt y) (sqrt32 a rm tin) := by
  have hzero := ha.isZero_of_ne hy.ne'
  have hsign : sign32 a = false := Bool.eq_false_iff.mpr (mt (ha.sign_iff hy.ne').mp hy.le.not_gt)
  obtain ⟨hpos, hreal⟩ := isReal_root (X := val32 a) (ha.real.symm ▸ hy.ne')
  rw [ha.real, abs_of_pos hy] at hreal
  simp only [sqrt32, hzero, hsign, ha.isInf, Bool.false_eq_true, if_false]
  have hroot := Real.sqrt_nonneg y
  exact ⟨_, false, iff_of_false Bool.false_ne_true hroot.not_gt, rfl,
    (abs_of_nonneg hroot).symm ▸ roundsTo_round binary32_regular tin rm _ hpos hreal⟩

/-- A value well inside the normal range is rounded to a positive number. -/
theorem RoundsTo.pos_of_normal {fmt : FpFormat} (hfmt : fmt.Regular) {tin : Tininess} {rm : RoundMode} {neg : Bool}
    {x : ℝ} {r : FpParts} {sig : Signals} (h : RoundsTo fmt tin rm neg x r sig) (hmin : 2 ^ fmt.emin ≤ x)
    (hmax : x < 2 ^ fmt.emax) : ∃ z, Denotes fmt r z ∧ 0 < z := by
  obtain ⟨e, k, kd, ru, rd, hlo, hhi, hk, hru, -, -, -, -, -, -, -, -, hnormal⟩ := h
  obtain ⟨hbitsLo, hbitsHi⟩ := rounded_bits hfmt.p_pos hlo hhi hk
  obtain ⟨htopLo, htopHi⟩ := roundedTop_spec (e := e) hfmt.p_pos hbitsLo hbitsHi
  have he : e < fmt.emax := (lt_two_zpow_iff hlo hhi).mp hmax
  have htop : roundedTop fmt.p e k < fmt.emax + 1 := by
    unfold roundedTop
    split <;> omega
  rw [← hru] at htopLo htopHi
  exact ⟨ru, (hnormal ((lt_two_zpow_iff htopLo htopHi).mpr htop) hmin).1, (two_zpow_pos _).trans_le htopLo⟩

/-- The same of a signed value and its pattern. -/
theorem RoundsTo32.val_of_normal {tin : Tininess} {rm : RoundMode} {x : ℝ} {r : B32 × Signals}
    (h : RoundsTo32 tin rm x r) (hmin : 2 ^ binary32.emin ≤ |x|) (hmax : |x| < 2 ^ binary32.emax) :
    ∃ z, Val32 r.1 z ∧ z ≠ 0 := by
  obtain ⟨p, neg, -, hr, hround⟩ := h
  obtain ⟨z, hden, hz⟩ := hround.pos_of_normal binary32_regular hmin hmax
  refine ⟨signed p.sign z, hr ▸ DenotesSigned.val32 ⟨z, hden, rfl⟩, ?_⟩
  rw [← abs_pos, abs_signed hz.le]
  exact hz

/-- The square root of a positive binary32 number lies well inside the normal range. -/
theorem sqrt_range {a : B32} {y : ℝ} (ha : Val32 a y) (hy : 0 < y) :
    (2 : ℝ) ^ binary32.emin ≤ Real.sqrt y ∧ Real.sqrt y < 2 ^ binary32.emax := by
  obtain ⟨n, g, hunits, hn, hg, hmax⟩ := (val32_iff.mp ha).abs.units binary32_regular
  rw [abs_of_pos hy] at hunits
  have hn1 : 2 ^ 0 ≤ n := Nat.one_le_iff_ne_zero.mpr fun h => by simp [h] at hunits; exact hy.ne' hunits
  have hlo := le_mul_two_zpow hn1 g
  have hhi := mul_two_zpow_lt hn g
  rw [← hunits] at hlo hhi
  simp only [binary32] at *
  constructor
  · apply Real.le_sqrt_of_sq_le
    rw [two_zpow_sq]
    exact (two_zpow_le_iff.mpr (by omega)).trans hlo
  · rw [Real.sqrt_lt' (two_zpow_pos _), two_zpow_sq]
    exact hhi.trans_le (two_zpow_le_iff.mpr (by omega))

theorem val32_one : Val32 0x3F800000 1 := by
  have hexp : exp32 0x3F800000 = 127 := by decide
  have hfrac : frac32 0x3F800000 = 0 := by decide
  have hsign : sign32 0x3F800000 = false := by decide
  refine ⟨by decide, by decide, ?_⟩
  rw [hexp, hfrac, hsign, if_neg (by decide : ¬ (127 : BitVec 8) = 0), show (127 : BitVec 8).toNat = 127 from rfl]
  norm_num

/-- The reference estimate on a positive number: the root is rounded, then 1 over it (R175, log 8). -/
theorem rsqrtEst_of_pos {x : B32} {y : ℝ} (rm : RoundMode) (hx : Val32 x y) (hy : 0 < y) :
    ∃ (r : B32) (sa sb : Signals) (z : ℝ), RoundsTo32 Config.tininess rm (Real.sqrt y) (r, sa) ∧ Val32 r z ∧ z ≠ 0 ∧
      RoundsTo32 Config.tininess rm (1 / z) ((rsqrtEst x rm).1, sb) ∧ (rsqrtEst x rm).2 = sa.union sb := by
  have hroot := roundsTo32_sqrt32 rm Config.tininess hx hy
  obtain ⟨hmin, hmax⟩ := sqrt_range hx hy
  rw [← abs_of_nonneg (Real.sqrt_nonneg y)] at hmin hmax
  obtain ⟨z, hz, hz0⟩ := hroot.val_of_normal hmin hmax
  exact ⟨_, _, _, z, hroot, hz, hz0, roundsTo32_div32 rm _ val32_one hz one_ne_zero hz0, rfl⟩

/-! ### The slots of ps_rsqrte (R180) -/

theorem rsqrtSlot_result (s : State) (b : B64) : (rsqrtSlot .spec s.fpscr b).result =
    if rsqrtShut s b then none else some (rsqrtResult .spec b s.rm) := by
  have hgate : gated .powerPC s.fpscr (rsqrtFlags b) = rsqrtShut s b := by
    simp [gated, SlotFlags.invalid, rsqrtFlags, rsqrtShut, rsqrtInvalid, ve, ze]
  rw [← hgate]
  rfl

/-! The three arms of its result. -/

theorem rsqrtResult_of_nan {b : B64} (rm : RoundMode) (h : isNan64 b = true) :
    rsqrtResult .spec b rm = (makeQuiet (truncBits b), .none) := by
  rw [rsqrtResult, if_pos h]
  rfl

theorem rsqrtResult_of_invalid {b : B64} (rm : RoundMode) (hnan : isNan64 b = false) (h : rsqrtInvalid b = true) :
    rsqrtResult .spec b rm = (Config.qnan32, .none) := by
  have hflags : ((rsqrtFlags b).vxsnan || (rsqrtFlags b).vxsqrt) = true := Bool.or_eq_true_iff.mpr (.inr h)
  rw [rsqrtResult, hnan, if_neg Bool.false_ne_true, if_pos hflags]
  rfl

theorem rsqrtResult_of_valid {b : B64} (rm : RoundMode) (hnan : isNan64 b = false) (h : rsqrtInvalid b = false) :
    rsqrtResult .spec b rm = ((rsqrtEst (roundF32 b rm).1 rm).1,
      (roundF32 b rm).2.union (rsqrtEst (roundF32 b rm).1 rm).2) := by
  have hsnan : isSnan64 b = false := by rw [isSnan64, hnan, Bool.false_and]
  have hflags : ((rsqrtFlags b).vxsnan || (rsqrtFlags b).vxsqrt) = false := Bool.or_eq_false_iff.mpr ⟨hsnan, h⟩
  rw [rsqrtResult, hnan, if_neg Bool.false_ne_true, hflags, if_neg Bool.false_ne_true]
  rfl

/-- `RsqrtValue` says of a lane that it is the result. -/
theorem rsqrtValue_iff {b : B64} {rm : RoundMode} {d : B32} :
    RsqrtValue b rm d ↔ d = (rsqrtResult .spec b rm).1 := by
  cases hnan : isNan64 b with
  | true => simp [RsqrtValue, rsqrtResult_of_nan rm hnan, hnan]
  | false =>
    cases hinv : rsqrtInvalid b with
    | true => simp [RsqrtValue, rsqrtResult_of_invalid rm hnan hinv, hnan, hinv]
    | false => simp [RsqrtValue, rsqrtResult_of_valid rm hnan hinv, hnan, hinv]

theorem rsqrtSlot_sig (s : State) (b : B64) : (rsqrtSlot .spec s.fpscr b).sig = rsqrtSignals s b := by
  rw [Slot.sig, rsqrtSlot_result, rsqrtSignals]
  cases rsqrtShut s b with
  | true => rfl
  | false =>
    cases hnan : isNan64 b with
    | true => simp [rsqrtResult_of_nan _ hnan]
    | false =>
      cases hinv : rsqrtInvalid b with
      | true => simp [rsqrtResult_of_invalid _ hnan hinv]
      | false => simp [rsqrtResult_of_valid _ hnan hinv]

/-! ### The instruction -/

/-- A one-bit field outside the summary is or-ed with the flags and the signals of both slots. -/
theorem ored_psRsqrte (o : Operands) (s : State) {b : FpscrBit} {v : Bool} (hVX : b ≠ .VX) (hFEX : b ≠ .FEX)
    (hFX : b ≠ .FX)
    (hv : ((rsqrtFlags (s.opnd0 o.frB)).bit b || (rsqrtFlags (s.opnd1 o.frB)).bit b ||
      ((rsqrtSignals s (s.opnd0 o.frB)).union (rsqrtSignals s (s.opnd1 o.frB))).bit b) = v) :
    Ored s (psRsqrte .spec o s) b v := by
  rw [← hv, ← rsqrtSlot_sig, ← rsqrtSlot_sig, Ored, ← Bool.or_assoc]
  exact get_commitSlots (P := .spec) Layout.powerPC_lawful s o.frD o.rc _ _ b hVX hFEX hFX

theorem fprf_psRsqrte (o : Operands) (s : State) : Fpscr.fprf (psRsqrte .spec o s).fpscr =
    if rsqrtShut s (s.opnd0 o.frB) then Fpscr.fprf s.fpscr
    else fprfOf (rsqrtResult .spec (s.opnd0 o.frB) s.rm).1 := by
  refine (fprf_commitSlots (P := .spec) Layout.powerPC_lawful s o.frD o.rc _ _).trans ?_
  rw [rsqrtSlot_result]
  cases rsqrtShut s (s.opnd0 o.frB) <;> rfl

theorem regsKept_psRsqrte {o : Operands} {s : State}
    (h : (rsqrtShut s (s.opnd0 o.frB) || rsqrtShut s (s.opnd1 o.frB)) = true) : RegsKept s (psRsqrte .spec o s) := by
  intro r
  refine reg_commitSlots_none s .spec o.frD r o.rc _ _ ?_
  rw [rsqrtSlot_result, rsqrtSlot_result]
  exact (Bool.or_eq_true_iff.mp h).imp (fun h0 => if_pos h0) (fun h1 => if_pos h1)

theorem reg_psRsqrte {o : Operands} {s : State}
    (h : (rsqrtShut s (s.opnd0 o.frB) || rsqrtShut s (s.opnd1 o.frB)) = false) (r : RegIdx) :
    (psRsqrte .spec o s).reg r =
      if o.frD = r then
        { ps0 := extendFloat (rsqrtResult .spec (s.opnd0 o.frB) s.rm).1
          ps1 := (rsqrtResult .spec (s.opnd1 o.frB) s.rm).1 }
      else s.reg r := by
  obtain ⟨h0, h1⟩ := Bool.or_eq_false_iff.mp h
  refine reg_commitSlots_some s .spec o.frD r o.rc _ _ _ _ ?_ ?_
  · rw [rsqrtSlot_result, h0]
    rfl
  · rw [rsqrtSlot_result, h1]
    rfl

/-- Settles O40: the value of the estimate by `rsqrtEst_of_pos`, the registers and the FPSCR from the slots. -/
theorem rsqrteFollowsItsSlots : Obligations.RsqrteFollowsItsSlots := by
  refine ⟨fun x rm y => rsqrtEst_of_pos rm, fun o s => ⟨psRsqrte .spec o s, rfl, regsKept_psRsqrte, fun h => ?lanes,
    fun h => ?fprfKept, fun h d hd => ?fprf, ?VXSNAN, ?VXSQRT, ?ZX, ?OX, ?UX, ?XX, ?kept⟩⟩
  case lanes =>
    have hreg := reg_psRsqrte h
    exact ⟨_, _, rsqrtValue_iff.mpr rfl, rsqrtValue_iff.mpr rfl, (hreg o.frD).trans (if_pos rfl),
      fun r hr => (hreg r).trans (if_neg (Ne.symm hr))⟩
  case fprfKept => rw [fprf_psRsqrte, if_pos h]
  case fprf => rw [fprf_psRsqrte, h, if_neg Bool.false_ne_true, rsqrtValue_iff.mp hd]
  case VXSNAN => exact ored_psRsqrte o s nofun nofun nofun (Bool.or_false _)
  case VXSQRT => exact ored_psRsqrte o s nofun nofun nofun (Bool.or_false _)
  case ZX => exact ored_psRsqrte o s nofun nofun nofun (Bool.or_assoc ..).symm
  case OX | UX | XX => exact ored_psRsqrte o s nofun nofun nofun rfl
  case kept =>
    have hkept : ∀ {b}, Ored s (psRsqrte .spec o s) b false → BitKept s (psRsqrte .spec o s) b :=
      fun h => h.trans (Bool.or_false _)
    intro b hb
    simp only [List.mem_cons, List.not_mem_nil, or_false] at hb
    obtain rfl | rfl | rfl | rfl := hb <;> exact hkept (ored_psRsqrte o s nofun nofun nofun rfl)

end Sys2Proof.Said
end

section
/-!
PROOFS. The move family (41_ps_move.md): what it takes of lane 0 (R111), what it writes (R112), and that the rounding
mode is all it reads of the FPSCR (R118). No move, merge or select changes the FPSCR (48_fpscr_update.md R196).
-/

namespace Sys2Proof.Machine

/-! ### Narrowing lane 0 (R111) -/

section Narrowing

variable (P : Params) {v : B64} {rm rm' : RoundMode}

theorem narrowLane0_of_snan (rm : RoundMode) (h : isSnan64 v = true) : narrowLane0 P v rm = P.truncBits v := if_pos h

theorem narrowLane0_of_not_snan (rm : RoundMode) (h : isSnan64 v = false) :
    narrowLane0 P v rm = (P.roundF32 v rm).1 :=
  if_neg (Bool.eq_false_iff.mp h)

/-- The rounding mode matters only where lane 0 is rounded. -/
theorem narrowLane0_congr (h : isSnan64 v = false → rm = rm') : narrowLane0 P v rm = narrowLane0 P v rm' := by
  cases hv : isSnan64 v with
  | true => rw [narrowLane0_of_snan P rm hv, narrowLane0_of_snan P rm' hv]
  | false => rw [h hv]

end Narrowing

/-! ### What a move leaves (R112, R118) -/

/-- A register write depends on nothing but the register file. -/
theorem writeReg_fpr_congr {s s' : State} (h : s.fpr = s'.fpr) (d : RegIdx) (x : Fpr) :
    (s.writeReg d x).fpr = (s'.writeReg d x).fpr := by
  simp only [State.writeReg, h]

section Move

variable (P : Params) (sop : B32 → B32) (o : Operands)

theorem moveGeneric_fpscr (s : State) : (moveGeneric P sop o s).fpscr = s.fpscr := mirror_fpscr ..

theorem ps0_moveGeneric (s : State) : (moveGeneric P sop o s).ps0 o.frD =
    if isSnan64 (s.ps0 o.frB) then extendFloatNanBits (sop (narrowLane0 P (s.ps0 o.frB) (s.rm P)))
    else extendFloat (sop (narrowLane0 P (s.ps0 o.frB) (s.rm P))) := by
  rw [moveGeneric, ps0_mirror, ps0_writeReg_same]

theorem ps1_moveGeneric (s : State) : (moveGeneric P sop o s).ps1 o.frD = sop (s.ps1 o.frB) := by
  rw [moveGeneric, ps1_mirror, ps1_writeReg_same]

/-- From the same registers and, where lane 0 is rounded, the same rounding mode a move leaves the same registers. -/
theorem moveGeneric_fpr_congr {s s' : State} (hfpr : s.fpr = s'.fpr)
    (hrm : isSnan64 (s.ps0 o.frB) = false → s.rm P = s'.rm P) :
    (moveGeneric P sop o s).fpr = (moveGeneric P sop o s').fpr := by
  have hreg : s.reg o.frB = s'.reg o.frB := by rw [State.reg, State.reg, hfpr]
  rw [moveGeneric, moveGeneric, mirror_fpr, mirror_fpr, narrowLane0_congr P hrm, ps0_eq, ps1_eq, hreg]
  exact writeReg_fpr_congr hfpr ..

end Move

end Sys2Proof.Machine

namespace Sys2Proof.Said

open Sys2Proof.Machine

/-- Settles O44, by `moveGeneric_fpr_congr` and `moveGeneric_fpscr`. -/
theorem moveReadsOnlyTheRoundingMode : Obligations.MoveReadsOnlyTheRoundingMode := by
  intro i s s' hmove hfpr hrm
  obtain ⟨sop, hsop⟩ := Option.isSome_iff_exists.mp hmove
  exact ⟨_, _, (exec_of_moveOp hsop s).1, (exec_of_moveOp hsop s').1,
    moveGeneric_fpr_congr .spec sop i.operands hfpr hrm, moveGeneric_fpscr .., moveGeneric_fpscr ..⟩

/-- Settles O24, by `exec_quiet`: such an instruction writes a register and mirrors, and neither touches the FPSCR. -/
theorem moveMergeSelectLeaveTheFpscr : Obligations.MoveMergeSelectLeaveTheFpscr := by
  intro i s t hquiet hexec
  obtain ⟨y, hy⟩ := exec_quiet i s hquiet
  obtain rfl := Host.Outcome.next.inj (hexec.symm.trans hy)
  rw [mirror_fpscr, writeReg_fpscr]

/-- Settles O43, lane by lane; the frame of the registers is `onlyTheDestinationChanges`. -/
theorem moveTransformsTheSignOfBothLanes : Obligations.MoveTransformsTheSignOfBothLanes := by
  intro i s sop hsop
  obtain ⟨hexec, -⟩ := exec_of_moveOp hsop s
  refine ⟨_, hexec, fun hsnan => ?signalling, fun hsnan => ?rounded, ps1_moveGeneric .., ?others,
    moveGeneric_fpscr ..⟩
  case signalling =>
    rw [ps0_moveGeneric, if_pos hsnan, narrowLane0_of_snan _ _ hsnan]
    rfl
  case rounded =>
    rw [ps0_moveGeneric, if_neg (Bool.eq_false_iff.mp hsnan), narrowLane0_of_not_snan _ _ hsnan]
    rfl
  case others => exact (onlyTheDestinationChanges i s _ hexec).1

end Sys2Proof.Said
end

section
/-!
PROOFS. The arithmetic family (42_ps_arith.md): its six instructions as the two-slot skeleton on the operand pairs of
R120, a slot's flags and gate (R121, R122) and its result (R123), and the write of both lanes or neither (R125).
-/

namespace Sys2Proof.Said

open Sys2Proof.Machine

/-- An instruction of the family is the skeleton on the operand pairs that R120 gives it. -/
theorem exec_of_arith {i : Instr} {s : State} {c : TwoSlots} (h : arith i s = some c) :
    exec i s = .next (psArith .spec c.op c.a0 c.b0 c.a1 c.b1 i.operands s) := by
  cases i with
  | psAdd o | psSub o | psDiv o | psMul o | psMuls0 o | psMuls1 o =>
    obtain rfl := Option.some.inj h
    rfl
  | _ => exact nomatch h

/-! ### A slot -/

section Slots

variable (op : ArithOp) (a b : B64)

/-- The flags of a slot, each by its condition (R121). -/
theorem arithFlags_eq : arithFlags op a b =
    { vxsnan := snan a b, vxisi := infMinusInf op a b, vximz := infTimesZero op a b, vxidi := infOverInf op a b,
      vxzdz := zeroOverZero op a b, zx := zeroDivide op a b } := by
  cases op with
  | add | sub | mul => simp [arithFlags, snan, infMinusInf, infTimesZero, infOverInf, zeroOverZero, zeroDivide]
  | div =>
    -- R121 excludes zero over zero from ZX, `zeroDivide` a zero dividend: with a zero divisor these are the same.
    cases hb : isZero64 b <;>
      simp [arithFlags, snan, infMinusInf, infTimesZero, infOverInf, zeroOverZero, zeroDivide, hb]

/-- A slot's result: none behind a shut gate (R122). -/
theorem arithSlot_result (s : State) : (arithSlot .spec s.fpscr op a b).result =
    if shut s op a b then none else some (arithResult .spec op a b s.rm) := by
  have hgate : gated .powerPC s.fpscr (arithFlags op a b) = shut s op a b := by
    simp [gated, SlotFlags.invalid, arithFlags_eq, shut, invalidOp, ve, ze, Bool.or_assoc]
  rw [← hgate]
  rfl

/-! The four arms of its result (R123). -/

variable {op a b} (rm : RoundMode)

theorem arithResult_of_nanA (ha : isNan64 a = true) :
    arithResult .spec op a b rm = (makeQuiet (truncBits a), .none) := if_pos ha

theorem arithResult_of_nanB (ha : isNan64 a = false) (hb : isNan64 b = true) :
    arithResult .spec op a b rm = (makeQuiet (truncBits b), .none) := by
  rw [arithResult, ha, if_neg Bool.false_ne_true, if_pos hb]
  rfl

theorem arithResult_of_numbers (ha : isNan64 a = false) (hb : isNan64 b = false) :
    arithResult .spec op a b rm =
      if invalidOp op a b then (Config.qnan32, .none)
      else ((roundF32 (op.apply a b rm).1 rm).1,
        (op.apply a b rm).2.union (roundF32 (op.apply a b rm).1 rm).2) := by
  rw [arithResult, ha, hb, if_neg Bool.false_ne_true, if_neg Bool.false_ne_true, arithFlags_eq]
  rfl

/-- `LaneValue` says of a lane that it is the result. -/
theorem laneValue_iff {d : B32} : LaneValue op a b rm d ↔ d = (arithResult .spec op a b rm).1 := by
  cases ha : isNan64 a with
  | true => simp [LaneValue, arithResult_of_nanA rm ha, ha]
  | false =>
    cases hb : isNan64 b with
    | true => simp [LaneValue, arithResult_of_nanB rm ha hb, ha, hb]
    | false => cases hinv : invalidOp op a b <;> simp [LaneValue, arithResult_of_numbers rm ha hb, ha, hb, hinv]

end Slots

/-! ### The instruction -/

section Registers

variable {op : ArithOp} {a0 b0 a1 b1 : B64} (o : Operands) {s : State}

theorem regsKept_psArith (h : (shut s op a0 b0 || shut s op a1 b1) = true) :
    RegsKept s (psArith .spec op a0 b0 a1 b1 o s) := by
  intro r
  refine reg_commitSlots_none s .spec o.frD r o.rc _ _ ?_
  rw [arithSlot_result, arithSlot_result]
  exact (Bool.or_eq_true_iff.mp h).imp (fun h0 => if_pos h0) (fun h1 => if_pos h1)

theorem reg_psArith (h : (shut s op a0 b0 || shut s op a1 b1) = false) (r : RegIdx) :
    (psArith .spec op a0 b0 a1 b1 o s).reg r =
      if o.frD = r then
        { ps0 := extendFloat (arithResult .spec op a0 b0 s.rm).1, ps1 := (arithResult .spec op a1 b1 s.rm).1 }
      else s.reg r := by
  obtain ⟨h0, h1⟩ := Bool.or_eq_false_iff.mp h
  refine reg_commitSlots_some s .spec o.frD r o.rc _ _ _ _ ?_ ?_
  · rw [arithSlot_result, h0]
    rfl
  · rw [arithSlot_result, h1]
    rfl

end Registers

/-- Settles O31, by the two cases of the gates: `regsKept_psArith` and `reg_psArith`. -/
theorem arithmeticWritesBothLanesOrNeither : Obligations.ArithmeticWritesBothLanesOrNeither := by
  intro i s c hc
  refine ⟨_, exec_of_arith hc, regsKept_psArith i.operands, fun hopen => ?_⟩
  have hreg := reg_psArith i.operands hopen
  exact ⟨_, _, (laneValue_iff s.rm).mpr rfl, (laneValue_iff s.rm).mpr rfl, (hreg i.operands.frD).trans (if_pos rfl),
    fun r hr => (hreg r).trans (if_neg hr.symm)⟩

end Sys2Proof.Said
end

section
/-!
PROOFS. The sum family (43_ps_sum.md): ps_sum0 and ps_sum1 as one engine effect on one adding slot (R140), whose
registers and FPSCR are read off once (R141, R142); the side conversion of ps_sum1 and the signals it hides (R144,
R145).
-/

namespace Sys2Proof.Said

open Sys2Proof.Machine

/-- A field that nothing is or-ed into is kept. -/
theorem Ored.bitKept {s t : State} {c : FpscrBit} (h : Ored s t c false) : BitKept s t c := h.trans (Bool.or_false _)

/-! ### The adding slot -/

section AddSlot

variable (a b : B64)

/-- Of the flags of R121 an addition raises two. -/
theorem arithFlags_add : arithFlags .add a b = { vxsnan := snan a b, vxisi := infMinusInf .add a b } :=
  arithFlags_eq .add a b

/-- The signals of a slot of the arithmetic family, in the statement's terms (R122, R123). -/
theorem arithSlot_sig (op : ArithOp) (s : State) : (arithSlot .spec s.fpscr op a b).sig = laneSignals s op a b := by
  rw [Slot.sig, arithSlot_result, laneSignals]
  cases shut s op a b with
  | true => rfl
  | false =>
    cases ha : isNan64 a with
    | true => simp [arithResult_of_nanA _ ha]
    | false =>
      cases hb : isNan64 b with
      | true => simp [arithResult_of_nanB _ ha hb]
      | false => cases hinv : invalidOp op a b <;> simp [arithResult_of_numbers _ ha hb, hinv]

/-- An addition signals no division by zero, so it leaves ZX alone. -/
theorem laneSignals_add_dz (s : State) : (laneSignals s .add a b).dz = false := by
  rw [laneSignals]
  split
  · rfl
  · simp [Signals.union, ArithOp.apply]

end AddSlot

/-! ### The effect that the two instructions share -/

/-- What an instruction of the family does: the sum `a + b`, when it is not gated, decides by `f` what both lanes of frD
become, and the engine runs with the sum's flags, FPRF from the sum, and the signals `sig` (R141, R142). -/
def sumEffect (a b : B64) (o : Operands) (s : State) (f : B32 → Fpr) (sig : Signals) : State :=
  EngineEffect .spec o s ((arithSlot .spec s.fpscr .add a b).result.map fun r => f r.1)
    [(arithSlot .spec s.fpscr .add a b).flags] (arithSlot .spec s.fpscr .add a b).fprfValue sig

section Effect

variable {a b : B64} {o : Operands} {s : State} (f : B32 → Fpr) (sig : Signals)

theorem reg_sumEffect (r : RegIdx) : (sumEffect a b o s f sig).reg r =
    if shut s .add a b = false ∧ o.frD = r then f (arithResult .spec .add a b s.rm).1 else s.reg r := by
  rw [sumEffect, reg_engineEffect, arithSlot_result]
  cases shut s .add a b with
  | true => rfl
  | false => simp [reg_writeReg]

theorem fprf_sumEffect : Fpscr.fprf (sumEffect a b o s f sig).fpscr =
    if shut s .add a b then Fpscr.fprf s.fpscr else fprfOf (arithResult .spec .add a b s.rm).1 := by
  rw [sumEffect, engineEffect_fpscr]
  refine (fprf_engineWord (P := .spec) Layout.powerPC_lawful ..).trans ?_
  rw [Slot.fprfValue, arithSlot_result]
  cases shut s .add a b <;> rfl

/-- A gated sum keeps the registers and FPRF. -/
theorem sumEffect_of_shut (h : shut s .add a b = true) :
    RegsKept s (sumEffect a b o s f sig) ∧ Fpscr.fprf (sumEffect a b o s f sig).fpscr = Fpscr.fprf s.fpscr := by
  constructor
  · intro r
    simp [reg_sumEffect, h]
  · rw [fprf_sumEffect, if_pos h]

/-- A sum that is not gated is a value of R123; frD and FPRF follow it, and no other register changes. -/
theorem sumEffect_of_open (h : shut s .add a b = false) : ∃ d, LaneValue .add a b s.rm d ∧
    (sumEffect a b o s f sig).reg o.frD = f d ∧ OthersKept s (sumEffect a b o s f sig) o.frD ∧
    Fpscr.fprf (sumEffect a b o s f sig).fpscr = fprfOf d := by
  refine ⟨_, (laneValue_iff s.rm).mpr rfl, ?frD, fun r hr => ?others, ?fprf⟩
  case frD => simp [reg_sumEffect, h]
  case others => simp [reg_sumEffect, hr.symm]
  case fprf => rw [fprf_sumEffect, if_neg (Bool.eq_false_iff.mp h)]

/-- A one-bit field outside the summary is or-ed with the sum's flags and with the signals given. -/
theorem ored_sumEffect {c : FpscrBit} {v : Bool} (hVX : c ≠ .VX) (hFEX : c ≠ .FEX) (hFX : c ≠ .FX)
    (hv : (({ vxsnan := snan a b, vxisi := infMinusInf .add a b } : SlotFlags).bit c || sig.bit c) = v) :
    Ored s (sumEffect a b o s f sig) c v := by
  rw [Ored, sumEffect, engineEffect_fpscr]
  refine (get_engineWord (P := .spec) Layout.powerPC_lawful _ _ _ sig c hVX hFEX hFX).trans ?_
  rw [← hv, ← arithFlags_add, List.any_cons, List.any_nil, Bool.or_false, Bool.or_assoc]
  rfl

/-- The fields that R121 gives to other operations are kept: an addition raises none of them. -/
theorem bitKept_sumEffect (hdz : sig.dz = false) :
    ∀ c ∈ [FpscrBit.VXIMZ, .VXIDI, .VXZDZ, .VXSQRT, .ZX], BitKept s (sumEffect a b o s f sig) c := by
  intro c hc
  simp only [List.mem_cons, List.not_mem_nil, or_false] at hc
  obtain rfl | rfl | rfl | rfl | rfl := hc
  all_goals
    refine Ored.bitKept (ored_sumEffect f sig nofun nofun nofun ?_)
    simp [SlotFlags.bit, Signals.bit, hdz]

end Effect

/-! ### ps_sum0 (R143) -/

/-- ps_sum0 puts the sum in lane 0 and a raw copy of C's lane 1 in lane 1. -/
theorem psSum0_eq_sumEffect (o : Operands) (s : State) : psSum0 .spec o s =
    sumEffect (s.opnd0 o.frA) (s.opnd1 o.frB) o s (fun d => { ps0 := extendFloat d, ps1 := s.ps1 o.frC })
      (laneSignals s .add (s.opnd0 o.frA) (s.opnd1 o.frB)) := by
  rw [← arithSlot_sig]
  unfold psSum0 sumSlot sumEffect
  obtain ⟨flags, result⟩ := arithSlot .spec s.fpscr .add (s.opnd0 o.frA) (s.opnd1 o.frB)
  cases result <;> rfl

/-- Settles O34, by `psSum0_eq_sumEffect`. -/
theorem sum0AddsAcrossLanes : Obligations.Sum0AddsAcrossLanes := by
  intro o s
  refine ⟨_, congrArg Host.Outcome.next (psSum0_eq_sumEffect o s), sumEffect_of_shut _ _, sumEffect_of_open _ _,
    ?VXSNAN, ?VXISI, ?OX, ?UX, ?XX, bitKept_sumEffect _ _ (laneSignals_add_dz ..)⟩
  case VXSNAN | VXISI => exact ored_sumEffect _ _ nofun nofun nofun (Bool.or_false _)
  case OX | UX | XX => exact ored_sumEffect _ _ nofun nofun nofun rfl

/-! ### ps_sum1 (R144, R145) -/

/-- Of the signals of the side conversion the underflow alone is kept, and a NaN has none. -/
theorem sideLane_eq (c : B64) (rm : RoundMode) : sideLane .spec c rm =
    (if isNan64 c then truncBits c else (roundF32 c rm).1,
      { Signals.none with uf := !isNan64 c && (roundF32 c rm).2.uf }) := by
  rw [sideLane]
  cases isNan64 c <;> rfl

/-- The signals of ps_sum1: the sum's, and the underflow of the side conversion when that takes place. -/
def sum1Signals (a b c : B64) (s : State) : Signals :=
  (laneSignals s .add a b).union
    { Signals.none with uf := !shut s .add a b && !isNan64 c && (roundF32 c s.rm).2.uf }

/-- ps_sum1 puts the converted lane 0 of C in lane 0 and the sum in lane 1. -/
theorem psSum1_eq_sumEffect (o : Operands) (s : State) : psSum1 .spec o s =
    sumEffect (s.opnd0 o.frA) (s.opnd1 o.frB) o s
      (fun d =>
        { ps0 := extendFloat (if isNan64 (s.ps0 o.frC) then truncBits (s.ps0 o.frC)
            else (roundF32 (s.ps0 o.frC) s.rm).1), ps1 := d })
      (sum1Signals (s.opnd0 o.frA) (s.opnd1 o.frB) (s.ps0 o.frC) s) := by
  have hresult := arithSlot_result .add (s.opnd0 o.frA) (s.opnd1 o.frB) s
  unfold psSum1 sumSlot sumEffect
  rw [sideLane_eq, sum1Signals, ← arithSlot_sig]
  generalize arithSlot .spec s.fpscr .add (s.opnd0 o.frA) (s.opnd1 o.frB) = slot at hresult ⊢
  obtain ⟨flags, result⟩ := slot
  obtain rfl : result = _ := hresult
  cases shut s .add (s.opnd0 o.frA) (s.opnd1 o.frB) <;> rfl

/-- Settles O35, by `psSum1_eq_sumEffect`; what the side conversion adds to the sum's signals is in `sum1Signals`. -/
theorem sum1HidesTheSideConversion : Obligations.Sum1HidesTheSideConversion := by
  intro o s
  have hdz : (sum1Signals (s.opnd0 o.frA) (s.opnd1 o.frB) (s.ps0 o.frC) s).dz = false := by
    rw [sum1Signals, Signals.union_dz, laneSignals_add_dz]
    rfl
  refine ⟨_, congrArg Host.Outcome.next (psSum1_eq_sumEffect o s), sumEffect_of_shut _ _, sumEffect_of_open _ _,
    ?VXSNAN, ?VXISI, ?OX, ?UX, ?XX, bitKept_sumEffect _ _ hdz⟩
  case VXSNAN | VXISI | OX | XX => exact ored_sumEffect _ _ nofun nofun nofun (Bool.or_false _)
  case UX => exact ored_sumEffect _ _ nofun nofun nofun rfl

end Sys2Proof.Said
end

section
/-!
PROOFS. The fused multiply-add family (44_ps_fma.md): its six instructions as the two-slot skeleton on the rows of R150,
a slot's flags and gate (R151, R152) and its result (R153), and the write of both lanes or neither (R155, R223).
-/

namespace Sys2Proof.Said

open Sys2Proof.Machine

/-- An instruction of the family is the skeleton on the two slots that R150 gives it. -/
theorem exec_of_fma {i : Instr} {s : State} {c : FmaSlots} (h : fma i s = some c) :
    exec i s = .next (s.commitSlots .spec i.operands.frD i.operands.rc
      (fmaSlot .spec s.fpscr c.subtract c.negate c.a0 c.b0 c.c0)
      (fmaSlot .spec s.fpscr c.subtract c.negate c.a1 c.b1 c.c1)) := by
  cases i with
  | psMadd o | psMadds0 o | psMadds1 o | psMsub o | psNmadd o | psNmsub o =>
    obtain rfl := Option.some.inj h
    rfl
  | _ => exact nomatch h

/-! ### A slot -/

section FmaSlot

variable (subtract negate : Bool) (a b c : B64)

/-- The sign of the addend is b's, flipped by Subtract (R151). -/
theorem sign64_fmaAddend : sign64 (fmaAddend subtract b) = addendSign subtract b := by
  cases subtract <;> simp [fmaAddend, addendSign, flipSign64, sign64]

/-- The flags of a slot, each by its condition (R151). -/
theorem fmaFlags_eq : fmaFlags subtract a b c =
    { vxsnan := fmaSnan a b c, vxisi := fmaIsi subtract a b c, vximz := fmaImz a c } := by
  rw [fmaFlags, sign64_fmaAddend]
  rfl

/-- A slot's result: none behind a shut gate (R152). -/
theorem fmaSlot_result (s : State) : (fmaSlot .spec s.fpscr subtract negate a b c).result =
    if fmaShut s subtract a b c then none else some (fmaResult .spec subtract negate a b c s.rm) := by
  have hgate : gated .powerPC s.fpscr (fmaFlags subtract a b c) = fmaShut s subtract a b c := by
    simp [gated, SlotFlags.invalid, fmaFlags_eq, fmaShut, ve]
  rw [← hgate]
  rfl

/-! The five arms of its result (R153). -/

variable {subtract negate a b c} (rm : RoundMode)

theorem fmaResult_of_nanA (ha : isNan64 a = true) :
    fmaResult .spec subtract negate a b c rm = (makeQuiet (truncBits a), .none) := if_pos ha

theorem fmaResult_of_nanB (ha : isNan64 a = false) (hb : isNan64 b = true) :
    fmaResult .spec subtract negate a b c rm = (makeQuiet (truncBits b), .none) := by
  rw [fmaResult, ha, if_neg Bool.false_ne_true, if_pos hb]
  rfl

theorem fmaResult_of_nanC (ha : isNan64 a = false) (hb : isNan64 b = false) (hc : isNan64 c = true) :
    fmaResult .spec subtract negate a b c rm = (makeQuiet (truncBits c), .none) := by
  rw [fmaResult, ha, hb, if_neg Bool.false_ne_true, if_neg Bool.false_ne_true, if_pos hc]
  rfl

/-- The constant and the computed arm, the latter alone under Negate. -/
theorem fmaResult_of_numbers (ha : isNan64 a = false) (hb : isNan64 b = false) (hc : isNan64 c = false) :
    fmaResult .spec subtract negate a b c rm =
      if fmaIsi subtract a b c || fmaImz a c then (Config.qnan32, .none)
      else (if negate then (roundF32 (fused subtract a b c rm).1 rm).1 ^^^ 0x80000000
          else (roundF32 (fused subtract a b c rm).1 rm).1,
        (fused subtract a b c rm).2.union (roundF32 (fused subtract a b c rm).1 rm).2) := by
  rw [fmaResult, ha, hb, hc, if_neg Bool.false_ne_true, if_neg Bool.false_ne_true, if_neg Bool.false_ne_true,
    fmaFlags_eq]
  rfl

/-- `FmaValue` says of a lane that it is the result. -/
theorem fmaValue_iff {d : B32} :
    FmaValue subtract negate a b c rm d ↔ d = (fmaResult .spec subtract negate a b c rm).1 := by
  cases ha : isNan64 a with
  | true => simp [FmaValue, fmaResult_of_nanA rm ha, ha]
  | false =>
    cases hb : isNan64 b with
    | true => simp [FmaValue, fmaResult_of_nanB rm ha hb, ha, hb]
    | false =>
      cases hc : isNan64 c with
      | true => simp [FmaValue, fmaResult_of_nanC rm ha hb hc, ha, hb, hc]
      | false =>
        cases hinv : fmaIsi subtract a b c || fmaImz a c <;>
          simp [FmaValue, fmaResult_of_numbers rm ha hb hc, ha, hb, hc, hinv]

end FmaSlot

/-! ### The write of both lanes or neither -/

/-- Two slots behind the gates `g0` and `g1` write both lanes of the destination when both gates are open, and no
register otherwise (R223). -/
theorem reg_commitSlots_of_gates {s : State} {P : Params} {x0 x1 : Slot} {g0 g1 : Bool} {r0 r1 : B32 × Signals}
    (h0 : x0.result = if g0 then none else some r0) (h1 : x1.result = if g1 then none else some r1)
    (d : RegIdx) (rc : Bool) (r : RegIdx) : (s.commitSlots P d rc x0 x1).reg r =
      if (g0 || g1) = false ∧ d = r then { ps0 := extendFloat r0.1, ps1 := r1.1 } else s.reg r := by
  cases g0 with
  | true => simp [reg_commitSlots_none s P d r rc x0 x1 (.inl h0)]
  | false =>
    cases g1 with
    | true => simp [reg_commitSlots_none s P d r rc x0 x1 (.inr h1)]
    | false => simp [reg_commitSlots_some s P d r rc x0 x1 r0 r1 h0 h1]

/-- Settles O37, by the two cases of the gates in `reg_commitSlots_of_gates`; what the lanes hold is `fmaValue_iff`. -/
theorem fusedMultiplyAddWritesBothLanesOrNeither : Obligations.FusedMultiplyAddWritesBothLanesOrNeither := by
  intro i s c hc
  have hreg := reg_commitSlots_of_gates (s := s) (P := .spec) (fmaSlot_result c.subtract c.negate c.a0 c.b0 c.c0 s)
    (fmaSlot_result c.subtract c.negate c.a1 c.b1 c.c1 s) i.operands.frD i.operands.rc
  refine ⟨_, exec_of_fma hc, fun hshut r => ?shut, fun hopen =>
    ⟨_, _, (fmaValue_iff s.rm).mpr rfl, (fmaValue_iff s.rm).mpr rfl, ?frD, fun r hr => ?others⟩⟩
  case shut => simp [hreg, hshut]
  case frD => simp [hreg, hopen]
  case others => simp [hreg, hr.symm]

end Sys2Proof.Said
end

section
/-!
PROOFS. The merge family (45_ps_merge.md): what it takes of A (R166), and what it writes and leaves unchanged (R168).
-/

namespace Sys2Proof.Machine

section Merge

variable (P : Params) (mv0 mv1 : Bool) (o : Operands) (s : State)

theorem mergeGeneric_fpscr : (mergeGeneric P mv0 mv1 o s).fpscr = s.fpscr := mirror_fpscr ..

theorem ps0_mergeGeneric : (mergeGeneric P mv0 mv1 o s).ps0 o.frD = extendFloat (mergeLane0 P mv0 o s) := by
  rw [mergeGeneric, ps0_mirror, ps0_writeReg_same]

theorem ps1_mergeGeneric : (mergeGeneric P mv0 mv1 o s).ps1 o.frD = mergeLane1 P mv1 o s := by
  rw [mergeGeneric, ps1_mirror, ps1_writeReg_same]

/-- R166: A's lane 1 as it is, or A's lane 0, a signalling NaN by its bits and anything else rounded. -/
theorem mergeLane0_eq : mergeLane0 P mv0 o s =
    if mv0 then s.ps1 o.frA
    else if isSnan64 (s.ps0 o.frA) then P.truncBits (s.ps0 o.frA)
    else (P.roundF32 (s.ps0 o.frA) (s.rm P)).1 := by
  cases mv0 with
  | true => rfl
  | false =>
    cases hsnan : isSnan64 (s.ps0 o.frA) with
    | true => exact narrowLane0_of_snan P (s.rm P) hsnan
    | false => exact narrowLane0_of_not_snan P (s.rm P) hsnan

end Merge

end Sys2Proof.Machine

namespace Sys2Proof.Said

open Sys2Proof.Machine

/-- Settles O47, lane by lane; the frame of the registers is `onlyTheDestinationChanges`. -/
theorem mergeSelectsAndTruncates : Obligations.MergeSelectsAndTruncates := by
  intro i s mv0 mv1 hflags
  have hexec := exec_of_mergeFlags hflags s
  refine ⟨_, hexec, ?lane0, ps1_mergeGeneric .., ?others, mergeGeneric_fpscr ..⟩
  case lane0 =>
    rw [ps0_mergeGeneric, mergeLane0_eq]
    rfl
  case others => exact (onlyTheDestinationChanges i s _ hexec).1

end Sys2Proof.Said
end

section
/-!
PROOFS. ps_res (46_ps_estimate.md): the reference estimate as one rounding of a real number (40_fp_value_model.md R99),
and the instruction as the two-slot skeleton on two gated slots (R177, R178).
-/

namespace Sys2Proof.Said

open Sys2Proof.Machine

/-- The reference estimate on a number other than zero: 1 over it, rounded to binary32 (R175, log 8). -/
theorem recipEst_of_ne_zero {x : B32} {y : ℝ} (rm : RoundMode) (hx : Val32 x y) (hy : y ≠ 0) :
    RoundsTo32 Config.tininess rm (1 / y) (recipEst x rm) :=
  roundsTo32_div32 rm Config.tininess val32_one hx one_ne_zero hy

/-! ### The FPSCR after two slots -/

section Skeleton

variable (s : State) (d : RegIdx) (rc : Bool) (x0 x1 : Slot)

/-- A one-bit field outside the summary is or-ed with the flags and the signals of both slots. -/
theorem ored_commitSlots {c : FpscrBit} {v : Bool} (hVX : c ≠ .VX) (hFEX : c ≠ .FEX) (hFX : c ≠ .FX)
    (hv : (x0.flags.bit c || x1.flags.bit c || (x0.sig.union x1.sig).bit c) = v) :
    Ored s (s.commitSlots .spec d rc x0 x1) c v := by
  rw [← hv, Ored, ← Bool.or_assoc]
  exact get_commitSlots (P := .spec) Layout.powerPC_lawful s d rc x0 x1 c hVX hFEX hFX

/-- FPRF follows slot 0, or is kept when its gate `g` is shut. -/
theorem fprf_commitSlots_of_gate {g : Bool} {r : B32 × Signals} (h : x0.result = if g then none else some r) :
    Fpscr.fprf (s.commitSlots .spec d rc x0 x1).fpscr = if g then Fpscr.fprf s.fpscr else fprfOf r.1 := by
  refine (fprf_commitSlots (P := .spec) Layout.powerPC_lawful s d rc x0 x1).trans ?_
  rw [h]
  cases g <;> rfl

end Skeleton

/-! ### The slots of ps_res (R177) -/

section ResSlot

variable {b : B64} (rm : RoundMode) (s : State)

theorem resSlot_result (b : B64) : (resSlot .spec s.fpscr b).result =
    if resShut s b then none else some (resResult .spec b s.rm) := by
  have hgate : gated .powerPC s.fpscr (resFlags b) = resShut s b := by
    simp [gated, SlotFlags.invalid, resFlags, resShut, ve, ze]
  rw [← hgate]
  rfl

/-! The two arms of its result; a signalling NaN takes the first, so the invalid arm is dead. -/

theorem resResult_of_nan (h : isNan64 b = true) : resResult .spec b rm = (makeQuiet (truncBits b), .none) := if_pos h

theorem resResult_of_number (h : isNan64 b = false) : resResult .spec b rm =
    ((recipEst (roundF32 b rm).1 rm).1, (roundF32 b rm).2.union (recipEst (roundF32 b rm).1 rm).2) := by
  have hsnan : (resFlags b).vxsnan = false := by rw [resFlags, isSnan64, h, Bool.false_and]
  rw [resResult, h, if_neg Bool.false_ne_true, hsnan, if_neg Bool.false_ne_true]
  rfl

/-- `ResValue` says of a lane that it is the result. -/
theorem resValue_iff {d : B32} : ResValue b rm d ↔ d = (resResult .spec b rm).1 := by
  cases hnan : isNan64 b with
  | true => simp [ResValue, resResult_of_nan rm hnan, hnan]
  | false => simp [ResValue, resResult_of_number rm hnan, hnan]

theorem resSlot_sig (b : B64) : (resSlot .spec s.fpscr b).sig = resSignals s b := by
  rw [Slot.sig, resSlot_result, resSignals]
  cases resShut s b with
  | true => rfl
  | false =>
    cases hnan : isNan64 b with
    | true => simp [resResult_of_nan _ hnan]
    | false => simp [resResult_of_number _ hnan]

end ResSlot

/-! ### The instruction -/

/-- A one-bit field outside the summary, in the statement's terms. -/
theorem ored_psRes (o : Operands) (s : State) {c : FpscrBit} {v : Bool} (hVX : c ≠ .VX) (hFEX : c ≠ .FEX)
    (hFX : c ≠ .FX)
    (hv : ((resFlags (s.opnd0 o.frB)).bit c || (resFlags (s.opnd1 o.frB)).bit c ||
      ((resSignals s (s.opnd0 o.frB)).union (resSignals s (s.opnd1 o.frB))).bit c) = v) :
    Ored s (psRes .spec o s) c v := by
  rw [← resSlot_sig, ← resSlot_sig] at hv
  exact ored_commitSlots s o.frD o.rc _ _ hVX hFEX hFX hv

/-- The flags that R177 does not name are kept: a slot raises VXSNAN and ZX only. -/
theorem bitKept_psRes (o : Operands) (s : State) :
    ∀ c ∈ [FpscrBit.VXISI, .VXIMZ, .VXIDI, .VXZDZ, .VXSQRT], BitKept s (psRes .spec o s) c := by
  intro c hc
  simp only [List.mem_cons, List.not_mem_nil, or_false] at hc
  obtain rfl | rfl | rfl | rfl | rfl := hc
  all_goals
    refine Ored.bitKept (ored_psRes o s nofun nofun nofun ?_)
    rfl

/-- Settles O39: the value of the estimate by `recipEst_of_ne_zero`, the registers by the two cases of the gates in
`reg_commitSlots_of_gates`, FPRF by the gate of slot 0. -/
theorem resFollowsItsSlots : Obligations.ResFollowsItsSlots := by
  refine ⟨fun x rm y => recipEst_of_ne_zero rm, fun o s => ?_⟩
  have h0 := resSlot_result s (s.opnd0 o.frB)
  have hreg := reg_commitSlots_of_gates (s := s) (P := .spec) h0 (resSlot_result s (s.opnd1 o.frB)) o.frD o.rc
  have hfprf := fprf_commitSlots_of_gate s o.frD o.rc _ (resSlot .spec s.fpscr (s.opnd1 o.frB)) h0
  refine ⟨psRes .spec o s, rfl, fun hshut r => ?shut,
    fun hopen => ⟨_, _, (resValue_iff s.rm).mpr rfl, (resValue_iff s.rm).mpr rfl, ?frD, fun r hr => ?others⟩,
    fun h => hfprf.trans (if_pos h), fun h d hd => ?fprf, ?VXSNAN, ?ZX, ?OX, ?UX, ?XX, bitKept_psRes o s⟩
  case shut => exact (hreg r).trans (by simp [hshut])
  case frD => exact (hreg o.frD).trans (by simp [hopen])
  case others => exact (hreg r).trans (by simp [hr.symm])
  case fprf =>
    rw [(resValue_iff s.rm).mp hd]
    exact hfprf.trans (if_neg (Bool.eq_false_iff.mp h))
  case VXSNAN => exact ored_psRes o s nofun nofun nofun (Bool.or_false _)
  case ZX => exact ored_psRes o s nofun nofun nofun (Bool.or_assoc ..).symm
  case OX | UX | XX => exact ored_psRes o s nofun nofun nofun rfl

end Sys2Proof.Said
end

section
/-!
PROOFS. Words and their instructions (30_encoding.md): decoder and encoder undo each other, and both follow the masks and
matches of R68.
-/

namespace Sys2Proof

/-! ### Decoding a word put together (R65, R68) -/

theorem decode_wordA {xo : BitVec 5} {make : Operands → Instr} (hrow : lookupRow xo formatATable = some make)
    (o : Operands) : decode (wordA xo o) = .ok (make o) := by
  simp only [decode, opcdOf_wordA, xo5Of_wordA, operandsA_wordA, hrow, if_true]

/-- A format X word is tried in format A first, so its XO10 must end in no XO5 of that format. -/
theorem decode_wordX {xo : BitVec 10} {make : Operands → Instr}
    (hA : lookupRow (xo.extractLsb' 0 5) formatATable = none) (hX : lookupRow xo formatXTable = some make)
    (o : Operands) : decode (wordX xo o) = .ok (make { o with frC := 0 }) := by
  simp only [decode, opcdOf_wordX, xo5Of_wordX, xo10Of_wordX, operandsX_wordX, hA, hX, if_true]

/-- Decoding an encoded instruction gives it back; in format X its frC is the 0 that the decoder sets (log 11). -/
theorem decode_encode {i : Instr} (h : i.wellFormed = true) : decode (encode i) = .ok i := by
  cases i with
  | psSum0 o | psSum1 o | psMuls0 o | psMuls1 o | psMadds0 o | psMadds1 o | psDiv o | psSub o | psAdd o | psSel o
  | psRes o | psMul o | psRsqrte o | psMsub o | psMadd o | psNmsub o | psNmadd o => exact decode_wordA rfl o
  | psNeg o | psMr o | psNabs o | psAbs o | psMerge00 o | psMerge01 o | psMerge10 o | psMerge11 o =>
    obtain ⟨d, a, b, c, rc⟩ := o
    obtain rfl : c = 0 := beq_iff_eq.mp h
    exact decode_wordX rfl rfl _

/-! ### A word taken apart is that word -/

theorem wordA_of_word {w : B32} (h : opcdOf w = 4) : wordA (xo5Of w) (operandsA w) = w := by
  apply BitVec.eq_of_getLsbD_eq
  intro i hi
  rw [getLsbD_wordA, ← h]
  simp only [opcdOf, xo5Of, operandsA, BitVec.getLsbD_extractLsb']
  interval_cases i <;> simp

theorem wordX_of_word {w : B32} (h : opcdOf w = 4) : wordX (xo10Of w) (operandsX w) = w := by
  apply BitVec.eq_of_getLsbD_eq
  intro i hi
  rw [getLsbD_wordX, ← h]
  simp only [opcdOf, xo10Of, operandsX, BitVec.getLsbD_extractLsb']
  interval_cases i <;> simp

/-! ### What a word that decodes is (R68) -/

theorem mem_of_lookupRow {n : Nat} {key : BitVec n} {make : Operands → Instr}
    {rows : List (BitVec n × (Operands → Instr))} (h : lookupRow key rows = some make) : (key, make) ∈ rows := by
  induction rows with
  | nil => contradiction
  | cons row rows ih =>
    obtain ⟨k, m⟩ := row
    unfold lookupRow at h
    split at h
    · next hk =>
      obtain rfl := Option.some.inj h
      exact hk ▸ List.mem_cons_self
    · exact List.mem_cons_of_mem _ (ih h)

/-- A word that decodes has primary opcode 4 and is of a row of format A or of format X. -/
theorem decode_ok_cases {w : B32} {i : Instr} (h : decode w = .ok i) : opcdOf w = 4 ∧
    ((∃ make, (xo5Of w, make) ∈ formatATable ∧ i = make (operandsA w)) ∨
      ∃ make, (xo10Of w, make) ∈ formatXTable ∧ i = make (operandsX w)) := by
  unfold decode at h
  split at h
  · next hop =>
    refine ⟨hop, ?_⟩
    split at h
    · next make hA => exact .inl ⟨make, mem_of_lookupRow hA, (Except.ok.inj h).symm⟩
    · split at h
      · next make hX => exact .inr ⟨make, mem_of_lookupRow hX, (Except.ok.inj h).symm⟩
      · contradiction
  · contradiction

/-- The encoder has the rows of format A, and their records are well formed. -/
theorem encode_of_formatATable : ∀ row ∈ formatATable, ∀ o,
    encode (row.2 o) = wordA row.1 o ∧ (row.2 o).wellFormed = true := by
  iterate 17 refine List.forall_mem_cons.mpr ⟨fun _ => ⟨rfl, rfl⟩, ?_⟩
  exact nofun

/-- The encoder has the rows of format X, and their records are well formed with frC 0. -/
theorem encode_of_formatXTable : ∀ row ∈ formatXTable, ∀ o,
    encode (row.2 o) = wordX row.1 o ∧ (o.frC = 0 → (row.2 o).wellFormed = true) := by
  iterate 8 refine List.forall_mem_cons.mpr ⟨fun _ => ⟨rfl, beq_iff_eq.mpr⟩, ?_⟩
  exact nofun

theorem encode_of_decode {w : B32} {i : Instr} (h : decode w = .ok i) : encode i = w ∧ i.wellFormed = true := by
  obtain ⟨hop, ⟨make, hmem, rfl⟩ | ⟨make, hmem, rfl⟩⟩ := decode_ok_cases h
  · obtain ⟨hword, hwf⟩ := encode_of_formatATable _ hmem (operandsA w)
    exact ⟨hword.trans (wordA_of_word hop), hwf⟩
  · obtain ⟨hword, hwf⟩ := encode_of_formatXTable _ hmem (operandsX w)
    exact ⟨hword.trans (wordX_of_word hop), hwf rfl⟩

/-! ### The masks and matches (R68) -/

/-- The mask and the match of the format A rows, the match by XO5. -/
def maskA : B32 := 0xFC00003E
def matchA (xo : BitVec 5) : B32 := 0x10000000 ||| (xo.setWidth 32 <<< 1)

/-- The mask and the match of the format X rows, the match by XO10. -/
def maskX : B32 := 0xFC0007FE
def matchX (xo : BitVec 10) : B32 := 0x10000000 ||| (xo.setWidth 32 <<< 1)

theorem wordA_and_maskA (xo : BitVec 5) (o : Operands) : wordA xo o &&& maskA = matchA xo :=
  Laws.EncodingMatchesRow.wordA_masked xo o

theorem wordX_and_maskX (xo : BitVec 10) (o : Operands) : wordX xo o &&& maskX = matchX xo :=
  Laws.EncodingMatchesRow.wordX_masked xo o

/-- The format A mask keeps the primary opcode and XO5, which therefore are those of any word with this match. -/
theorem and_maskA_eq_iff {w : B32} {xo : BitVec 5} : w &&& maskA = matchA xo ↔ opcdOf w = 4 ∧ xo5Of w = xo := by
  have hop (v : B32) : opcdOf (v &&& maskA) = opcdOf v := BitVec.extractLsb'_and.trans BitVec.and_allOnes
  have hxo (v : B32) : xo5Of (v &&& maskA) = xo5Of v := BitVec.extractLsb'_and.trans BitVec.and_allOnes
  constructor
  · intro h
    rw [← wordA_and_maskA xo ⟨0, 0, 0, 0, false⟩] at h
    rw [← hop w, ← hxo w, h, hop, hxo, opcdOf_wordA, xo5Of_wordA]
    exact ⟨rfl, rfl⟩
  · rintro ⟨h, rfl⟩
    conv_lhs => rw [← wordA_of_word h, wordA_and_maskA]

/-- The format X mask keeps the primary opcode and XO10. -/
theorem and_maskX_eq_iff {w : B32} {xo : BitVec 10} : w &&& maskX = matchX xo ↔ opcdOf w = 4 ∧ xo10Of w = xo := by
  have hop (v : B32) : opcdOf (v &&& maskX) = opcdOf v := BitVec.extractLsb'_and.trans BitVec.and_allOnes
  have hxo (v : B32) : xo10Of (v &&& maskX) = xo10Of v := BitVec.extractLsb'_and.trans BitVec.and_allOnes
  constructor
  · intro h
    rw [← wordX_and_maskX xo ⟨0, 0, 0, 0, false⟩] at h
    rw [← hop w, ← hxo w, h, hop, hxo, opcdOf_wordX, xo10Of_wordX]
    exact ⟨rfl, rfl⟩
  · rintro ⟨h, rfl⟩
    conv_lhs => rw [← wordX_of_word h, wordX_and_maskX]

/-- A row of format A: its mask and match are those of an XO5, under which the decoder finds the row's instruction. -/
structure OpcodeRow.IsFormatA (row : OpcodeRow) (xo : BitVec 5) : Prop where
  mask    : row.mask = maskA
  pattern : row.pattern = matchA xo
  lookup  : lookupRow xo formatATable = some row.make

/-- A row of format X, by its XO10; format A, which the decoder tries first, has no row for its low half. -/
structure OpcodeRow.IsFormatX (row : OpcodeRow) (xo : BitVec 10) : Prop where
  mask     : row.mask = maskX
  pattern  : row.pattern = matchX xo
  formatA  : lookupRow (xo.extractLsb' 0 5) formatATable = none
  lookup   : lookupRow xo formatXTable = some row.make

/-- The extended opcode of a row can be read off its match. -/
theorem opcodeTable_formats : ∀ row ∈ opcodeTable,
    row.IsFormatA (xo5Of row.pattern) ∨ row.IsFormatX (xo10Of row.pattern) := by
  iterate 17 refine List.forall_mem_cons.mpr ⟨.inl ⟨rfl, rfl, rfl⟩, ?_⟩
  iterate 8 refine List.forall_mem_cons.mpr ⟨.inr ⟨rfl, rfl, rfl, rfl⟩, ?_⟩
  exact nofun

theorem OpcodeRow.IsFormatA.decode_iff {row : OpcodeRow} {xo : BitVec 5} (h : row.IsFormatA xo) (w : B32) :
    (∃ o, decode w = .ok (row.make o)) ↔ w &&& row.mask = row.pattern := by
  rw [h.mask, h.pattern, and_maskA_eq_iff]
  constructor
  · rintro ⟨o, ho⟩
    obtain ⟨hword, -⟩ := encode_of_formatATable _ (mem_of_lookupRow h.lookup) o
    rw [← (encode_of_decode ho).1, hword]
    exact ⟨opcdOf_wordA .., xo5Of_wordA ..⟩
  · rintro ⟨hop, rfl⟩
    exact ⟨_, wordA_of_word hop ▸ decode_wordA h.lookup _⟩

theorem OpcodeRow.IsFormatX.decode_iff {row : OpcodeRow} {xo : BitVec 10} (h : row.IsFormatX xo) (w : B32) :
    (∃ o, decode w = .ok (row.make o)) ↔ w &&& row.mask = row.pattern := by
  rw [h.mask, h.pattern, and_maskX_eq_iff]
  constructor
  · rintro ⟨o, ho⟩
    obtain ⟨hword, -⟩ := encode_of_formatXTable _ (mem_of_lookupRow h.lookup) o
    rw [← (encode_of_decode ho).1, hword]
    exact ⟨opcdOf_wordX .., xo10Of_wordX ..⟩
  · rintro ⟨hop, rfl⟩
    exact ⟨_, wordX_of_word hop ▸ decode_wordX h.formatA h.lookup _⟩

theorem decode_row_iff {row : OpcodeRow} (hrow : row ∈ opcodeTable) (w : B32) :
    (∃ o, decode w = .ok (row.make o)) ↔ w &&& row.mask = row.pattern := by
  obtain h | h := opcodeTable_formats row hrow
  · exact h.decode_iff w
  · exact h.decode_iff w

/-- The opcode table has the decoder's rows, those of format A first. -/
theorem opcodeTable_map_make :
    opcodeTable.map OpcodeRow.make = formatATable.map Prod.snd ++ formatXTable.map Prod.snd := rfl

/-- A word that decodes matches a row of the opcode table. -/
theorem exists_row_of_decode {w : B32} {i : Instr} (h : decode w = .ok i) :
    ∃ row ∈ opcodeTable, w &&& row.mask = row.pattern := by
  obtain ⟨make, hmake, o, rfl⟩ : ∃ make ∈ opcodeTable.map OpcodeRow.make, ∃ o, i = make o := by
    rw [opcodeTable_map_make]
    obtain ⟨-, ⟨make, hmem, hi⟩ | ⟨make, hmem, hi⟩⟩ := decode_ok_cases h
    · exact ⟨make, List.mem_append_left _ (List.mem_map_of_mem hmem), _, hi⟩
    · exact ⟨make, List.mem_append_right _ (List.mem_map_of_mem hmem), _, hi⟩
  obtain ⟨row, hrow, rfl⟩ := List.mem_map.mp hmake
  exact ⟨row, hrow, (decode_row_iff hrow w).mp ⟨o, h⟩⟩

/-! ### The statements -/

/-- Settles O1, by `decode_encode`. -/
theorem decodeOfEncodeIsTheInstruction : Obligations.DecodeOfEncodeIsTheInstruction :=
  fun _ h => decode_encode h

/-- Settles O2, by `encode_of_decode`. -/
theorem encodeOfDecodeIsTheWord : Obligations.EncodeOfDecodeIsTheWord :=
  fun _ _ h => encode_of_decode h

/-- Settles O3, by `decode_row_iff`. -/
theorem decodeFollowsMaskAndMatch : Obligations.DecodeFollowsMaskAndMatch :=
  fun _ hrow w => decode_row_iff hrow w

/-- Settles O4: a word that matches two rows makes their matches agree under both masks, which in the table only those of
one mnemonic do. -/
theorem noWordMatchesTwoRows : Obligations.NoWordMatchesTwoRows := by
  have table : ∀ row ∈ opcodeTable, ∀ row' ∈ opcodeTable,
      row.pattern &&& row'.mask = row'.pattern &&& row.mask → row.mnemonic = row'.mnemonic := by decide +kernel
  intro w row hrow row' hrow' h h'
  refine table row hrow row' hrow' ?_
  rw [← h, ← h', BitVec.and_assoc, BitVec.and_assoc, BitVec.and_comm row.mask]

/-- Settles O7, word by word. -/
theorem specWordsDecode : Obligations.SpecWordsDecode :=
  ⟨rfl, rfl, rfl, rfl, rfl, rfl, rfl, rfl, rfl, rfl⟩

end Sys2Proof

namespace Sys2Proof.Machine

/-! ### The step on its word -/

theorem step_of_idle {s : State} (hs : s.program = []) : step s = .next s := by
  simp only [step, runNext, hs]

theorem step_of_decode_error {s : State} {word : B32} {rest : List B32} {e : DecodeError}
    (hs : s.program = word :: rest) (he : decode word = .error e) : step s = .refused (.undefinedEncoding word e) := by
  simp only [step, runNext, hs, runWord, he]

end Sys2Proof.Machine

namespace Sys2Proof.Said

open Sys2Proof.Machine

/-- Settles O5: by `exists_row_of_decode` the decoder cannot answer an instruction. -/
theorem unmatchedWordIsRefused : Obligations.UnmatchedWordIsRefused := by
  intro s w rest hs hrows
  cases hw : decode w with
  | ok i =>
    obtain ⟨row, hrow, hmatch⟩ := exists_row_of_decode hw
    exact absurd hmatch (hrows row hrow)
  | error why => exact ⟨why, rfl, step_of_decode_error hs hw⟩

/-- Settles O9, by `step_of_decode`. -/
theorem stepRunsTheDecodedInstruction : Obligations.StepRunsTheDecodedInstruction :=
  fun _ _ _ _ hs hi => step_of_decode hs hi

/-- Settles O10, by `step_of_idle`. -/
theorem idleStepHoldsTheState : Obligations.IdleStepHoldsTheState :=
  fun _ hs => step_of_idle hs

/-- Settles O13: the first word decodes, and its instruction completes and leaves the list of the others alone. -/
theorem decodingProgramStepsOn : Obligations.DecodingProgramStepsOn := by
  intro s hdecodes
  cases hs : s.program with
  | nil => exact ⟨s, step_of_idle hs, hs, hdecodes⟩
  | cons word rest =>
    obtain ⟨i, hi⟩ := hdecodes word (hs ▸ List.mem_cons_self)
    obtain ⟨t, ht, hprogram⟩ := exec_completes i (s.withProgram rest)
    refine ⟨t, (step_of_decode hs hi).trans ht, hprogram, fun w hw => hdecodes w ?_⟩
    rw [hprogram] at hw
    exact hs ▸ List.mem_cons_of_mem _ hw

end Sys2Proof.Said
end

section
/-!
PROOFS. The lane-0 invariant (10_state.md R24): what an instruction leaves in a lane 0, and that steps and lawful actions
of the environment keep the invariant.
-/

namespace Sys2Proof.Machine

/-! ### What a move, a merge and a select write to lane 0 -/

/-- Bit truncation keeps the exponent field of a NaN. -/
theorem exp32_truncBits_of_nan {v : B64} (h : isNan64 v = true) : exp32 (truncBits v) = 0xFF := by
  simp [truncBits, (isNan64_iff_fields.mp h).1]

theorem isNan64_of_isSnan64 {v : B64} (h : isSnan64 v = true) : isNan64 v = true := (Bool.and_eq_true_iff.mp h).1

/-- A sign operation leaves a signalling NaN one, and then the two widenings R89 and R91 agree. -/
theorem isExtended_moveGeneric {sop : B32 → B32} (hsop : ∀ w, exp32 (sop w) = exp32 w) (o : Operands) (s : State) :
    IsExtended ((moveGeneric .spec sop o s).ps0 o.frD) := by
  rw [ps0_moveGeneric]
  split
  · next h =>
    rw [narrowLane0_of_snan _ _ h]
    exact ⟨_, (extendFloat_of_special ((hsop _).trans (exp32_truncBits_of_nan (isNan64_of_isSnan64 h)))).symm⟩
  · exact ⟨_, rfl⟩

theorem ps0_psSel (o : Operands) (s : State) : (psSel o s).ps0 o.frD =
    if geZero64 (s.ps0 o.frA) then s.ps0 o.frC else s.ps0 o.frB := by
  rw [psSel, ps0_mirror, ps0_writeReg_same]

/-! ### What an instruction leaves in the destination's lane 0 -/

/-- An instruction leaves the destination's lane 0, copies a lane 0 there, if it is ps_sel, or writes an extension. -/
theorem exec_ps0_cases {i : Instr} {s t : State} (h : exec i s = .next t) :
    t.ps0 i.operands.frD = s.ps0 i.operands.frD ∨ IsExtended (t.ps0 i.operands.frD) ∨
      (∃ o, i = .psSel o) ∧ ∃ r, t.ps0 i.operands.frD = s.ps0 r := by
  have hmove : ∀ sop, Said.moveOp i = some sop → IsExtended (t.ps0 i.operands.frD) := by
    intro sop hop
    obtain ⟨hexec, hsop⟩ := Said.exec_of_moveOp hop s
    obtain rfl := Host.Outcome.next.inj (h.symm.trans hexec)
    exact isExtended_moveGeneric hsop i.operands s
  cases hr : i.runsEngine with
  | true =>
    obtain ⟨x, fs, v, sig, he, hx, -⟩ := exec_engine i s hr
    obtain rfl := Host.Outcome.next.inj (h.symm.trans he)
    rw [ps0_eq, reg_engineEffect]
    cases x with
    | none => exact .inl rfl
    | some y => exact .inr (.inl (by simpa using hx y rfl))
  | false =>
    cases i with
    | psSel o =>
      obtain rfl := Host.Outcome.next.inj h
      refine .inr (.inr ⟨⟨o, rfl⟩, ?_⟩)
      rw [Instr.operands, ps0_psSel]
      split <;> exact ⟨_, rfl⟩
    | psNeg o | psMr o | psNabs o | psAbs o => exact .inr (.inl (hmove _ rfl))
    | psMerge00 o | psMerge01 o | psMerge10 o | psMerge11 o =>
      obtain rfl := Host.Outcome.next.inj h
      exact .inr (.inl ⟨_, ps0_mergeGeneric ..⟩)
    | _ => contradiction

/-! ### The invariant -/

theorem exec_keeps_lane0Inv {i : Instr} {s t : State} (hs : Lane0Inv s) (h : exec i s = .next t) : Lane0Inv t := by
  obtain ⟨hothers, -⟩ := Said.onlyTheDestinationChanges i s t h
  intro r
  by_cases hr : r = i.operands.frD
  · subst hr
    obtain hkept | hext | ⟨-, r, hcopy⟩ := exec_ps0_cases h
    · exact hkept ▸ hs _
    · exact hext
    · exact hcopy ▸ hs r
  · rw [ps0_eq, hothers r hr]
    exact hs r

theorem step_keeps_lane0Inv {s t : State} (hs : Lane0Inv s) (h : step s = .next t) : Lane0Inv t := by
  obtain ⟨-, rfl⟩ | ⟨word, rest, i, -, -, hexec⟩ := step_next_cases h
  · exact hs
  · exact exec_keeps_lane0Inv (s := s.withProgram rest) hs hexec

theorem lane0Inv_reset : Lane0Inv State.reset := fun i => ⟨0, by rw [ps0_eq, reset_reg]; decide⟩

/-- Writing a register keeps the invariant when the lane 0 written is an extension. -/
theorem writeReg_keeps_lane0Inv {s : State} (hs : Lane0Inv s) (i : RegIdx) {x : Fpr} (hx : IsExtended x.ps0) :
    Lane0Inv (s.writeReg i x) := by
  intro j
  rw [ps0_eq, reg_writeReg]
  split
  · exact hx
  · exact hs j

/-- Of the actions of the environment a load of lane 0 alone puts a new value in one. -/
theorem environment_keeps_lane0Inv {s : State} {a : EnvAction} (ha : KeepsLane0 a) (hs : Lane0Inv s) :
    Lane0Inv (environmentOver .reset a s) := by
  cases a with
  | loadPs0 i v => exact writeReg_keeps_lane0Inv hs i (x := { s.reg i with ps0 := v }) ha
  | loadPs1 i v => exact writeReg_keeps_lane0Inv hs i (x := { s.reg i with ps1 := v }) (hs i)
  | writeFpscr _ | writeCr1 _ | supply _ | stopCalling => exact hs
  | reset => exact lane0Inv_reset

theorem runEvents_keeps_lane0Inv {es : List Event} {s t : State} (hes : LawfulEvents es) (hs : Lane0Inv s)
    (h : runEvents es s = .next t) : Lane0Inv t := by
  induction es generalizing s with
  | nil => exact Host.Outcome.next.inj h ▸ hs
  | cons e es ih =>
    have htail : LawfulEvents es := fun a ha => hes a (List.mem_cons_of_mem _ ha)
    cases e with
    | env a => exact ih htail (environment_keeps_lane0Inv (hes a List.mem_cons_self) hs) h
    | step =>
      simp only [runEvents, runEventsOver] at h
      split at h
      · next u hu => exact ih htail (step_keeps_lane0Inv hs hu) h
      · contradiction
      · contradiction

end Sys2Proof.Machine

namespace Sys2Proof.Said

open Sys2Proof.Machine

/-- Settles O16, by `step_keeps_lane0Inv`: what an instruction writes to a lane 0 is an extension or a lane 0. -/
theorem stepKeepsTheLaneInvariant : Obligations.StepKeepsTheLaneInvariant :=
  fun _ _ hs h => step_keeps_lane0Inv hs h

/-- Settles O17, by `runEvents_keeps_lane0Inv`, an induction on the events. -/
theorem eventsKeepTheLaneInvariant : Obligations.EventsKeepTheLaneInvariant :=
  fun _ _ _ hes hs h => runEvents_keeps_lane0Inv hes hs h

/-- Settles O19, by `exec_ps0_cases`. -/
theorem writtenLaneZeroIsExtended : Obligations.WrittenLaneZeroIsExtended := by
  intro i s t hsel h
  obtain hkept | hext | ⟨⟨o, ho⟩, -⟩ := exec_ps0_cases h
  · exact .inl hkept
  · exact .inr hext
  · exact absurd ho (hsel o)

/-- Settles O15, by `lane0Inv_reset`. -/
theorem resetMeetsTheLaneInvariant : Obligations.ResetMeetsTheLaneInvariant := lane0Inv_reset

end Sys2Proof.Said
end

section
/-!
PROOFS. The FPSCR over one instruction (10_state.md section 3, 48_fpscr_update.md): the control fields, the summary bits
VX, FEX and FX that the engine computes, FPRF, and the mirror of the summary in CR1.
-/

namespace Sys2Proof.Machine

/-! ### The engine's summary bits -/

section Engine

variable {P : Params} (hL : P.layout.Lawful) (old : B32) (fs : List SlotFlags) (v : Option B64) (sig : Signals)
include hL

/-- VX is the formula over the word the engine leaves (R198). -/
theorem vx_engineWord : Fpscr.get (engineWord P old fs v sig) .VX P.layout =
    vxFormula P.layout (engineWord P old fs v sig) :=
  vx_updateFpscr hL ..

/-- FEX is the formula over the word the engine leaves (R199). -/
theorem fex_engineWord : Fpscr.get (engineWord P old fs v sig) .FEX P.layout =
    fexFormula P.layout (engineWord P old fs v sig) :=
  fex_updateFpscr hL ..

/-- FX is what it was, or-ed with a new exception bit in the word the engine leaves (R200). -/
theorem fx_engineWord : Fpscr.get (engineWord P old fs v sig) .FX P.layout =
    (Fpscr.get old .FX P.layout ||
      exceptionBits.any fun c => Fpscr.get (engineWord P old fs v sig) c P.layout && !Fpscr.get old c P.layout) := by
  have hraised : Fpscr.get (v.elim (fs.foldl (raiseFlags P.layout) old)
      (P.updateFprf (fs.foldl (raiseFlags P.layout) old))) .FX P.layout = Fpscr.get old .FX P.layout := by
    have hflags := get_foldl_raiseFlags hL fs old .FX
    rw [show (fs.any fun f => f.bit .FX) = false from List.any_eq_false.mpr fun _ _ => Bool.false_ne_true,
      Bool.or_false] at hflags
    cases v with
    | none => exact hflags
    | some u => exact (get_updateFprf hL _ u .FX).trans hflags
  unfold engineWord
  simp only [get_updateFpscr hL, hraised, exceptionBits, List.any_cons, List.any_nil]

end Engine

/-- FX over an instruction that runs the engine, by the names of the bits. -/
theorem fx_iff_newException {old new : B32}
    (h : Fpscr.get new .FX = (Fpscr.get old .FX || exceptionBits.any fun c => Fpscr.get new c && !Fpscr.get old c)) :
    Fpscr.get new .FX = true ↔
      Fpscr.get old .FX = true ∨ ∃ b ∈ exceptionBits, Fpscr.get new b = true ∧ Fpscr.get old b = false := by
  rw [h]
  simp only [Bool.or_eq_true, List.any_eq_true, Bool.and_eq_true, Bool.not_eq_true']

/-- Inversion of `exec` for the families that run the engine, of the FPSCR alone. -/
theorem exec_fpscr_of_runsEngine {i : Instr} {s t : State} (hr : i.runsEngine = true) (h : exec i s = .next t) :
    ∃ fs v sig, t.fpscr = engineWord .spec s.fpscr fs v sig ∧ ∀ u, v = some u → IsExtended u := by
  obtain ⟨hq, -⟩ | ⟨-, x, fs, v, sig, rfl, -, hv⟩ := exec_next_cases h
  · exact absurd (hq.symm.trans hr) Bool.false_ne_true
  · exact ⟨fs, v, sig, engineEffect_fpscr .., hv⟩

/-! ### RN and FPRF over an instruction -/

theorem exec_rn {i : Instr} {s t : State} (h : exec i s = .next t) : Fpscr.rn t.fpscr = Fpscr.rn s.fpscr := by
  cases hr : i.runsEngine with
  | false => rw [Said.moveMergeSelectLeaveTheFpscr i s t hr h]
  | true =>
    obtain ⟨fs, v, sig, ht, -⟩ := exec_fpscr_of_runsEngine hr h
    rw [ht]
    exact rn_engineWord (P := .spec) Layout.powerPC_lawful s.fpscr fs v sig

/-- FPRF is kept or is the class code of an extension. -/
theorem exec_fprf {i : Instr} {s t : State} (h : exec i s = .next t) :
    Fpscr.fprf t.fpscr = Fpscr.fprf s.fpscr ∨ ∃ x, Fpscr.fprf t.fpscr = (class64 (extendFloat x)).code := by
  cases hr : i.runsEngine with
  | false => exact .inl (by rw [Said.moveMergeSelectLeaveTheFpscr i s t hr h])
  | true =>
    obtain ⟨fs, v, sig, ht, hv⟩ := exec_fpscr_of_runsEngine hr h
    have hfprf := fprf_engineWord (P := .spec) Layout.powerPC_lawful s.fpscr fs v sig
    rw [ht]
    cases v with
    | none => exact .inl hfprf
    | some u =>
      obtain ⟨x, rfl⟩ := hv u rfl
      exact .inr ⟨x, hfprf⟩

/-- The class of a pattern is denormal only with exponent field 0 and a fraction. -/
theorem class64_denormal {v : B64} (h : class64 v = .negDenormal ∨ class64 v = .posDenormal) :
    exp64 v = 0 ∧ isZero64 v = false := by
  unfold class64 at h
  split_ifs at h <;> simp_all

/-- A widened binary32 is no binary64 denormal: a subnormal becomes a normal number (R89). -/
theorem Widened.class64_ne_denormal {x : B32} {v : B64} (h : Widened x v) :
    class64 v ≠ .negDenormal ∧ class64 v ≠ .posDenormal := by
  rw [← not_or]
  intro hden
  obtain ⟨hexp, hzero⟩ := class64_denormal hden
  cases h with
  | special he => simp at hexp
  | normal hpos hlt e he =>
    rw [exp64_pack64] at hexp
    simp [hexp] at he
  | zero he hf => simp [isZero64] at hzero
  | subnormal he hf k hk e hke f hkf =>
    rw [exp64_pack64] at hexp
    simp [hexp] at hke

/-- The two codes of R204 for denormals are those of no other class. -/
theorem code_of_not_denormal {c : FpClass} (hneg : c ≠ .negDenormal) (hpos : c ≠ .posDenormal) :
    c.code ≠ 0x14 ∧ c.code ≠ 0x18 := by
  cases c with
  | negDenormal => contradiction
  | posDenormal => contradiction
  | _ => decide

/-! ### CR1 -/

/-- The record mirror is an instruction's last action (R205). -/
theorem exec_cr1 {i : Instr} {s t : State} (h : exec i s = .next t) :
    t.cr1 = if i.operands.rc then Fpscr.rc1 t.fpscr else s.cr1 := by
  obtain ⟨-, y, rfl⟩ | ⟨-, x, fs, v, sig, rfl, -, -⟩ := exec_next_cases h
  · rw [mirror_cr1, mirror_fpscr, writeReg_cr1]
  · rw [engineEffect_cr1, engineEffect_fpscr]

/-- In the spec's layout the four bits that CR1 takes are FX, FEX, VX, OX, the first the most significant (R35). -/
theorem getLsbD_rc1 (w : B32) : (Fpscr.rc1 w).getLsbD 3 = Fpscr.get w .FX ∧ (Fpscr.rc1 w).getLsbD 2 = Fpscr.get w .FEX ∧
    (Fpscr.rc1 w).getLsbD 1 = Fpscr.get w .VX ∧ (Fpscr.rc1 w).getLsbD 0 = Fpscr.get w .OX := by
  simp [Fpscr.rc1, Fpscr.get, Layout.powerPC, FpscrBit.pos]

end Sys2Proof.Machine

namespace Sys2Proof.Said

open Sys2Proof.Machine

/-- Settles O22, by `vx_engineWord` and `fex_engineWord`. -/
theorem summaryBitsAreRecomputed : Obligations.SummaryBitsAreRecomputed := by
  intro i s t hr h
  obtain ⟨fs, v, sig, ht, -⟩ := exec_fpscr_of_runsEngine hr h
  rw [ht]
  exact ⟨vx_engineWord (P := .spec) Layout.powerPC_lawful .., fex_engineWord (P := .spec) Layout.powerPC_lawful ..⟩

/-- Settles O23, by `fx_engineWord`. -/
theorem fxRecordsANewException : Obligations.FxRecordsANewException := by
  intro i s t hr h
  obtain ⟨fs, v, sig, ht, -⟩ := exec_fpscr_of_runsEngine hr h
  rw [ht]
  exact fx_iff_newException (fx_engineWord (P := .spec) Layout.powerPC_lawful ..)

/-- Settles O21: none of the nine bits is a flag of a slot or a signal (`exec_get_kept`), and RN is `exec_rn`. -/
theorem controlFieldsAreNeverWritten : Obligations.ControlFieldsAreNeverWritten := by
  intro i s t h
  refine ⟨fun b hb => ?_, exec_rn h⟩
  simp only [List.mem_cons, List.not_mem_nil, or_false] at hb
  obtain rfl | rfl | rfl | rfl | rfl | rfl | rfl | rfl | rfl := hb <;>
    exact exec_get_kept h nofun nofun nofun (fun _ => rfl) (fun _ => rfl)

/-- Settles O29: FPRF is kept, or is the class of a widened binary32, which is no denormal. -/
theorem denormalClassIsNeverReported : Obligations.DenormalClassIsNeverReported := by
  intro i s t h
  obtain hkept | ⟨x, hx⟩ := exec_fprf h
  · exact .inl hkept
  · obtain ⟨hneg, hpos⟩ := (widened_extendFloat x).class64_ne_denormal
    exact .inr (hx ▸ code_of_not_denormal hneg hpos)

/-- Settles O25, by `exec_cr1` and `getLsbD_rc1`. -/
theorem recordBitMirrorsTheSummary : Obligations.RecordBitMirrorsTheSummary := by
  intro i s t h
  rw [exec_cr1 h]
  refine ⟨fun hrc => ?_, fun hrc => ?_⟩
  · simp [hrc]
  · rw [hrc, if_pos rfl]
    exact getLsbD_rc1 t.fpscr

end Sys2Proof.Said
end

section
/-!
PROOFS. What an instruction's result depends on (48_fpscr_update.md section 4, 60_exceptions.md R222): the record bit
reaches CR1 alone, and of the FPSCR only VE, ZE and RN reach a register.
-/

namespace Sys2Proof.Machine

/-! ### The record bit -/

/-- The same instruction with the record bit `rc`. -/
def withRc (i : Instr) (rc : Bool) : Instr := Said.withOperands i { i.operands with rc := rc }

theorem withRc_self (i : Instr) : withRc i i.operands.rc = i := by
  cases i <;> rfl

/-- With the record bit set or clear an instruction ends as it does with the bit clear, mirrored: the mirror is its last
action (R205), and nothing before it reads the bit. -/
theorem exec_withRc (i : Instr) (s : State) : ∃ u : State, ∀ rc, exec (withRc i rc) s = .next (u.mirror rc) := by
  obtain ⟨u, hu, -⟩ := exec_completes (withRc i false) s
  refine ⟨u, fun rc => ?_⟩
  cases i <;> exact Host.Outcome.next.inj hu ▸ rfl

end Sys2Proof.Machine

namespace Sys2Proof.Said

open Sys2Proof.Machine

/-- Settles O26, by `exec_withRc`: the mirror writes CR1 and nothing else. -/
theorem recordBitAffectsOnlyCr1 : Obligations.RecordBitAffectsOnlyCr1 := by
  intro i s rc
  obtain ⟨u, hu⟩ := exec_withRc i s
  have hself := hu i.operands.rc
  rw [withRc_self] at hself
  exact ⟨_, _, hself, hu rc, by simp only [mirror_fpr], by simp only [mirror_fpscr], by simp only [mirror_program]⟩

/-! ### What reaches a register -/

/-- The hypothesis of `Obligations.RegistersDependOnlyOnVeZeRn`: two states that agree on the registers and on VE, ZE and
the rounding mode. -/
structure SameInputs (s s' : State) : Prop where
  fpr : s.fpr = s'.fpr
  ve  : ve s = ve s'
  ze  : ze s = ze s'
  rm  : s.rm = s'.rm

namespace SameInputs

variable {s s' : State}

theorem reg_eq (h : SameInputs s s') : s.reg = s'.reg := by
  funext i
  rw [State.reg, State.reg, h.fpr]

/-! A slot's gate reads VE and ZE, and its result the rounding mode. -/

theorem gated_eq (h : SameInputs s s') (f : SlotFlags) : gated .powerPC s.fpscr f = gated .powerPC s'.fpscr f := by
  unfold gated
  rw [show Fpscr.get s.fpscr .VE = Fpscr.get s'.fpscr .VE from h.ve,
    show Fpscr.get s.fpscr .ZE = Fpscr.get s'.fpscr .ZE from h.ze]

/-- The four slots are made of their flags and of a result under the rounding mode. -/
theorem slotMake_eq (h : SameInputs s s') (f : SlotFlags) (result : RoundMode → B32 × Signals) :
    Slot.make .spec s.fpscr f (result s.rm) = Slot.make .spec s'.fpscr f (result s'.rm) := by
  unfold Slot.make
  rw [h.rm, show gated Params.spec.layout s.fpscr f = _ from h.gated_eq f]
  rfl

theorem arithSlot_eq (h : SameInputs s s') (op : ArithOp) (a b : B64) :
    arithSlot .spec s.fpscr op a b = arithSlot .spec s'.fpscr op a b := h.slotMake_eq _ (arithResult .spec op a b)

theorem fmaSlot_eq (h : SameInputs s s') (subtract negate : Bool) (a b c : B64) :
    fmaSlot .spec s.fpscr subtract negate a b c = fmaSlot .spec s'.fpscr subtract negate a b c :=
  h.slotMake_eq _ (fmaResult .spec subtract negate a b c)

theorem resSlot_eq (h : SameInputs s s') (b : B64) : resSlot .spec s.fpscr b = resSlot .spec s'.fpscr b :=
  h.slotMake_eq _ (resResult .spec b)

theorem rsqrtSlot_eq (h : SameInputs s s') (b : B64) : rsqrtSlot .spec s.fpscr b = rsqrtSlot .spec s'.fpscr b :=
  h.slotMake_eq _ (rsqrtResult .spec b)

/-! The registers after each family. -/

theorem maybeWrite_fpr (h : SameInputs s s') (d : RegIdx) (x : Option Fpr) :
    (s.maybeWrite d x).fpr = (s'.maybeWrite d x).fpr := by
  cases x with
  | none => exact h.fpr
  | some y => exact writeReg_fpr_congr h.fpr d y

theorem commitSlots_fpr (h : SameInputs s s') (d : RegIdx) (rc : Bool) (x0 x1 : Slot) :
    (s.commitSlots .spec d rc x0 x1).fpr = (s'.commitSlots .spec d rc x0 x1).fpr := by
  simp only [commitSlots_eq, mirror_fpr, setFpscr_fpr]
  exact h.maybeWrite_fpr d _

theorem psArith_fpr (h : SameInputs s s') (op : ArithOp) (a0 b0 a1 b1 : B64) (o : Operands) :
    (psArith .spec op a0 b0 a1 b1 o s).fpr = (psArith .spec op a0 b0 a1 b1 o s').fpr := by
  unfold psArith
  rw [h.arithSlot_eq, h.arithSlot_eq]
  exact h.commitSlots_fpr ..

theorem psFma_fpr (h : SameInputs s s') (subtract negate : Bool) (c0 c1 : B64) (o : Operands) :
    (psFma .spec subtract negate c0 c1 o s).fpr = (psFma .spec subtract negate c0 c1 o s').fpr := by
  unfold psFma State.opnd0 State.opnd1 State.ps0 State.ps1
  rw [h.reg_eq, h.fmaSlot_eq, h.fmaSlot_eq]
  exact h.commitSlots_fpr ..

theorem psEst_fpr (h : SameInputs s s') {slot : B32 → B64 → Slot} (hslot : ∀ b, slot s.fpscr b = slot s'.fpscr b)
    (o : Operands) : (psEst .spec slot o s).fpr = (psEst .spec slot o s').fpr := by
  unfold psEst State.opnd0 State.opnd1 State.ps0 State.ps1
  rw [h.reg_eq, hslot, hslot]
  exact h.commitSlots_fpr ..

theorem psSum0_fpr (h : SameInputs s s') (o : Operands) : (psSum0 .spec o s).fpr = (psSum0 .spec o s').fpr := by
  simp only [psSum0_eq_sumEffect, sumEffect, EngineEffect, mirror_fpr, setFpscr_fpr, State.opnd0, State.opnd1, State.ps0,
    State.ps1, h.reg_eq, h.arithSlot_eq]
  exact h.maybeWrite_fpr ..

theorem psSum1_fpr (h : SameInputs s s') (o : Operands) : (psSum1 .spec o s).fpr = (psSum1 .spec o s').fpr := by
  simp only [psSum1_eq_sumEffect, sumEffect, EngineEffect, mirror_fpr, setFpscr_fpr, State.opnd0, State.opnd1, State.ps0,
    State.ps1, h.reg_eq, h.arithSlot_eq, h.rm]
  exact h.maybeWrite_fpr ..

theorem mergeGeneric_fpr (h : SameInputs s s') (mv0 mv1 : Bool) (o : Operands) :
    (mergeGeneric .spec mv0 mv1 o s).fpr = (mergeGeneric .spec mv0 mv1 o s').fpr := by
  simp only [mergeGeneric, mergeLane0, mergeLane1, mirror_fpr, State.ps0, State.ps1, h.reg_eq, h.rm]
  exact writeReg_fpr_congr h.fpr ..

theorem psSel_fpr (h : SameInputs s s') (o : Operands) : (psSel o s).fpr = (psSel o s').fpr := by
  simp only [psSel, mirror_fpr, State.ps0, State.ps1, h.reg_eq]
  exact writeReg_fpr_congr h.fpr ..

/-- Every instruction. Once the register files are one term, the operands that the two runs read agree by unfolding, so
each arm is its family's lemma. -/
theorem exec_fpr (h : SameInputs s s') (i : Instr) :
    ∃ t t', exec i s = .next t ∧ exec i s' = .next t' ∧ t.fpr = t'.fpr := by
  obtain ⟨regs, _, _, _⟩ := s
  obtain ⟨_, _, _, _⟩ := s'
  obtain rfl := h.fpr
  cases i with
  | psSum0 o => exact ⟨_, _, rfl, rfl, h.psSum0_fpr o⟩
  | psSum1 o => exact ⟨_, _, rfl, rfl, h.psSum1_fpr o⟩
  | psAdd o | psSub o | psMul o | psDiv o | psMuls0 o | psMuls1 o =>
    exact ⟨_, _, rfl, rfl, h.psArith_fpr _ _ _ _ _ o⟩
  | psMadd o | psMadds0 o | psMadds1 o | psMsub o | psNmadd o | psNmsub o =>
    exact ⟨_, _, rfl, rfl, h.psFma_fpr _ _ _ _ o⟩
  | psRes o => exact ⟨_, _, rfl, rfl, h.psEst_fpr h.resSlot_eq o⟩
  | psRsqrte o => exact ⟨_, _, rfl, rfl, h.psEst_fpr h.rsqrtSlot_eq o⟩
  | psMr o | psNeg o | psAbs o | psNabs o =>
    exact ⟨_, _, rfl, rfl, moveGeneric_fpr_congr .spec _ o h.fpr fun _ => h.rm⟩
  | psMerge00 o | psMerge01 o | psMerge10 o | psMerge11 o => exact ⟨_, _, rfl, rfl, h.mergeGeneric_fpr _ _ o⟩
  | psSel o => exact ⟨_, _, rfl, rfl, h.psSel_fpr o⟩

end SameInputs

/-- Settles O28, by `SameInputs.exec_fpr`: the FPSCR reaches a register through a slot's gate and the rounding mode. -/
theorem registersDependOnlyOnVeZeRn : Obligations.RegistersDependOnlyOnVeZeRn :=
  fun i _ _ hfpr hve hze hrm => SameInputs.exec_fpr ⟨hfpr, hve, hze, hrm⟩ i

end Sys2Proof.Said
end

section
/-!
PROOFS. What the arithmetic and the fused families leave in the FPSCR (42_ps_arith.md R121, R124; 44_ps_fma.md R151, R155):
the flags and the signals of both slots, and FPRF from slot 0.
-/

namespace Sys2Proof.Said

open Sys2Proof.Machine

/-! ### The arithmetic family -/

/-- A division signals `dz` only where the slot raises ZX itself, and no other operation signals it. -/
theorem zeroDivide_of_dz {s : State} {op : ArithOp} {a b : B64} (h : (laneSignals s op a b).dz = true) :
    zeroDivide op a b = true := by
  rw [laneSignals] at h
  split at h
  · contradiction
  · next hcomputed =>
    simp only [Bool.or_eq_true, not_or, Bool.not_eq_true] at hcomputed
    obtain ⟨⟨⟨-, ha⟩, hb⟩, -⟩ := hcomputed
    cases op with
    | add | sub | mul => simp [ArithOp.apply] at h
    | div =>
      obtain ⟨hzb, hza⟩ := div64_dz (by simpa [ArithOp.apply] using h)
      simp [zeroDivide, snan, isSnan64, ha, hb, hza, hzb]

/-- So the signal adds nothing to the flag. -/
theorem zeroDivide_or_dz (s : State) (op : ArithOp) (a b : B64) :
    (zeroDivide op a b || (laneSignals s op a b).dz) = zeroDivide op a b := by
  cases hdz : (laneSignals s op a b).dz with
  | false => exact Bool.or_false _
  | true => rw [zeroDivide_of_dz hdz, Bool.or_true]

section Arith

variable {op : ArithOp} {a0 b0 a1 b1 : B64} (o : Operands) (s : State)

/-- A one-bit field outside the summary, in the statement's terms. -/
theorem ored_psArith {c : FpscrBit} {v : Bool} (hVX : c ≠ .VX) (hFEX : c ≠ .FEX) (hFX : c ≠ .FX)
    (hv : ((arithFlags op a0 b0).bit c || (arithFlags op a1 b1).bit c ||
      ((laneSignals s op a0 b0).union (laneSignals s op a1 b1)).bit c) = v) :
    Ored s (psArith .spec op a0 b0 a1 b1 o s) c v := by
  rw [← arithSlot_sig, ← arithSlot_sig] at hv
  exact ored_commitSlots s o.frD o.rc _ _ hVX hFEX hFX hv

theorem ored_psArith_ZX :
    Ored s (psArith .spec op a0 b0 a1 b1 o s) .ZX (zeroDivide op a0 b0 || zeroDivide op a1 b1) := by
  refine ored_psArith o s nofun nofun nofun ?_
  simp only [arithFlags_eq, SlotFlags.bit, Signals.bit, Signals.union_dz]
  rw [← Bool.or_assoc, Bool.or_right_comm (zeroDivide op a0 b0), zeroDivide_or_dz, Bool.or_assoc, zeroDivide_or_dz]

end Arith

/-- Settles O30: the flags are `arithFlags_eq`, no signal reaches an invalid flag, and the dz signal of a division raises
nothing that the slot does not (`ored_psArith_ZX`). -/
theorem arithmeticRaisesItsFlags : Obligations.ArithmeticRaisesItsFlags := by
  intro i s c hc
  have hored {b : FpscrBit} {v : Bool} := ored_psArith (c := b) (v := v) (op := c.op) (a0 := c.a0) (b0 := c.b0)
    (a1 := c.a1) (b1 := c.b1) i.operands s
  simp only [arithFlags_eq] at hored
  refine ⟨_, exec_of_arith hc, ?VXSNAN, ?VXISI, ?VXIMZ, ?VXIDI, ?VXZDZ, ored_psArith_ZX i.operands s, ?VXSQRT⟩
  case VXSNAN | VXISI | VXIMZ | VXIDI | VXZDZ => exact hored nofun nofun nofun (Bool.or_false _)
  case VXSQRT => exact Ored.bitKept (hored nofun nofun nofun rfl)

/-- Settles O32, by the gate of slot 0. -/
theorem arithmeticFprfFollowsSlotZero : Obligations.ArithmeticFprfFollowsSlotZero := by
  intro i s c hc
  have hfprf := fprf_commitSlots_of_gate s i.operands.frD i.operands.rc _ (arithSlot .spec s.fpscr c.op c.a1 c.b1)
    (arithSlot_result c.op c.a0 c.b0 s)
  refine ⟨_, exec_of_arith hc, fun hshut => hfprf.trans (if_pos hshut), fun hopen d hd => ?_⟩
  rw [(laneValue_iff s.rm).mp hd]
  exact hfprf.trans (if_neg (Bool.eq_false_iff.mp hopen))

/-- Settles O33: no flag of a slot reaches the three bits, so what they are or-ed with are the signals. -/
theorem arithmeticAccumulatesSignals : Obligations.ArithmeticAccumulatesSignals :=
  fun i s _ hc => ⟨_, exec_of_arith hc, ored_psArith i.operands s nofun nofun nofun rfl,
    ored_psArith i.operands s nofun nofun nofun rfl, ored_psArith i.operands s nofun nofun nofun rfl⟩

/-! ### The fused multiply-add family -/

section FmaSignals

variable {subtract negate : Bool} {a b c : B64} (s : State)

/-- The signals of a slot, in the statement's terms (R152, R153). -/
theorem fmaSlot_sig : (fmaSlot .spec s.fpscr subtract negate a b c).sig = fmaSignals s subtract a b c := by
  rw [Slot.sig, fmaSlot_result, fmaSignals]
  cases fmaShut s subtract a b c with
  | true => rfl
  | false =>
    cases ha : isNan64 a with
    | true => simp [fmaResult_of_nanA _ ha]
    | false =>
      cases hb : isNan64 b with
      | true => simp [fmaResult_of_nanB _ ha hb]
      | false =>
        cases hc : isNan64 c with
        | true => simp [fmaResult_of_nanC _ ha hb hc]
        | false =>
          cases hinv : fmaIsi subtract a b c || fmaImz a c <;>
            simp [fmaResult_of_numbers _ ha hb hc, hinv]

/-- The fused operation signals no division by zero. -/
theorem fmaSignals_dz : (fmaSignals s subtract a b c).dz = false := by
  rw [fmaSignals]
  split
  · rfl
  · simp [fused]

end FmaSignals

/-- A one-bit field outside the summary after an instruction of the family. -/
theorem ored_fma {s : State} {c : FmaSlots} (d : RegIdx) (rc : Bool) {k : FpscrBit} {v : Bool} (hVX : k ≠ .VX)
    (hFEX : k ≠ .FEX) (hFX : k ≠ .FX)
    (hv : ((fmaFlags c.subtract c.a0 c.b0 c.c0).bit k || (fmaFlags c.subtract c.a1 c.b1 c.c1).bit k ||
      ((fmaSignals s c.subtract c.a0 c.b0 c.c0).union (fmaSignals s c.subtract c.a1 c.b1 c.c1)).bit k) = v) :
    Ored s (s.commitSlots .spec d rc (fmaSlot .spec s.fpscr c.subtract c.negate c.a0 c.b0 c.c0)
      (fmaSlot .spec s.fpscr c.subtract c.negate c.a1 c.b1 c.c1)) k v := by
  rw [← fmaSlot_sig (negate := c.negate), ← fmaSlot_sig (negate := c.negate)] at hv
  exact ored_commitSlots s d rc _ _ hVX hFEX hFX hv

/-- Settles O36: the flags are `fmaFlags_eq`, no signal reaches an invalid flag, and no slot raises or signals ZX. -/
theorem fusedMultiplyAddRaisesItsFlags : Obligations.FusedMultiplyAddRaisesItsFlags := by
  intro i s c hc
  have hored {k : FpscrBit} {v : Bool} := ored_fma (s := s) (c := c) (k := k) (v := v) i.operands.frD i.operands.rc
  simp only [fmaFlags_eq] at hored
  refine ⟨_, exec_of_fma hc, ?VXSNAN, ?VXISI, ?VXIMZ, fun k hk => ?kept⟩
  case VXSNAN | VXISI | VXIMZ => exact hored nofun nofun nofun (Bool.or_false _)
  case kept =>
    simp only [List.mem_cons, List.not_mem_nil, or_false] at hk
    obtain rfl | rfl | rfl | rfl := hk
    all_goals
      refine Ored.bitKept (hored nofun nofun nofun ?_)
      simp [SlotFlags.bit, Signals.bit, fmaSignals_dz]

/-- Settles O38: FPRF by the gate of slot 0, the three bits by `ored_fma`, as no flag of a slot reaches them. -/
theorem fusedMultiplyAddReportsItsResult : Obligations.FusedMultiplyAddReportsItsResult := by
  intro i s c hc
  have hfprf := fprf_commitSlots_of_gate s i.operands.frD i.operands.rc _
    (fmaSlot .spec s.fpscr c.subtract c.negate c.a1 c.b1 c.c1) (fmaSlot_result c.subtract c.negate c.a0 c.b0 c.c0 s)
  refine ⟨_, exec_of_fma hc, fun hshut => hfprf.trans (if_pos hshut), fun hopen d hd => ?fprf, ?OX, ?UX, ?XX⟩
  case fprf =>
    rw [(fmaValue_iff s.rm).mp hd]
    exact hfprf.trans (if_neg (Bool.eq_false_iff.mp hopen))
  case OX | UX | XX => exact ored_fma _ _ nofun nofun nofun rfl

end Sys2Proof.Said
end

section
/-!
PROOFS. Select (47_ps_select.md R190), the payload of a moved signalling NaN (41_ps_move.md R117), and the operands on
which the estimates are fixed (46_ps_estimate.md R176).
-/

namespace Sys2Proof.Machine

/-! ### ps_sel by the class of A's lane (R86, R190) -/

theorem geZero64_of_isNan64 {v : B64} (h : isNan64 v = true) : geZero64 v = false := by
  rw [geZero64, h, Bool.not_true, Bool.false_and]

theorem geZero64_of_isZero64 {v : B64} (h : isZero64 v = true) : geZero64 v = true := by
  have hnan : isNan64 v = false := Bool.eq_false_iff.mpr fun hn => by simp [isZero64_of_isNan64 hn] at h
  rw [geZero64, hnan, h, Bool.not_false, Bool.true_and, Bool.true_or]

theorem geZero64_of_number {v : B64} (hnan : isNan64 v = false) (hzero : isZero64 v = false) :
    geZero64 v = !sign64 v := by
  rw [geZero64, hnan, hzero, Bool.not_false, Bool.true_and, Bool.false_or]

theorem geZero32_of_isNan32 {v : B32} (h : isNan32 v = true) : geZero32 v = false := by
  rw [geZero32, h, Bool.not_true, Bool.false_and]

theorem geZero32_of_isZero32 {v : B32} (h : isZero32 v = true) : geZero32 v = true := by
  have hnan : isNan32 v = false := by simp [isNan32, (isZero32_iff_fields.mp h).1]
  rw [geZero32, hnan, h, Bool.not_false, Bool.true_and, Bool.true_or]

theorem geZero32_of_number {v : B32} (hnan : isNan32 v = false) (hzero : isZero32 v = false) :
    geZero32 v = !sign32 v := by
  rw [geZero32, hnan, hzero, Bool.not_false, Bool.true_and, Bool.false_or]

theorem ps1_psSel (o : Operands) (s : State) : (psSel o s).ps1 o.frD =
    if geZero32 (s.ps1 o.frA) then s.ps1 o.frC else s.ps1 o.frB := by
  rw [psSel, ps1_mirror, ps1_writeReg_same]

/-! ### A signalling NaN through a move (R111, R117) -/

/-- Two patterns that agree but for the sign. -/
theorem xor_of_same_magnitude {v w : B64} (he : exp64 v = exp64 w) (hf : frac64 v = frac64 w) :
    v ^^^ w = 0 ∨ v ^^^ w = 0x8000000000000000 := by
  by_cases hs : sign64 v = sign64 w
  · exact .inl (ext64 hs he hf ▸ BitVec.xor_self)
  · refine .inr ?_
    have hflip : v = w ^^^ 0x8000000000000000 := by
      refine ext64 ?_ (he.trans (BitVec.extractLsb'_xor.trans BitVec.xor_zero).symm)
        (hf.trans (BitVec.extractLsb'_xor.trans BitVec.xor_zero).symm)
      rw [show sign64 (w ^^^ 0x8000000000000000) = !sign64 w by simp [sign64]]
      exact Bool.eq_not_of_ne hs
    rw [hflip, BitVec.xor_comm w, BitVec.xor_assoc, BitVec.xor_self, BitVec.xor_zero]

/-- A fraction whose low 29 bits are zero is its high bits, widened. -/
theorem widened_fracHigh {v : B64} (h : v.extractLsb' 0 29 = 0) : fracHigh v ++ (0 : BitVec 29) = frac64 v := by
  rw [← h]
  unfold fracHigh frac64
  apply BitVec.eq_of_getLsbD_eq
  intro i hi
  simp only [BitVec.getLsbD_append, BitVec.getLsbD_extractLsb']
  split
  · next h => simp [h, hi]
  · next h => simp [show i - 29 < 23 by omega, show 29 + (i - 29) = i by omega, hi]

theorem truncBits_of_isNan64 {v : B64} (h : isNan64 v = true) : truncBits v = pack32 (sign64 v) 0xFF (fracHigh v) := by
  simp [truncBits, (isNan64_iff_fields.mp h).1]

end Sys2Proof.Machine

namespace Sys2Proof.Said

open Sys2Proof.Machine

/-- Settles O49, lane by lane and by the class of A's lane. -/
theorem selectCopiesRawLanes : Obligations.SelectCopiesRawLanes := by
  intro o s
  refine ⟨psSel o s, rfl, fun h => ?nan0, fun h => ?zero0, fun hnan hzero => ?number0, fun h => ?nan1, fun h => ?zero1,
    fun hnan hzero => ?number1, (onlyTheDestinationChanges (.psSel o) s _ rfl).1, mirror_fpscr ..⟩
  case nan0 => rw [ps0_psSel, geZero64_of_isNan64 h, if_neg Bool.false_ne_true]
  case zero0 => rw [ps0_psSel, geZero64_of_isZero64 h, if_pos rfl]
  case number0 =>
    rw [ps0_psSel, geZero64_of_number hnan hzero]
    cases sign64 (s.ps0 o.frA) <;> rfl
  case nan1 => rw [ps1_psSel, geZero32_of_isNan32 h, if_neg Bool.false_ne_true]
  case zero1 => rw [ps1_psSel, geZero32_of_isZero32 h, if_pos rfl]
  case number1 =>
    rw [ps1_psSel, geZero32_of_number hnan hzero]
    cases sign32 (s.ps1 o.frA) <;> rfl

/-- The sign operations leave the fraction field alone. -/
theorem frac32_of_moveOp {i : Instr} {sop : B32 → B32} (h : moveOp i = some sop) (w : B32) :
    frac32 (sop w) = frac32 w := by
  cases i with
  | psMr o => exact Option.some.inj h ▸ rfl
  | psNeg o => exact Option.some.inj h ▸ BitVec.extractLsb'_xor.trans BitVec.xor_zero
  | psAbs o => exact Option.some.inj h ▸ BitVec.extractLsb'_and.trans BitVec.and_allOnes
  | psNabs o => exact Option.some.inj h ▸ BitVec.extractLsb'_or.trans BitVec.or_zero
  | _ => exact nomatch h

/-- Settles O46: the move's lane 0 has the source's exponent and fraction fields, so it differs in the sign at most. -/
theorem moveKeepsSignallingPayload : Obligations.MoveKeepsSignallingPayload := by
  intro i s sop hsop hsnan hlow
  obtain ⟨hexec, -⟩ := exec_of_moveOp hsop s
  refine ⟨_, hexec, xor_of_same_magnitude ?_ ?_⟩ <;>
    rw [ps0_moveGeneric, if_pos hsnan, narrowLane0_of_snan _ _ hsnan, extendFloatNanBits]
  · rw [exp64_pack64, (isNan64_iff_fields.mp (isNan64_of_isSnan64 hsnan)).1]
  · rw [frac64_pack64, frac32_of_moveOp hsop]
    rw [show Params.spec.truncBits _ = _ from truncBits_of_isNan64 (isNan64_of_isSnan64 hsnan), frac32_pack32,
      widened_fracHigh hlow]

end Sys2Proof.Said

namespace Sys2Proof.Machine

/-! ### Operands on which the estimates are fixed (R176) -/

/-- The parameters with other estimates. -/
abbrev Params.withEstimates (P : Params) (est est' : Estimator) : Params := { P with recipEst := est, rsqrtEst := est' }

/-- A lane's operand that is a NaN, a zero or an infinity. -/
def isSpecial64 (b : B64) : Bool := isNan64 b || isZero64 b || isInf64 b

/-- On a zero and an infinity the estimate sees the zero and the infinity of binary32 with that sign. -/
theorem estimateOf_congr (P : Params) {f f' : Estimator} {b : B64} {rm : RoundMode}
    (hzero : isZero64 b = true → f (pack32 (sign64 b) 0 0) rm = f' (pack32 (sign64 b) 0 0) rm)
    (hinf : isInf64 b = true → f (pack32 (sign64 b) 0xFF 0) rm = f' (pack32 (sign64 b) 0xFF 0) rm)
    (hb : isZero64 b = true ∨ isInf64 b = true) : estimateOf P f b rm = estimateOf P f' b rm := by
  unfold estimateOf Params.roundF32
  obtain h | h := hb
  · simp only [roundF32_of_isZero rm _ h, hzero h]
  · simp only [roundF32_of_isInf rm _ h, hinf h]

section Estimates

variable {P : Params} {est est' : Estimator} (hP : P.Lawful) (hP' : (P.withEstimates est est').Lawful) {b : B64}
include hP hP'

theorem resSlot_withEstimates (hb : isSpecial64 b = true) (w : B32) :
    resSlot (P.withEstimates est est') w b = resSlot P w b := by
  refine congrArg (Slot.make P w (resFlags b)) ?_
  unfold resResult
  split
  · rfl
  · next hnan =>
    split
    · rfl
    · obtain ⟨hpz, hnz, hpi, hni⟩ := hP.recip (Fpscr.rm w P)
      obtain ⟨hpz', hnz', hpi', hni'⟩ := hP'.recip (Fpscr.rm w P)
      refine estimateOf_congr P (fun _ => ?zero) (fun _ => ?inf) (by simpa [isSpecial64, hnan] using hb)
      case zero =>
        cases sign64 b with
        | false => exact hpz'.trans hpz.symm
        | true => exact hnz'.trans hnz.symm
      case inf =>
        cases sign64 b with
        | false => exact hpi'.trans hpi.symm
        | true => exact hni'.trans hni.symm

/-- The reciprocal square root of a negative infinity is invalid, and not the estimate's. -/
theorem rsqrtSlot_withEstimates (hb : isSpecial64 b = true) (w : B32) :
    rsqrtSlot (P.withEstimates est est') w b = rsqrtSlot P w b := by
  refine congrArg (Slot.make P w (rsqrtFlags b)) ?_
  unfold rsqrtResult
  split
  · rfl
  · next hnan =>
    split
    · rfl
    · next hvalid =>
      obtain ⟨hpz, hnz, hpi⟩ := hP.rsqrt (Fpscr.rm w P)
      obtain ⟨hpz', hnz', hpi'⟩ := hP'.rsqrt (Fpscr.rm w P)
      refine estimateOf_congr P (fun _ => ?zero) (fun hinf => ?inf) (by simpa [isSpecial64, hnan] using hb)
      case zero =>
        cases sign64 b with
        | false => exact hpz'.trans hpz.symm
        | true => exact hnz'.trans hnz.symm
      case inf =>
        have hsnan : isSnan64 b = false := by simp [isSnan64, hnan]
        have hsign : sign64 b = false := by simpa [rsqrtFlags, hsnan, isZero64_of_isInf64 hinf] using hvalid
        rw [hsign]
        exact hpi'.trans hpi.symm

end Estimates

/-- The skeleton of the family reads no estimate but through its slots. -/
theorem psEst_withEstimates (P : Params) (est est' : Estimator) {slot slot' : B32 → B64 → Slot} (o : Operands) (s : State)
    (h0 : slot' s.fpscr (s.opnd0 o.frB) = slot s.fpscr (s.opnd0 o.frB))
    (h1 : slot' s.fpscr (s.opnd1 o.frB) = slot s.fpscr (s.opnd1 o.frB)) :
    psEst (P.withEstimates est est') slot' o s = psEst P slot o s := by
  unfold psEst
  rw [h0, h1]
  rfl

end Sys2Proof.Machine

namespace Sys2Proof.Said

open Sys2Proof.Machine

/-- Settles O42: on a NaN a slot asks no estimate, on the other operands a lawful one has no choice. -/
theorem estimateIsOpenOnlyOnFiniteNonzero : Obligations.EstimateIsOpenOnlyOnFiniteNonzero := by
  intro P est est' hP hP' o s h0 h1
  have hw := widened_extendFloat (s.ps1 o.frB)
  have h1' : isSpecial64 (s.opnd1 o.frB) = true := by
    rw [isSpecial64, State.opnd1, hw.isNan, hw.isZero, hw.isInf]
    exact h1
  exact ⟨congrArg _ (psEst_withEstimates P est est' o s (resSlot_withEstimates hP hP' h0 _)
      (resSlot_withEstimates hP hP' h1' _)),
    congrArg _ (psEst_withEstimates P est est' o s (rsqrtSlot_withEstimates hP hP' h0 _)
      (rsqrtSlot_withEstimates hP hP' h1' _))⟩

/-- The reference estimate on a value whose root needs no rounding. -/
theorem rsqrtEst_of_root {x r : B32} {rm : RoundMode} (h : sqrt32 x rm Config.tininess = (r, .none)) :
    rsqrtEst x rm = ((div32 0x3F800000 r rm Config.tininess).1,
      Signals.none.union (div32 0x3F800000 r rm Config.tininess).2) := by
  rw [rsqrtEst, rsqrtReference, h]

/-- Settles O41: zeros and infinities take the arms of R99 and R100 that round nothing, whatever the mode. -/
theorem estimatesHaveTheFixedValues : Obligations.EstimatesHaveTheFixedValues := fun _ =>
  ⟨rfl, rfl, rfl, rfl, rsqrtEst_of_root (r := 0x00000000) rfl, rsqrtEst_of_root (r := 0x80000000) rfl,
    rsqrtEst_of_root (r := 0x7F800000) rfl⟩

end Sys2Proof.Said
end

section
/-!
PROOFS. Exact values (40_fp_value_model.md): widening keeps them (R89), and the exponent and the multiple that rounding
starts from are those of the real value (R92, R93).
-/

namespace Sys2Proof.Machine

/-! ### Exact values in a common unit (R89) -/

/-- An exact value counted in units of `2^(-n)`. -/
theorem Exact.scaled (X : Exact) {n : ℤ} (h : 0 ≤ X.e + n) : ((X.m * 2 ^ (X.e + n).toNat : ℤ) : ℝ) = X.real * 2 ^ n := by
  rw [Exact.real, mul_assoc, ← zpow_add₀ (by norm_num), ← Int.toNat_of_nonneg h, zpow_natCast]
  push_cast
  rfl

/-- The unit of a finite pattern is at least the least one of binary64. -/
theorem val64_e_ge (v : B64) : 0 ≤ (val64 v).e + 1074 := by
  change 0 ≤ (if exp64 v = 0 then -1074 else ((exp64 v).toNat : ℤ) - 1075) + 1074
  split_ifs with h
  · omega
  · have : (exp64 v).toNat ≠ 0 := fun h' => h (BitVec.toNat_inj.mp h')
    omega

theorem val32_e_ge (v : B32) : 0 ≤ (val32 v).e + 1074 := by
  change 0 ≤ (if exp32 v = 0 then -149 else ((exp32 v).toNat : ℤ) - 150) + 1074
  split_ifs <;> omega

end Sys2Proof.Machine

namespace Sys2Proof.Said

open Sys2Proof.Machine

/-- Settles O53: the two exact values are one real (`Val32.extendFloat`), so they are as many units of `2^(-1074)`. -/
theorem wideningDenotesTheSameValue : Obligations.WideningDenotesTheSameValue := by
  intro x hnan hinf
  obtain ⟨y, hy⟩ := val32_exists hnan hinf
  apply Int.cast_injective (α := ℝ)
  rw [Exact.scaled _ (val64_e_ge _), Exact.scaled _ (val32_e_ge _), hy.extendFloat.real, hy.real]

/-- Settles O55, by `Magnitude.roundTo_spec`. -/
theorem roundingToAMultipleIsCorrect : Obligations.RoundingToAMultipleIsCorrect :=
  fun _ _ q rm neg hm hx => Magnitude.roundTo_spec hm hx q rm neg

/-- Settles O56, by `Magnitude.log_spec`. -/
theorem exponentIsTheFloorOfTheLogarithm : Obligations.ExponentIsTheFloorOfTheLogarithm :=
  fun _ _ hm hx => Magnitude.log_spec hm hx

end Sys2Proof.Said
end

section
/-!
PROOFS. Truncation is rounding toward zero (40_fp_value_model.md R90): R93 toward zero cuts bits off, and `truncBits` keeps
the bits above them.
-/

namespace Sys2Proof.Said

open Sys2Proof.Machine

/-! ### Rounding toward zero -/

/-- Rounding toward zero has one result. -/
theorem Rounded.unique_rtz {x u : ℝ} {k k' : ℕ} {neg : Bool} (hu : 0 < u) (h : Rounded x u k .rtz neg)
    (h' : Rounded x u k' .rtz neg) : k = k' :=
  le_antisymm (h'.le_of_le hu h.1) (h.le_of_le hu h'.1)

/-- Cutting `m` bits off is rounding toward zero. -/
theorem rounded_rtz_div (n m : ℕ) (g : ℤ) (neg : Bool) : Rounded (n * 2 ^ (g - m)) (2 ^ g) (n / 2 ^ m) .rtz neg := by
  have hu := two_zpow_pos (g - m)
  have hg : (2 : ℝ) ^ g = (2 ^ m : ℕ) * 2 ^ (g - m) := by
    rw [pow_mul_two_zpow]
    congr 1
    ring
  have hlo : ((n / 2 ^ m : ℕ) : ℝ) * (2 ^ m : ℕ) ≤ n := by exact_mod_cast Nat.div_mul_le_self n (2 ^ m)
  have hhi : (n : ℝ) < ((n / 2 ^ m : ℕ) + 1) * (2 ^ m : ℕ) := by
    exact_mod_cast Nat.lt_mul_of_div_lt (Nat.lt_succ_self _) (Nat.two_pow_pos m)
  rw [hg]
  constructor
  · rw [← mul_assoc]
    gcongr
  · rw [← mul_assoc]
    gcongr

/-- R93 toward zero, of a value in the range of the format: no overflow, and the unit is that of the value's exponent or
the least one. -/
theorem RoundsTo.denotes_rtz {fmt : FpFormat} {tin : Tininess} {neg : Bool} {x : ℝ} {r : FpParts} {sig : Signals}
    (h : RoundsTo fmt tin .rtz neg x r sig) {e : ℤ} (hlo : (2 : ℝ) ^ e ≤ x) (hhi : x < 2 ^ (e + 1)) (hfit : e ≤ fmt.emax)
    {k : ℕ} (hk : Rounded x (2 ^ (max e fmt.emin - fmt.p + 1)) k .rtz neg) :
    r.sign = neg ∧ Denotes fmt r (k * 2 ^ (max e fmt.emin - fmt.p + 1)) := by
  obtain ⟨e', k', kd, ru, rd, hlo', hhi', hru, rfl, hrd, rfl, hsign, -, -, -, -, hsub, hnormal⟩ := h
  obtain rfl : e' = e := by
    have := (lt_two_zpow_iff hlo' hhi').mp hhi
    have := (lt_two_zpow_iff hlo hhi).mp hhi'
    omega
  have hx : x < 2 ^ (fmt.emax + 1) := (lt_two_zpow_iff hlo hhi).mpr (by omega)
  have hover := hru.1.trans_lt hx
  refine ⟨hsign, ?_⟩
  obtain hlow | hnorm := lt_or_ge e' fmt.emin
  · rw [max_eq_right hlow.le] at hk ⊢
    obtain rfl := hk.unique_rtz (two_zpow_pos _) hrd
    exact (hsub hover ((lt_two_zpow_iff hlo hhi).mpr hlow)).1
  · rw [max_eq_left hnorm] at hk ⊢
    obtain rfl := hk.unique_rtz (two_zpow_pos _) hru
    exact (hnormal hover ((two_zpow_le_iff.mpr hnorm).trans hlo)).1

end Sys2Proof.Said

namespace Sys2Proof.Machine

/-! ### The parts that truncation keeps (R90) -/

theorem fpParts_ext {p q : FpParts} (hs : p.sign = q.sign) (he : p.exp = q.exp) (hf : p.frac = q.frac) : p = q := by
  cases p
  cases q
  simp_all

/-- The parts of `truncBits v` off the free value: the hidden bit and the fraction, cut to 23 bits or, below the normal
range, to a multiple of the least subnormal. -/
def truncatedParts (v : B64) : FpParts where
  sign := sign64 v
  exp  := (exp64 v).toNat - 896
  frac := if 897 ≤ (exp64 v).toNat then (frac64 v).toNat / 2 ^ 29
    else (2 ^ 52 + (frac64 v).toNat) / 2 ^ (926 - (exp64 v).toNat)

theorem toNat_fracHigh (v : B64) : (fracHigh v).toNat = (frac64 v).toNat / 2 ^ 29 := by
  have hlt := (frac64 v).isLt
  rw [fracHigh_eq, BitVec.extractLsb'_toNat, Nat.shiftRight_eq_div_pow, Nat.mod_eq_of_lt (by omega)]

theorem toNat_hidden_append_fracHigh (v : B64) :
    ((1 : BitVec 1) ++ fracHigh v).toNat = (2 ^ 52 + (frac64 v).toNat) / 2 ^ 29 := by
  rw [BitVec.toNat_append, ← Nat.shiftLeft_add_eq_or_of_lt (fracHigh v).isLt, toNat_fracHigh, Nat.shiftLeft_eq,
    show (1 : BitVec 1).toNat = 1 from rfl]
  omega

theorem truncBits_eq_to32 {v : B64} (hE : (exp64 v).toNat ≤ 1150) : truncBits v = (truncatedParts v).to32 := by
  have hlt := (frac64 v).isLt
  simp only [truncBits, FpParts.to32, truncatedParts]
  generalize (exp64 v).toNat = e at *
  rw [if_neg (by omega)]
  by_cases hnormal : 897 ≤ e
  · rw [if_pos ⟨hnormal, hE⟩, if_pos hnormal, ← toNat_fracHigh, BitVec.ofNat_toNat, BitVec.setWidth_eq]
  · rw [if_neg (by omega), if_neg hnormal, show e - 896 = 0 by omega]
    by_cases hsub : 874 ≤ e
    · rw [if_pos (by omega)]
      refine congrArg (pack32 (sign64 v) 0) (BitVec.eq_of_toNat_eq ?_)
      rw [BitVec.toNat_setWidth, BitVec.toNat_ushiftRight, toNat_hidden_append_fracHigh, BitVec.toNat_ofNat,
        Nat.shiftRight_eq_div_pow, Nat.div_div_eq_div_mul, ← pow_add, show 29 + (897 - e) = 926 - e by omega]
    · have hcut : (2 ^ 52 + (frac64 v).toNat) / 2 ^ (926 - e) = 0 := by
        apply Nat.div_eq_of_lt
        calc 2 ^ 52 + (frac64 v).toNat < 2 ^ 53 := by omega
          _ ≤ 2 ^ (926 - e) := Nat.pow_le_pow_right (by omega) (by omega)
      rw [if_neg (by omega), if_pos (by omega), hcut]
      rfl

end Sys2Proof.Machine

namespace Sys2Proof.Said

open Sys2Proof.Machine

/-! ### Truncation is rounding toward zero (R90) -/

section Truncation

variable {v : B64} {y : ℝ} (h : Denotes binary64 (parts64 v) y)
include h

theorem value_of_exp_ne_zero (h0 : (exp64 v).toNat ≠ 0) :
    y = (2 ^ 52 + (frac64 v).toNat : ℕ) * 2 ^ (((exp64 v).toNat : ℤ) - 1075) := by
  obtain ⟨-, -, hy⟩ := h
  exact (hy.trans (magnitudeOf_parts64 v)).trans (if_neg fun h => h0 (congrArg BitVec.toNat h))

/-- In the normal range of binary32 truncation keeps the top 24 bits. -/
theorem truncated_of_normal (hlo : 897 ≤ (exp64 v).toNat) (hhi : (exp64 v).toNat ≤ 1150) (neg : Bool) :
    ∃ k : ℕ, Rounded y (2 ^ (((exp64 v).toNat : ℤ) - 1046)) k .rtz neg ∧
      Denotes binary32 (truncatedParts v) (k * 2 ^ (((exp64 v).toNat : ℤ) - 1046)) := by
  have hlt := (frac64 v).isLt
  have hk : (2 ^ 52 + (frac64 v).toNat) / 2 ^ 29 = 2 ^ 23 + (frac64 v).toNat / 2 ^ 29 := by omega
  refine ⟨(2 ^ 52 + (frac64 v).toNat) / 2 ^ 29, ?rounded, ?exp, ?frac, ?value⟩
  case rounded =>
    rw [value_of_exp_ne_zero h (by omega),
      show ((exp64 v).toNat : ℤ) - 1075 = ((exp64 v).toNat : ℤ) - 1046 - (29 : ℕ) by omega]
    exact rounded_rtz_div _ 29 _ neg
  case exp =>
    simp only [truncatedParts, binary32]
    omega
  case frac =>
    simp only [truncatedParts, binary32, if_pos hlo]
    omega
  case value =>
    have hexp : (exp64 v).toNat - 896 ≠ 0 := by omega
    simp only [truncatedParts, binary32, if_pos hlo, if_neg hexp]
    rw [hk, show (((exp64 v).toNat - 896 : ℕ) : ℤ) - 127 - (24 : ℕ) + 1 = ((exp64 v).toNat : ℤ) - 1046 by omega]

/-- Below it truncation keeps a multiple of the least subnormal. -/
theorem truncated_of_low (hE : (exp64 v).toNat ≤ 896) (neg : Bool) :
    y < 2 ^ (-126 : ℤ) ∧ Rounded y (2 ^ (-149 : ℤ)) (truncatedParts v).frac .rtz neg ∧
      Denotes binary32 (truncatedParts v) ((truncatedParts v).frac * 2 ^ (-149 : ℤ)) := by
  have hlt := (frac64 v).isLt
  have hfrac : (truncatedParts v).frac = (2 ^ 52 + (frac64 v).toNat) / 2 ^ (926 - (exp64 v).toNat) :=
    if_neg (by omega)
  have hexp : (truncatedParts v).exp = 0 := Nat.sub_eq_zero_of_le hE
  refine ⟨?low, ?rounded, ?exp, ?frac, ?value⟩
  case low =>
    by_cases h0 : (exp64 v).toNat = 0
    · exact (h.lt_of_exp_eq_zero binary64_regular h0).trans_le (two_zpow_le_iff.mpr (by decide))
    · refine (h.log_of_exp_ne_zero binary64_regular h0).2.trans_le (two_zpow_le_iff.mpr ?_)
      simp only [parts64, binary64]
      omega
  case rounded =>
    rw [hfrac]
    by_cases h0 : (exp64 v).toNat = 0
    · have hcut : (2 ^ 52 + (frac64 v).toNat) / 2 ^ (926 - (exp64 v).toNat) = 0 := by
        apply Nat.div_eq_of_lt
        calc 2 ^ 52 + (frac64 v).toNat < 2 ^ 53 := by omega
          _ ≤ 2 ^ (926 - (exp64 v).toNat) := Nat.pow_le_pow_right (by omega) (by omega)
      rw [hcut]
      refine ⟨by simpa using h.nonneg, ?_⟩
      simpa using (h.lt_of_exp_eq_zero binary64_regular h0).trans_le
        (two_zpow_le_iff.mpr (show binary64.emin ≤ -149 by decide))
    · rw [value_of_exp_ne_zero h h0,
        show ((exp64 v).toNat : ℤ) - 1075 = -149 - ((926 - (exp64 v).toNat : ℕ) : ℤ) by omega]
      exact rounded_rtz_div _ _ _ neg
  case exp =>
    rw [hexp]
    decide
  case frac =>
    rw [hfrac]
    refine Nat.div_lt_of_lt_mul ?_
    calc 2 ^ 52 + (frac64 v).toNat < 2 ^ 30 * 2 ^ 23 := by omega
      _ ≤ 2 ^ (926 - (exp64 v).toNat) * 2 ^ 23 := Nat.mul_le_mul_right _ (Nat.pow_le_pow_right (by omega) (by omega))
  case value =>
    rw [if_pos hexp]
    rfl

/-- The parts that truncation keeps are those of the value rounded toward zero. -/
theorem denotes_of_roundsTo_rtz (hy : 0 < y) (hE : (exp64 v).toNat ≤ 1150) {tin : Tininess} {neg : Bool} {r : FpParts}
    {sig : Signals} (hr : RoundsTo binary32 tin .rtz neg y r sig) :
    r.sign = neg ∧ r.exp = (truncatedParts v).exp ∧ r.frac = (truncatedParts v).frac := by
  obtain ⟨e, hlo, hhi⟩ := exists_mem_Ico_zpow hy (by norm_num : (1 : ℝ) < 2)
  obtain hnormal | hlow := le_or_gt 897 (exp64 v).toNat
  · obtain ⟨hlo', hhi'⟩ := h.log_of_exp_ne_zero binary64_regular (show (exp64 v).toNat ≠ 0 by omega)
    obtain ⟨k, hk, hden⟩ := truncated_of_normal h hnormal hE neg
    have h1 := (lt_two_zpow_iff hlo hhi).mp hhi'
    have h2 := (lt_two_zpow_iff hlo' hhi').mp hhi
    simp only [parts64, binary64] at h1 h2
    have hunit : max e binary32.emin - binary32.p + 1 = ((exp64 v).toNat : ℤ) - 1046 := by
      simp only [binary32]
      omega
    rw [← hunit] at hk hden
    obtain ⟨hsign, hr⟩ := hr.denotes_rtz hlo hhi (by simp only [binary32]; omega) hk
    exact ⟨hsign, hr.unique binary32_regular hden⟩
  · obtain ⟨hlt, hk, hden⟩ := truncated_of_low h (by omega) neg
    have h1 := (lt_two_zpow_iff hlo hhi).mp hlt
    have hunit : max e binary32.emin - binary32.p + 1 = -149 := by
      simp only [binary32]
      omega
    rw [← hunit] at hk hden
    obtain ⟨hsign, hr⟩ := hr.denotes_rtz hlo hhi (by simp only [binary32]; omega) hk
    exact ⟨hsign, hr.unique binary32_regular hden⟩

end Truncation

/-- A number other than zero off the free value. -/
theorem truncBits_of_number {v : B64} {x : ℝ} (hv : Val64 v x) (hx : x ≠ 0) (hE : (exp64 v).toNat ≤ 1150) :
    truncBits v = (roundF32 v .rtz).1 := by
  obtain ⟨p, neg, hneg, hp, hround⟩ := roundsTo32_roundF32 .rtz Config.tininess hv hx
  obtain ⟨hsign, hexp, hfrac⟩ := denotes_of_roundsTo_rtz (val64_iff.mp hv).abs (abs_pos.mpr hx) hE hround
  have hneg' : neg = sign64 v := Bool.eq_iff_iff.mpr (hneg.trans (hv.sign_iff hx).symm)
  rw [truncBits_eq_to32 hE, hp, fpParts_ext (hsign.trans hneg') hexp hfrac]

theorem truncBits_of_isInf {v : B64} (h : isInf64 v = true) : truncBits v = (roundF32 v .rtz).1 := by
  obtain ⟨he, hf⟩ := isInf64_iff_fields.mp h
  rw [roundF32_of_isInf .rtz _ h]
  simp [truncBits, he, fracHigh_eq, hf]

theorem truncBits_of_isZero {v : B64} (h : isZero64 v = true) : truncBits v = (roundF32 v .rtz).1 := by
  rw [roundF32_of_isZero .rtz _ h]
  simp [truncBits, (isZero64_iff_fields.mp h).1]

/-- Settles O54: infinities and zeros by their arms, the other numbers by `truncBits_of_number`. -/
theorem truncationIsRoundingTowardZero : Obligations.TruncationIsRoundingTowardZero := by
  intro v hnan hrange
  cases hinf : isInf64 v with
  | true => exact truncBits_of_isInf hinf
  | false =>
    have hE : (exp64 v).toNat ≤ 1150 := hrange.resolve_right (by simp [hinf])
    have hv : Val64 v _ := ⟨hnan, hinf, rfl⟩
    cases hzero : isZero64 v with
    | true => exact truncBits_of_isZero hzero
    | false => exact truncBits_of_number hv (mt hv.isZero_iff.mpr (Bool.eq_false_iff.mp hzero)) hE

end Sys2Proof.Said
end
